-- ==== Sys2Proof/Word.lean ====
section
/-! DEFINITION. The word, byte and token types of the core and their plainest conversions (00_scope.md R10). -/

namespace Sys2Proof

/-- A register, an address, the PC: 32 bits (00_scope.md R10). -/
abbrev Word := BitVec 32

/-- One byte of data memory or of the console (20_memory.md R50, 47_system.md R242). -/
abbrev Byte := BitVec 8

/-- A token of an instruction slot, its characters verbatim (30_encoding.md R81). -/
abbrev Token := List Char

/-- `u32(n)` of 00_scope.md R10: the integer reduced modulo 2^32. -/
abbrev u32 (n : Int) : Word := BitVec.ofInt 32 n

/-- `s32(v)` of 00_scope.md R10: the two's-complement reading. -/
abbrev s32 (v : Word) : Int := v.toInt

end Sys2Proof
end

