-- ==== Sys2Proof/Machine/Flags.lean ====
section
/-! DEFINITION. The core has no flags (10_state.md R32): comparisons write 0 or 1 into a register and branches compare
registers directly. These are the comparisons (40_arith_logic.md R139, R140; 44_branch.md R203 to R212). -/

namespace Sys2Proof.Machine

/-- A comparison's result as a word: exactly 0 or 1 in all 32 bits (R149(c)). -/
def truthWord (b : Bool) : Word := if b then 1#32 else 0#32

/-- `s32(a) < s32(b)` (R139, R205). -/
def signedLess (a b : Word) : Bool := decide (s32 a < s32 b)

/-- `a <u b` (R140). -/
def unsignedLess (a b : Word) : Bool := decide (a.toNat < b.toNat)

/-- `a = b` (R203). -/
def condEq (a b : Word) : Bool := decide (a = b)

/-- `a != b` (R204). -/
def condNe (a b : Word) : Bool := decide (a ≠ b)

/-- `s32(a) < s32(b)` (R205). -/
def condLt (a b : Word) : Bool := signedLess a b

/-- `s32(a) <= s32(b)` (R206). -/
def condLe (a b : Word) : Bool := decide (s32 a ≤ s32 b)

/-- `s32(a) > s32(b)` (R207). -/
def condGt (a b : Word) : Bool := decide (s32 a > s32 b)

/-- `s32(a) >= s32(b)` (R208). -/
def condGe (a b : Word) : Bool := decide (s32 a ≥ s32 b)

/-- `s32(a) < 0` (R209). -/
def condLtz (a : Word) : Bool := decide (s32 a < 0)

/-- `s32(a) <= 0` (R210). -/
def condLez (a : Word) : Bool := decide (s32 a ≤ 0)

/-- `s32(a) > 0` (R211). -/
def condGtz (a : Word) : Bool := decide (s32 a > 0)

/-- `s32(a) >= 0` (R212). -/
def condGez (a : Word) : Bool := decide (s32 a ≥ 0)

end Sys2Proof.Machine
end

