-- ==== Sys2Proof/Config.lean ====
section
/-! DEFINITION. The implementation parameters of 00_scope.md R7 and the model's one free value. -/

namespace Sys2Proof

/-- The parameter `IMM_WIDE`: what an immediate outside its field range does (30_encoding.md R91). -/
inductive ImmWide where
  | refuse
  | full32
  | truncate16
deriving DecidableEq, Repr

/-- The parameter `DIV_OVERFLOW` (41_muldiv.md R163). The spec defines `fault`, its default. `result` is the explicit
hypothesis that R163's decision D20 asks of a model that wants a value: HI and LO as the setting names them. -/
inductive DivOverflow where
  | fault
  | result (hi lo : Word)
deriving DecidableEq, Repr

/-- The setting of a parameter for which the spec gives the one value `n`. -/
structure Fixed (n : Nat) where
deriving DecidableEq, Repr

/-- The value of such a parameter. -/
abbrev Fixed.value {n : Nat} (_ : Fixed n) : Nat := n

/-- One field per parameter of 00_scope.md R7. `XLEN`, `NREG` and `SLOT` have one value each, which 00_scope.md R10,
10_state.md R21 and 30_encoding.md R80 write out; `Word` and the register file have that size (log entry 10). -/
structure Config where
  xlen : Fixed 32
  nreg : Fixed 32
  slot : Fixed 4
  textBase : Word
  dataBase : Word
  spInit : Word
  heapBase : Word
  admitTierC : Bool
  immWide : ImmWide
  divOverflow : DivOverflow
  isCapacity : Option Nat
  ltCapacity : Option Nat
deriving DecidableEq, Repr

/-- The defaults of R7. `heapBase` has none in the spec: 0x20000000 is the model's DESIGN CHOICE (log entry 3, unsafe). -/
def Config.default : Config where
  xlen := {}
  nreg := {}
  slot := {}
  textBase := 0x00400000#32
  dataBase := 0x10010000#32
  spInit := 0x7ffffffc#32
  heapBase := 0x20000000#32
  admitTierC := true
  immWide := .refuse
  divOverflow := .fault
  isCapacity := none
  ltCapacity := none

/-- What the spec lets a model assume of its parameters: `TEXT_BASE` is a multiple of 4 (92_eei_decisions.md D27) and
`HEAP_BASE` lies above `DATA_BASE` (D17). -/
def Config.wf (c : Config) : Bool :=
  c.textBase.toNat % 4 == 0 && decide (c.dataBase.toNat < c.heapBase.toNat)

/-- The most slots `load` accepts: the 32-bit PC reaches `(2^32 - TEXT_BASE)/4` slots, and `IS_CAPACITY` may be less (R7). -/
def Config.slotLimit (c : Config) : Nat :=
  let reach := (2 ^ c.xlen.value - c.textBase.toNat) / c.slot.value
  match c.isCapacity with
  | none => reach
  | some n => min n reach

/-- FREE VALUE: the `n`-th word the spec leaves unconstrained (the pc after system call 10, U3; log entry 5). -/
opaque Config.freeWord : Nat → Word

end Sys2Proof
end

