-- ==== Sys2Proof/Syntax.lean ====
section
/-! DEFINITION. The instructions of the core: one constructor of `Instr` per row of spec/opcode_table.json. -/

namespace Sys2Proof

/-- A register position after `RegResolve` (10_state.md R24): a register, or a token that names none. -/
inductive RegOp where
  | valid (i : Fin 32)
  | invalid (tok : Token)
deriving DecidableEq, Repr

/-- A token in an immediate or target position (30_encoding.md R87, R88): a number in range, a number outside
R88's ranges, or a symbol that is looked up in the label table when the instruction executes. -/
inductive ValOp where
  | num (n : Int)
  | wide (tok : Token)
  | sym (name : Token)
deriving DecidableEq, Repr

/-- The tiers of 30_encoding.md R84. -/
inductive Tier where
  | N
  | C
deriving DecidableEq, Repr

/-- The operand-token patterns of 30_encoding.md R85. -/
inductive Format where
  | R3 | SH | MD | MF | JR | I3 | LU | M | B3 | B2 | J | N | PI | PA | P2 | P1
deriving DecidableEq, Repr

/-- The closed enumeration of opcodes that dispatch classifies `T0` into (30_encoding.md R83, R84). -/
inductive Kind where
  | add | addu | sub | subu | and | or | xor | nor | slt | sltu
  | addi | addiu | andi | ori | xori | slti | sltiu | lui
  | mult | multu | div | divu | mfhi | mflo
  | sll | srl | sra
  | lw | lh | lhu | lb | lbu | sw | sh | sb
  | beq | bne | blt | ble | bgt | bge | bltz | blez | bgtz | bgez
  | j | jal | jr
  | li | la | move | clear | not
  | syscall | nop
deriving DecidableEq, Repr

/-- The instructions. Operand order is that of the token pattern (30_encoding.md R85); an absent `off` of format M is `none`. -/
inductive Instr where
  -- 40_arith_logic.md, format R3
  | add (rd rs rt : RegOp)
  | addu (rd rs rt : RegOp)
  | sub (rd rs rt : RegOp)
  | subu (rd rs rt : RegOp)
  | and (rd rs rt : RegOp)
  | or (rd rs rt : RegOp)
  | xor (rd rs rt : RegOp)
  | nor (rd rs rt : RegOp)
  | slt (rd rs rt : RegOp)
  | sltu (rd rs rt : RegOp)
  -- 40_arith_logic.md, formats I3 and LU
  | addi (rt rs : RegOp) (imm : ValOp)
  | addiu (rt rs : RegOp) (imm : ValOp)
  | andi (rt rs : RegOp) (imm : ValOp)
  | ori (rt rs : RegOp) (imm : ValOp)
  | xori (rt rs : RegOp) (imm : ValOp)
  | slti (rt rs : RegOp) (imm : ValOp)
  | sltiu (rt rs : RegOp) (imm : ValOp)
  | lui (rt : RegOp) (imm : ValOp)
  -- 41_muldiv.md, formats MD and MF
  | mult (rs rt : RegOp)
  | multu (rs rt : RegOp)
  | div (rs rt : RegOp)
  | divu (rs rt : RegOp)
  | mfhi (rd : RegOp)
  | mflo (rd : RegOp)
  -- 42_shift.md, format SH
  | sll (rd rt : RegOp) (shamt : ValOp)
  | srl (rd rt : RegOp) (shamt : ValOp)
  | sra (rd rt : RegOp) (shamt : ValOp)
  -- 43_loadstore.md, format M
  | lw (rt : RegOp) (off : Option ValOp) (base : RegOp)
  | lh (rt : RegOp) (off : Option ValOp) (base : RegOp)
  | lhu (rt : RegOp) (off : Option ValOp) (base : RegOp)
  | lb (rt : RegOp) (off : Option ValOp) (base : RegOp)
  | lbu (rt : RegOp) (off : Option ValOp) (base : RegOp)
  | sw (rt : RegOp) (off : Option ValOp) (base : RegOp)
  | sh (rt : RegOp) (off : Option ValOp) (base : RegOp)
  | sb (rt : RegOp) (off : Option ValOp) (base : RegOp)
  -- 44_branch.md, formats B3 and B2
  | beq (rs rt : RegOp) (target : ValOp)
  | bne (rs rt : RegOp) (target : ValOp)
  | blt (rs rt : RegOp) (target : ValOp)
  | ble (rs rt : RegOp) (target : ValOp)
  | bgt (rs rt : RegOp) (target : ValOp)
  | bge (rs rt : RegOp) (target : ValOp)
  | bltz (rs : RegOp) (target : ValOp)
  | blez (rs : RegOp) (target : ValOp)
  | bgtz (rs : RegOp) (target : ValOp)
  | bgez (rs : RegOp) (target : ValOp)
  -- 45_jump.md, formats J and JR
  | j (target : ValOp)
  | jal (target : ValOp)
  | jr (rs : RegOp)
  -- 46_pseudo.md, formats PI, PA, P2, P1
  | li (rd : RegOp) (imm : ValOp)
  | la (rd : RegOp) (target : ValOp)
  | move (rd rs : RegOp)
  | clear (rd : RegOp)
  | not (rd rs : RegOp)
  -- 47_system.md, format N
  | syscall
  | nop
deriving DecidableEq, Repr

end Sys2Proof
end

