-- ==== Sys2Proof/Machine/State.lean ====
section
/-! DEFINITION. The state of the core, its diagnostics, the reasons a step stops, and the reset state
(10_state.md R20 to R42; 60_exceptions.md R271 to R279). -/

namespace Sys2Proof.Machine

/-- `ENG` (10_state.md R33). `Error-Warned` is no stored value. -/
inductive Engine where
  | ready
  | running
  | halted
deriving DecidableEq, Repr

/-- Where the engine stands with respect to `load` (30_encoding.md R107, 60_exceptions.md R280, R282; log entry 13). -/
inductive LoadPhase where
  | fresh
  | loaded
  | failed
deriving DecidableEq, Repr

/-- A record of the diagnostic stream: conditions E1, E2, E3, E4 and E6 of 60_exceptions.md R271 (E5 is not logged, E7 is a fault). -/
inductive Diag where
  | unknownOpcode (mnemonic : Token)
  | operandError (tok : Token)
  | unsupportedSyscall (num : Word)
  | referenceError (tok : Token)
  | noInstruction (pc : Word)
deriving DecidableEq, Repr

/-- The console's answer to one `ReadInt` request (47_system.md R242, R245). -/
inductive IntDraw where
  /-- a 32-bit value -/
  | value (v : Word)
  /-- end of input -/
  | endOfInput
  /-- text that is no integer, or an integer outside 32 bits -/
  | malformed
deriving DecidableEq, Repr

/-- The console's answer to one `ReadLine` request: the line without its terminator (47_system.md R247). -/
inductive LineDraw where
  | value (line : List Byte)
  | endOfInput
deriving DecidableEq, Repr

/-- The console's answer to one `ReadChar` request (47_system.md R251). -/
inductive CharDraw where
  | value (c : Byte)
  | endOfInput
deriving DecidableEq, Repr

/-- The answers the console has ready, one queue per kind of request, so that nothing is assumed about how reads of
different kinds share one byte stream (47_system.md R242, U4; log entry 6). -/
structure ConsoleIn where
  ints : List IntDraw
  lines : List LineDraw
  chars : List CharDraw
deriving DecidableEq, Repr

/-- The state: 10_state.md R20's tuple (`regs` to `labels`), the load phase, the console and the diagnostic stream,
and the model's own `cfg` and `freeCount` (log entries 5, 7, 10, 13). -/
structure State where
  /-- the implementation parameters, which no step changes (00_scope.md R7) -/
  cfg : Config
  /-- `x[0..31]` (R21) -/
  regs : Vector Word 32
  /-- `HI` (R28) -/
  hi : Word
  /-- `LO` (R28) -/
  lo : Word
  /-- `pc` (R29) -/
  pc : Word
  /-- `ENG` (R33) -/
  eng : Engine
  /-- `HEAPPTR` (R35) -/
  heapPtr : Word
  /-- `MEM` in canonical form (R39) -/
  mem : List Host.Cell
  /-- `IS` (R37) -/
  slots : List (List Token)
  /-- `LT` (R38) -/
  labels : List (Token × Word)
  /-- fresh, loaded or failed (R107, R282) -/
  phase : LoadPhase
  /-- `OUT` (47_system.md R242) -/
  conOut : List Byte
  /-- the console's answers not read yet (47_system.md R242) -/
  conIn : ConsoleIn
  /-- the diagnostic stream (60_exceptions.md R271) -/
  diags : List Diag
  /-- how many free values have been taken -/
  freeCount : Nat
deriving DecidableEq, Repr

/-- The reasons a step stops with no successor state (00_scope.md R14). All are safe: nothing is claimed past them. -/
inductive Fault where
  /-- E7 with its record, the token: an immediate or target that is no number in range and, in an immediate position,
  no label (30_encoding.md R88, R89; 60_exceptions.md R271). Raised by every instruction with such an operand. Safe. -/
  | numericConversion (tok : Token)
  /-- `0x80000000 / 0xFFFFFFFF` under `DIV_OVERFLOW = fault` (41_muldiv.md R163). Raised by `div`. Safe. -/
  | divideOverflow
  /-- service 8 with `maxLen < 1` (47_system.md R247). Raised by `syscall`. Safe. -/
  | readStringLength
  /-- end of console input (47_system.md R242). Raised by `syscall` services 5, 8, 12. Safe. -/
  | consoleEndOfInput
  /-- malformed console integer (47_system.md R242, R245). Raised by `syscall` service 5. Safe. -/
  | consoleMalformed
  /-- service 4 on a memory of 2^32 non-zero bytes, whose scan never ends (47_system.md R244; log entry 20).
  Raised by `syscall`. Safe. -/
  | endlessString
deriving DecidableEq, Repr

/-- The reasons this spec gives a step no meaning (00_scope.md R14, 60_exceptions.md R279). All are safe. -/
inductive Refusal where
  /-- no meaning in the model yet. Raised by `exec`'s arms only. Safe. -/
  | notModelled (mnemonic : String)
  /-- an operand list that does not fit (30_encoding.md R92). Raised by `step`. Safe. -/
  | illFormed
  /-- an immediate outside its field range (30_encoding.md R91). Raised by the instructions with a ranged immediate. Safe. -/
  | immediateOutOfRange
  /-- an invalid designator in a branch or `jr` (44_branch.md R202, 45_jump.md R226). Raised by those. Safe. -/
  | invalidRegisterInControlTransfer
  /-- a step after a failed `load` (60_exceptions.md R282). Raised by `step`. Safe. -/
  | afterLoadError
deriving DecidableEq, Repr

/-- What a meaning answers. The outcome `halt` of 00_scope.md R14 is a next state with `eng = halted`. -/
abbrev Result := Host.Outcome State Fault Refusal

/-- The reset state under the parameters `cfg` (10_state.md R42, R300): at construction, before any console traffic (R301). -/
def State.resetWith (cfg : Config) : State where
  cfg := cfg
  regs := (Vector.replicate 32 0#32).set 29 cfg.spInit
  hi := 0#32
  lo := 0#32
  pc := cfg.textBase
  eng := .ready
  heapPtr := cfg.heapBase
  mem := []
  slots := []
  labels := []
  phase := .fresh
  conOut := []
  conIn := { ints := [], lines := [], chars := [] }
  diags := []
  freeCount := 0

/-- The reset state under R7's defaults. -/
def State.reset : State := State.resetWith Config.default

end Sys2Proof.Machine
end

