-- ==== Sys2Proof/Machine/Memory.lean ====
section
/-! DEFINITION. Data memory (10_state.md R39; 20_memory.md R50 to R56): a list of (address, byte) cells, addresses
strictly rising and below 2^32, no cell holding the 0 that an unlisted address reads as. -/

namespace Sys2Proof.Machine

/-- What an address never written reads as (20_memory.md R51). -/
def unlistedByte : Byte := 0#8

/-- Every cell's address is at least `lo`, the addresses rise strictly, and no cell holds `unlistedByte`. -/
def memWfFrom : Nat → List Host.Cell → Bool
  | _, [] => true
  | lo, (k, b) :: m => decide (lo ≤ k) && decide (k < 2 ^ 32) && b != unlistedByte && memWfFrom (k + 1) m

/-- The canonical form. -/
def Memory.wf (m : List Host.Cell) : Bool := memWfFrom 0 m

/-- The byte at an address. -/
def memRead : List Host.Cell → Nat → Byte
  | [], _ => unlistedByte
  | (k, b) :: m, a => if k = a then b else memRead m a

/-- Store one byte, keeping the canonical form. -/
def memWrite : List Host.Cell → Nat → Byte → List Host.Cell
  | [], a, v => if v = unlistedByte then [] else [(a, v)]
  | (k, b) :: m, a, v =>
    if a < k then (if v = unlistedByte then (k, b) :: m else (a, v) :: (k, b) :: m)
    else if a = k then (if v = unlistedByte then m else (a, v) :: m)
    else (k, b) :: memWrite m a v

/-- `fetchByte` (R52). -/
def State.readByte (s : State) (a : Word) : Byte := memRead s.mem a.toNat

/-- `fetchHalf` (R53): the byte at `a` is the low one. -/
def State.readHalf (s : State) (a : Word) : BitVec 16 := s.readByte (a + 1#32) ++ s.readByte a

/-- `fetchWord` (R54). -/
def State.readWord (s : State) (a : Word) : Word :=
  s.readByte (a + 3#32) ++ (s.readByte (a + 2#32) ++ s.readHalf a)

/-- `storeByte` (R52). -/
def State.writeByte (s : State) (a : Word) (v : Byte) : State := { s with mem := memWrite s.mem a.toNat v }

/-- `storeHalf` (R53). -/
def State.writeHalf (s : State) (a : Word) (v : BitVec 16) : State :=
  (s.writeByte a (v.extractLsb' 0 8)).writeByte (a + 1#32) (v.extractLsb' 8 8)

/-- `storeWord` (R54). -/
def State.writeWord (s : State) (a : Word) (v : Word) : State :=
  (((s.writeByte a (v.extractLsb' 0 8)).writeByte (a + 1#32) (v.extractLsb' 8 8)).writeByte
    (a + 2#32) (v.extractLsb' 16 8)).writeByte (a + 3#32) (v.extractLsb' 24 8)

/-- Consecutive bytes stored from `a` upward, the addresses wrapping (30_encoding.md R101 to R103, 20_memory.md R56). -/
def memWriteBytes : List Host.Cell → Word → List Byte → List Host.Cell
  | m, _, [] => m
  | m, a, b :: bs => memWriteBytes (memWrite m a.toNat b) (a + 1#32) bs

/-- The stores of system call 8 (47_system.md R247). -/
def State.writeBytes (s : State) (a : Word) (bs : List Byte) : State := { s with mem := memWriteBytes s.mem a bs }

end Sys2Proof.Machine
end

