-- ==== Sys2Proof/Machine/Ops.lean ====
section
/-! DEFINITION. The named operations on registers, the PC, HI and LO, the diagnostic stream and the console.
The core has no trap mechanism (60_exceptions.md R270): in its place stand the diagnostic conditions, logged by
`State.log`, the fetch of no instruction, and the two ways into `Halted`. -/

namespace Sys2Proof.Machine

/-! Registers. -/

/-- `x[i]` (00_scope.md R11): register 0 reads as 0 (10_state.md R22). -/
def State.x (s : State) (i : Fin 32) : Word := if i = 0 then 0#32 else s.regs[i.val]

/-- `x[i] <- v` (R11): a write to register 0 is discarded silently (R22). -/
def State.setX (s : State) (i : Fin 32) (v : Word) : State :=
  if i = 0 then s else { s with regs := s.regs.set i.val v }

/-- `log(<Diag>)` (00_scope.md R14): append a record to the diagnostic stream. -/
def State.log (s : State) (d : Diag) : State := { s with diags := s.diags ++ [d] }

/-- The value of `RegRead(d)` (10_state.md R25): an invalid designator reads as 0. -/
def State.readReg (s : State) : RegOp → Word
  | .valid i => s.x i
  | .invalid _ => 0#32

/-- The record `RegRead(d)` leaves (R25): one `OperandError` for an invalid designator (60_exceptions.md R273). -/
def State.noteReg (s : State) : RegOp → State
  | .valid _ => s
  | .invalid tok => s.log (.operandError tok)

/-- `RegWrite(d, v)` (R25). -/
def State.writeReg (s : State) (d : RegOp) (v : Word) : State :=
  match d with
  | .valid i => s.setX i v
  | .invalid tok => s.log (.operandError tok)

/-- `HI <- hi; LO <- lo` (10_state.md R28). -/
def State.setHiLo (s : State) (hi lo : Word) : State := { s with hi := hi, lo := lo }

/-! The PC. An instruction that completes leaves the engine `Running` (60_exceptions.md R280). -/

/-- `pc <- a`, unchecked (10_state.md R31). -/
def State.goTo (s : State) (a : Word) : State := { s with pc := a, eng := .running }

/-- `u32(pc0 + 4)`, the address of the next slot (R31; 30_encoding.md R80). -/
def State.nextSlot (s : State) : Word := s.pc + BitVec.ofNat 32 s.cfg.slot.value

/-- `pc <- u32(pc0 + 4)` (R30, R31). -/
def State.advance (s : State) : State := s.goTo s.nextSlot

/-! The conditions that concern a whole step. -/

/-- E1 `UnknownOpcode` (30_encoding.md R93, 60_exceptions.md R272). -/
def State.unknownOpcode (s : State) (mnemonic : Token) : State := (s.log (.unknownOpcode mnemonic)).advance

/-- E6 `NoInstruction` (60_exceptions.md R277): the engine halts, `pc` keeps the unmapped value. -/
def State.noInstruction (s : State) : State := { s.log (.noInstruction s.pc) with eng := .halted }

/-- System call 10 (47_system.md R249): the engine halts and the value of `pc` is free (93_implementation_defined.md U3). -/
def State.exit (s : State) : State :=
  { s with eng := .halted, pc := Config.freeWord s.freeCount, freeCount := s.freeCount + 1 }

/-! Heap and console. -/

/-- `OUT <- OUT ++ bytes` (47_system.md R242). -/
def State.emit (s : State) (bytes : List Byte) : State := { s with conOut := s.conOut ++ bytes }

/-- `HEAPPTR <- a` (10_state.md R35). -/
def State.setHeapPtr (s : State) (a : Word) : State := { s with heapPtr := a }

/-- The integer requests still unanswered by the console's queue, the first one taken. -/
def State.dropInt (s : State) : State := { s with conIn := { s.conIn with ints := s.conIn.ints.tail } }

/-- The first line of the console's queue taken. -/
def State.dropLine (s : State) : State := { s with conIn := { s.conIn with lines := s.conIn.lines.tail } }

/-- The first character of the console's queue taken. -/
def State.dropChar (s : State) : State := { s with conIn := { s.conIn with chars := s.conIn.chars.tail } }

/-- The bytes of 7-bit ASCII text. -/
def asciiBytes (t : List Char) : List Byte := t.map fun c => BitVec.ofNat 8 c.toNat

/-- The label table's answer for a name: `LT[name]`, or nothing on a miss (10_state.md R38). -/
def labelLookup : List (Token × Word) → Token → Option Word
  | [], _ => none
  | (n, a) :: lt, name => if n = name then some a else labelLookup lt name

end Sys2Proof.Machine
end

