-- ==== Sys2Proof/Machine/Operands.lean ====
section
/-! DEFINITION. Immediates, offsets and targets resolved when an instruction executes (30_encoding.md R87 to R91),
and the addresses they give (43_loadstore.md R180, 44_branch.md R201, 45_jump.md R221, 46_pseudo.md R232). -/

namespace Sys2Proof.Machine

/-- A value, or the reason there is none. -/
inductive Got (α : Type) where
  | ok (a : α)
  | fault (f : Fault)
  | refused (r : Refusal)
deriving DecidableEq, Repr

/-- Go on with the value, or end the step. -/
def Got.andThen {α : Type} (g : Got α) (k : α → Result) : Result :=
  match g with
  | .ok a => k a
  | .fault f => .fault f
  | .refused r => .refused r

/-- `ResolveImm(tok)` of R89, with R88's range check. The fault carries the token (60_exceptions.md R271). -/
def State.resolveImm (s : State) : ValOp → Got Int
  | .num n => .ok n
  | .wide tok => .fault (.numericConversion tok)
  | .sym name =>
    match labelLookup s.labels name with
    | some a => .ok (a.toNat : Int)
    | none => .fault (.numericConversion name)

/-- The ranged immediate positions of R91's table: `imm` signed and `off`, `imm` logical, `shamt`. -/
inductive ImmField where
  | signed16
  | logical16
  | shamt
deriving DecidableEq, Repr

/-- R91's in-range test. -/
def ImmField.inRange (f : ImmField) (n : Int) : Bool :=
  match f with
  | .signed16 => decide (-32768 ≤ n) && decide (n ≤ 32767)
  | .logical16 => decide (0 ≤ n) && decide (n ≤ 65535)
  | .shamt => decide (0 ≤ n) && decide (n ≤ 31)

/-- The low bits of the field, extended as the field is (R91, `truncate16`). -/
def ImmField.truncate (f : ImmField) (n : Int) : Word :=
  match f with
  | .signed16 => ((u32 n).setWidth 16).signExtend 32
  | .logical16 => ((u32 n).setWidth 16).setWidth 32
  | .shamt => ((u32 n).setWidth 5).setWidth 32

/-- R91: the operand value of the parsed `n` in field `f`, under `IMM_WIDE`. -/
def fieldValue (wide : ImmWide) (f : ImmField) (n : Int) : Got Word :=
  if f.inRange n then .ok (u32 n)
  else
    match wide, f with
    | .refuse, _ => .refused .immediateOutOfRange
    | .full32, .shamt => .refused .immediateOutOfRange
    | .full32, _ => .ok (u32 n)
    | .truncate16, _ => .ok (f.truncate n)

/-- A ranged immediate operand (R89, then R91). -/
def State.immValue (s : State) (f : ImmField) (v : ValOp) : Got Word :=
  match s.resolveImm v with
  | .ok n => fieldValue s.cfg.immWide f n
  | .fault e => .fault e
  | .refused r => .refused r

/-- `EA(off, base)` (43_loadstore.md R180): an omitted offset is 0, the sum wraps. -/
def State.effAddr (s : State) (off : Option ValOp) (base : RegOp) : Got Word :=
  match off with
  | none => .ok (s.readReg base)
  | some v =>
    match s.immValue .signed16 v with
    | .ok n => .ok (s.readReg base + n)
    | .fault e => .fault e
    | .refused r => .refused r

/-- What `ResolveTarget` answers (R90). -/
inductive Target where
  /-- a Num token: the raw path -/
  | raw (n : Int)
  /-- a label hit: the label path -/
  | label (a : Word)
  /-- a miss: `pc0` stands for the address, and E4 is logged -/
  | missing (name : Token)
deriving DecidableEq, Repr

/-- `ResolveTarget(tok)` of R90, without its log. -/
def State.resolveTarget (s : State) : ValOp → Got Target
  | .num n => .ok (.raw n)
  | .wide tok => .fault (.numericConversion tok)
  | .sym name =>
    match labelLookup s.labels name with
    | some a => .ok (.label a)
    | none => .ok (.missing name)

/-- The log of R90: E4 `ReferenceError` on a miss (60_exceptions.md R275). -/
def State.noteTarget (s : State) : Target → State
  | .raw _ => s
  | .label _ => s
  | .missing name => s.log (.referenceError name)

/-- `BranchTarget` (44_branch.md R201), `pc0` the branch's own address. -/
def branchAddress (pc0 : Word) : Target → Word
  | .label a => a
  | .missing _ => pc0
  | .raw k => u32 ((pc0.toNat : Int) + 4 + k * 4)

/-- `JumpTarget` (45_jump.md R221). -/
def jumpAddress (pc0 : Word) : Target → Word
  | .label a => a
  | .missing _ => pc0
  | .raw t => (pc0 &&& 0xF0000000#32) ||| ((u32 t &&& 0x03FFFFFF#32) <<< 2)

/-- The value `la` loads (46_pseudo.md R232). -/
def loadedAddress (pc0 : Word) : Target → Word
  | .label a => a
  | .missing _ => pc0
  | .raw n => u32 n

end Sys2Proof.Machine
end

