-- ==== Sys2Proof/Machine/ArithLogic.lean ====
section
/-! DEFINITION. Arithmetic, logical, comparison and immediate instructions (40_arith_logic.md). -/

namespace Sys2Proof.Machine

/-- Format R3 (R130): read `rs`, then `rt`, write `rd`, go on to the next slot. -/
def binary (f : Word → Word → Word) (rd rs rt : RegOp) (s : State) : Result :=
  .next ((((s.noteReg rs).noteReg rt).writeReg rd (f (s.readReg rs) (s.readReg rt))).advance)

/-- Format I3 (R130): resolve the immediate, read `rs`, write `rt`, go on to the next slot. -/
def immediate (field : ImmField) (f : Word → Word → Word) (rt rs : RegOp) (imm : ValOp) (s : State) : Result :=
  (s.immValue field imm).andThen fun v =>
    .next (((s.noteReg rs).writeReg rt (f (s.readReg rs) v)).advance)

/-- `add` (R131): wraps, no overflow trap. -/
def execAdd (rd rs rt : RegOp) (s : State) : Result := binary (fun a b => a + b) rd rs rt s

/-- `addu` (R132). -/
def execAddu (rd rs rt : RegOp) (s : State) : Result := binary (fun a b => a + b) rd rs rt s

/-- `sub` (R133): `rt` is the subtrahend. -/
def execSub (rd rs rt : RegOp) (s : State) : Result := binary (fun a b => a - b) rd rs rt s

/-- `subu` (R134). -/
def execSubu (rd rs rt : RegOp) (s : State) : Result := binary (fun a b => a - b) rd rs rt s

/-- `and` (R135). -/
def execAnd (rd rs rt : RegOp) (s : State) : Result := binary (fun a b => a &&& b) rd rs rt s

/-- `or` (R136). -/
def execOr (rd rs rt : RegOp) (s : State) : Result := binary (fun a b => a ||| b) rd rs rt s

/-- `xor` (R137). -/
def execXor (rd rs rt : RegOp) (s : State) : Result := binary (fun a b => a ^^^ b) rd rs rt s

/-- `nor` (R138). -/
def execNor (rd rs rt : RegOp) (s : State) : Result := binary (fun a b => ~~~(a ||| b)) rd rs rt s

/-- `slt` (R139). -/
def execSlt (rd rs rt : RegOp) (s : State) : Result := binary (fun a b => truthWord (signedLess a b)) rd rs rt s

/-- `sltu` (R140). -/
def execSltu (rd rs rt : RegOp) (s : State) : Result := binary (fun a b => truthWord (unsignedLess a b)) rd rs rt s

/-- `addi` (R141). -/
def execAddi (rt rs : RegOp) (imm : ValOp) (s : State) : Result := immediate .signed16 (fun a v => a + v) rt rs imm s

/-- `addiu` (R142): the immediate is sign-extended. -/
def execAddiu (rt rs : RegOp) (imm : ValOp) (s : State) : Result := immediate .signed16 (fun a v => a + v) rt rs imm s

/-- `andi` (R143). -/
def execAndi (rt rs : RegOp) (imm : ValOp) (s : State) : Result := immediate .logical16 (fun a v => a &&& v) rt rs imm s

/-- `ori` (R144). -/
def execOri (rt rs : RegOp) (imm : ValOp) (s : State) : Result := immediate .logical16 (fun a v => a ||| v) rt rs imm s

/-- `xori` (R145). -/
def execXori (rt rs : RegOp) (imm : ValOp) (s : State) : Result := immediate .logical16 (fun a v => a ^^^ v) rt rs imm s

/-- `slti` (R146): a signed comparison with the operand value (log entry 12 for `IMM_WIDE` other than `refuse`). -/
def execSlti (rt rs : RegOp) (imm : ValOp) (s : State) : Result :=
  immediate .signed16 (fun a v => truthWord (signedLess a v)) rt rs imm s

/-- `sltiu` (R147): the immediate is sign-extended, then compared unsigned. -/
def execSltiu (rt rs : RegOp) (imm : ValOp) (s : State) : Result :=
  immediate .signed16 (fun a v => truthWord (unsignedLess a v)) rt rs imm s

/-- `lui` (R148): `u32(n * 65536)`. -/
def execLui (rt : RegOp) (imm : ValOp) (s : State) : Result :=
  (s.immValue .logical16 imm).andThen fun v => .next ((s.writeReg rt (v <<< 16)).advance)

end Sys2Proof.Machine
end

