-- ==== Sys2Proof/Machine/Branch.lean ====
section
/-! DEFINITION. Conditional branches (44_branch.md). -/

namespace Sys2Proof.Machine

/-- `if cond then pc <- BranchTarget(target) else pc <- u32(pc0 + 4)` (R200, R201). The target is resolved only when the
branch is taken (93_implementation_defined.md U8; log entry 9). -/
def branch (taken : Bool) (target : ValOp) (s : State) : Result :=
  if taken then
    (s.resolveTarget target).andThen fun t => .next ((s.noteTarget t).goTo (branchAddress s.pc t))
  else .next s.advance

/-- Format B3. An invalid designator is refused (R202). -/
def branch2 (cond : Word → Word → Bool) (rs rt : RegOp) (target : ValOp) (s : State) : Result :=
  match rs, rt with
  | .valid i, .valid j => branch (cond (s.x i) (s.x j)) target s
  | .valid _, .invalid _ => .refused .invalidRegisterInControlTransfer
  | .invalid _, _ => .refused .invalidRegisterInControlTransfer

/-- Format B2. An invalid designator is refused (R202). -/
def branch1 (cond : Word → Bool) (rs : RegOp) (target : ValOp) (s : State) : Result :=
  match rs with
  | .valid i => branch (cond (s.x i)) target s
  | .invalid _ => .refused .invalidRegisterInControlTransfer

/-- `beq` (R203). -/
def execBeq (rs rt : RegOp) (target : ValOp) (s : State) : Result := branch2 condEq rs rt target s

/-- `bne` (R204). -/
def execBne (rs rt : RegOp) (target : ValOp) (s : State) : Result := branch2 condNe rs rt target s

/-- `blt` (R205). -/
def execBlt (rs rt : RegOp) (target : ValOp) (s : State) : Result := branch2 condLt rs rt target s

/-- `ble` (R206). -/
def execBle (rs rt : RegOp) (target : ValOp) (s : State) : Result := branch2 condLe rs rt target s

/-- `bgt` (R207). -/
def execBgt (rs rt : RegOp) (target : ValOp) (s : State) : Result := branch2 condGt rs rt target s

/-- `bge` (R208). -/
def execBge (rs rt : RegOp) (target : ValOp) (s : State) : Result := branch2 condGe rs rt target s

/-- `bltz` (R209). -/
def execBltz (rs : RegOp) (target : ValOp) (s : State) : Result := branch1 condLtz rs target s

/-- `blez` (R210). -/
def execBlez (rs : RegOp) (target : ValOp) (s : State) : Result := branch1 condLez rs target s

/-- `bgtz` (R211). -/
def execBgtz (rs : RegOp) (target : ValOp) (s : State) : Result := branch1 condGtz rs target s

/-- `bgez` (R212). -/
def execBgez (rs : RegOp) (target : ValOp) (s : State) : Result := branch1 condGez rs target s

end Sys2Proof.Machine
end

