-- ==== Sys2Proof/Machine/Jump.lean ====
section
/-! DEFINITION. Jumps, call and return (45_jump.md). -/

namespace Sys2Proof.Machine

/-- `pc <- JumpTarget(target)` (R221), from the state `t` that holds what the jump writes besides. -/
def jumpTo (target : ValOp) (s t : State) : Result :=
  (s.resolveTarget target).andThen fun g => .next ((t.noteTarget g).goTo (jumpAddress s.pc g))

/-- `j` (R222). -/
def execJ (target : ValOp) (s : State) : Result := jumpTo target s s

/-- `jal` (R223): the link `u32(pc0 + 4)` goes to register 31. -/
def execJal (target : ValOp) (s : State) : Result := jumpTo target s (s.setX 31 s.nextSlot)

/-- `jr` (R224). An invalid designator is refused (R226). -/
def execJr (rs : RegOp) (s : State) : Result :=
  match rs with
  | .valid i => .next (s.goTo (s.x i))
  | .invalid _ => .refused .invalidRegisterInControlTransfer

end Sys2Proof.Machine
end

