-- ==== Sys2Proof/Machine/LoadStore.lean ====
section
/-! DEFINITION. Load and store instructions (43_loadstore.md). -/

namespace Sys2Proof.Machine

/-- A load (R180 to R182): compute the address, write `rt` with what `get` reads there, go on to the next slot. -/
def load (get : State → Word → Word) (rt : RegOp) (off : Option ValOp) (base : RegOp) (s : State) : Result :=
  (s.effAddr off base).andThen fun a => .next (((s.noteReg base).writeReg rt (get s a)).advance)

/-- A store (R180, R181, R187): compute the address, `put` the value of `rt` there, go on to the next slot. -/
def store (put : State → Word → Word → State) (rt : RegOp) (off : Option ValOp) (base : RegOp) (s : State) : Result :=
  (s.effAddr off base).andThen fun a => .next ((put ((s.noteReg base).noteReg rt) a (s.readReg rt)).advance)

/-- `lw` (R182). -/
def execLw (rt : RegOp) (off : Option ValOp) (base : RegOp) (s : State) : Result :=
  load (fun s a => s.readWord a) rt off base s

/-- `lh` (R183): sign-extended. -/
def execLh (rt : RegOp) (off : Option ValOp) (base : RegOp) (s : State) : Result :=
  load (fun s a => (s.readHalf a).signExtend 32) rt off base s

/-- `lhu` (R184): zero-extended. -/
def execLhu (rt : RegOp) (off : Option ValOp) (base : RegOp) (s : State) : Result :=
  load (fun s a => (s.readHalf a).setWidth 32) rt off base s

/-- `lb` (R185): sign-extended. -/
def execLb (rt : RegOp) (off : Option ValOp) (base : RegOp) (s : State) : Result :=
  load (fun s a => (s.readByte a).signExtend 32) rt off base s

/-- `lbu` (R186): zero-extended. -/
def execLbu (rt : RegOp) (off : Option ValOp) (base : RegOp) (s : State) : Result :=
  load (fun s a => (s.readByte a).setWidth 32) rt off base s

/-- `sw` (R187). -/
def execSw (rt : RegOp) (off : Option ValOp) (base : RegOp) (s : State) : Result :=
  store (fun s a v => s.writeWord a v) rt off base s

/-- `sh` (R188): bits 15..0. -/
def execSh (rt : RegOp) (off : Option ValOp) (base : RegOp) (s : State) : Result :=
  store (fun s a v => s.writeHalf a (v.setWidth 16)) rt off base s

/-- `sb` (R189): bits 7..0. -/
def execSb (rt : RegOp) (off : Option ValOp) (base : RegOp) (s : State) : Result :=
  store (fun s a v => s.writeByte a (v.setWidth 8)) rt off base s

end Sys2Proof.Machine
end

