-- ==== Sys2Proof/Machine/MulDiv.lean ====
section
/-! DEFINITION. Multiply, divide and the moves from HI and LO (41_muldiv.md). -/

namespace Sys2Proof.Machine

/-- The common part of R161 and R162: the 64-bit pattern of a product goes to `HI ++ LO`. -/
def multiply (product : Word → Word → BitVec 64) (rs rt : RegOp) (s : State) : Result :=
  let p := product (s.readReg rs) (s.readReg rt)
  .next ((((s.noteReg rs).noteReg rt).setHiLo (p.extractLsb' 32 32) (p.extractLsb' 0 32)).advance)

/-- `mult` (R161): the exact signed product modulo 2^64. -/
def execMult (rs rt : RegOp) (s : State) : Result := multiply (fun a b => BitVec.ofInt 64 (s32 a * s32 b)) rs rt s

/-- `multu` (R162): the exact unsigned product. -/
def execMultu (rs rt : RegOp) (s : State) : Result := multiply (fun a b => BitVec.ofNat 64 (a.toNat * b.toNat)) rs rt s

/-- `DIV_OVERFLOW` (R163): its default is the fault. A setting `result hi lo` is an explicit hypothesis (log entry 11). -/
def divideOverflow (s : State) : Result :=
  match s.cfg.divOverflow with
  | .fault => .fault .divideOverflow
  | .result hi lo => .next ((s.setHiLo hi lo).advance)

/-- `div` (R163): zero divisor leaves HI and LO; the quotient truncates toward zero. -/
def execDiv (rs rt : RegOp) (s : State) : Result :=
  let a := s32 (s.readReg rs)
  let b := s32 (s.readReg rt)
  let t := (s.noteReg rs).noteReg rt
  if b = 0 then .next t.advance
  else if a = -(2 ^ 31) ∧ b = -1 then divideOverflow t
  else .next ((t.setHiLo (u32 (a - a.tdiv b * b)) (u32 (a.tdiv b))).advance)

/-- `divu` (R164). -/
def execDivu (rs rt : RegOp) (s : State) : Result :=
  let a := (s.readReg rs).toNat
  let b := (s.readReg rt).toNat
  let t := (s.noteReg rs).noteReg rt
  if b = 0 then .next t.advance
  else .next ((t.setHiLo (BitVec.ofNat 32 (a % b)) (BitVec.ofNat 32 (a / b))).advance)

/-- `mfhi` (R165). -/
def execMfhi (rd : RegOp) (s : State) : Result := .next ((s.writeReg rd s.hi).advance)

/-- `mflo` (R166). -/
def execMflo (rd : RegOp) (s : State) : Result := .next ((s.writeReg rd s.lo).advance)

end Sys2Proof.Machine
end

