-- ==== Sys2Proof/Machine/Pseudo.lean ====
section
/-! DEFINITION. Pseudo-instructions, each one slot and one step (46_pseudo.md). -/

namespace Sys2Proof.Machine

/-- The value of `li` (R231): the direct path for a 16-bit signed immediate, else the upper/lower combination. -/
def liValue (n : Int) : Word :=
  if -32768 ≤ n ∧ n ≤ 32767 then u32 n
  else
    let upper := ((u32 n).extractLsb' 16 16).setWidth 32
    let lower := ((u32 n).extractLsb' 0 16).setWidth 32
    (upper <<< 16) ||| lower

/-- `li` (R231). `IMM_WIDE` does not apply. -/
def execLi (rd : RegOp) (imm : ValOp) (s : State) : Result :=
  (s.resolveImm imm).andThen fun n => .next ((s.writeReg rd (liValue n)).advance)

/-- `la` (R232). -/
def execLa (rd : RegOp) (target : ValOp) (s : State) : Result :=
  (s.resolveTarget target).andThen fun t =>
    .next (((s.noteTarget t).writeReg rd (loadedAddress s.pc t)).advance)

/-- `move` (R233). -/
def execMove (rd rs : RegOp) (s : State) : Result :=
  .next (((s.noteReg rs).writeReg rd (s.readReg rs)).advance)

/-- `clear` (R234). -/
def execClear (rd : RegOp) (s : State) : Result := .next ((s.writeReg rd 0#32).advance)

/-- `not` (R235): the bitwise complement. -/
def execNot (rd rs : RegOp) (s : State) : Result :=
  .next (((s.noteReg rs).writeReg rd (~~~(s.readReg rs))).advance)

end Sys2Proof.Machine
end

