-- ==== Sys2Proof/Machine/Shift.lean ====
section
/-! DEFINITION. Shift instructions (42_shift.md). -/

namespace Sys2Proof.Machine

/-- Format SH (R170): resolve the amount, read `rt`, write `rd`, go on to the next slot. -/
def shift (f : Word → Nat → Word) (rd rt : RegOp) (shamt : ValOp) (s : State) : Result :=
  (s.immValue .shamt shamt).andThen fun v =>
    .next (((s.noteReg rt).writeReg rd (f (s.readReg rt) v.toNat)).advance)

/-- `sll` (R171). -/
def execSll (rd rt : RegOp) (shamt : ValOp) (s : State) : Result := shift (fun a n => a <<< n) rd rt shamt s

/-- `srl` (R172): zeros enter at bit 31. -/
def execSrl (rd rt : RegOp) (shamt : ValOp) (s : State) : Result := shift (fun a n => a >>> n) rd rt shamt s

/-- `sra` (R173): copies of bit 31 enter. -/
def execSra (rd rt : RegOp) (shamt : ValOp) (s : State) : Result := shift (fun a n => a.sshiftRight n) rd rt shamt s

end Sys2Proof.Machine
end

