-- ==== Sys2Proof/Machine/Tokens.lean ====
section
/-! DEFINITION. Tokens read as register designators and as numbers, and written back
(10_state.md R23, R24; 30_encoding.md R87, R88). -/

namespace Sys2Proof

/-- The value of a digit character in the given base (10 or 16, either case of a to f). -/
def digitValue (base : Nat) (c : Char) : Option Nat :=
  let v :=
    if '0'.toNat ≤ c.toNat ∧ c.toNat ≤ '9'.toNat then c.toNat - '0'.toNat
    else if 'a'.toNat ≤ c.toNat ∧ c.toNat ≤ 'f'.toNat then c.toNat - 'a'.toNat + 10
    else if 'A'.toNat ≤ c.toNat ∧ c.toNat ≤ 'F'.toNat then c.toNat - 'A'.toNat + 10
    else base
  if v < base then some v else none

/-- The numeral read so far is `acc`; read on to the end. -/
def numeralFrom (base : Nat) : Nat → List Char → Option Nat
  | acc, [] => some acc
  | acc, c :: cs =>
    match digitValue base c with
    | some d => numeralFrom base (acc * base + d) cs
    | none => none

/-- `[0-9]+` or `[0-9a-fA-F]+` as a natural number; `none` for any other text. -/
def numeral (base : Nat) : List Char → Option Nat
  | [] => none
  | c :: cs => numeralFrom base 0 (c :: cs)

/-- `-?[0-9]+` (30_encoding.md R87; 10_state.md R24(b)). -/
def decimal? : Token → Option Int
  | '-' :: cs => (numeral 10 cs).map fun (n : Nat) => -(n : Int)
  | cs => (numeral 10 cs).map fun (n : Nat) => (n : Int)

/-- `0[xX][0-9a-fA-F]+` (30_encoding.md R87). -/
def hex? : Token → Option Int
  | '0' :: 'x' :: cs => (numeral 16 cs).map fun (n : Nat) => (n : Int)
  | '0' :: 'X' :: cs => (numeral 16 cs).map fun (n : Nat) => (n : Int)
  | _ => none

/-- Num shape of 30_encoding.md R87. -/
def isNumShape (tok : Token) : Bool :=
  (decimal? tok).isSome || (hex? tok).isSome

/-- A token in an immediate or target position: R87's Num and Sym, with R88's ranges. -/
def valueOf (tok : Token) : ValOp :=
  match decimal? tok with
  | some n => if -(2 ^ 31) ≤ n ∧ n ≤ 2 ^ 31 - 1 then .num n else .wide tok
  | none =>
    match hex? tok with
    | some n => if n ≤ 2 ^ 32 - 1 then .num n else .wide tok
    | none => .sym tok

/-- The name table of 10_state.md R23 in index order, without the `$`. -/
def regNames : List Token :=
  ["zero".toList, "at".toList, "v0".toList, "v1".toList, "a0".toList, "a1".toList, "a2".toList, "a3".toList] ++
  ["t0".toList, "t1".toList, "t2".toList, "t3".toList, "t4".toList, "t5".toList, "t6".toList, "t7".toList] ++
  ["s0".toList, "s1".toList, "s2".toList, "s3".toList, "s4".toList, "s5".toList, "s6".toList, "s7".toList] ++
  ["t8".toList, "t9".toList, "k0".toList, "k1".toList, "gp".toList, "sp".toList, "fp".toList, "ra".toList]

/-- The name of register `i`, without the `$`. -/
def regName (i : Fin 32) : Token := regNames.getD i.val []

/-- The register whose name (without the `$`) is `tok`. -/
def regIndex (tok : Token) : Option (Fin 32) :=
  (List.finRange 32).find? fun i => regName i == tok

/-- `RegResolve` of 10_state.md R24. `none` is the unsettled case (c), which the instruction is refused for.
`$` before a decimal with a sign is counted as case (c) too (log entry 17). -/
def regResolve (tok : Token) : Option RegOp :=
  match decimal? tok with
  | some n =>
    if h : 0 ≤ n ∧ n ≤ 31 then some (.valid ⟨n.toNat, by omega⟩) else some (.invalid tok)
  | none =>
    match tok with
    | '$' :: name =>
      if (decimal? name).isSome then none
      else
        match regIndex name with
        | some i => some (.valid i)
        | none => some (.invalid tok)
    | _ => if (regIndex tok).isSome then none else some (.invalid tok)

/-! Writing numbers and registers as tokens, for the encoder and for `Dec` of 47_system.md R243. -/

/-- The character of a digit below 16. -/
def digitChar (d : Nat) : Char :=
  if d < 10 then Char.ofNat ('0'.toNat + d) else Char.ofNat ('a'.toNat + (d - 10))

/-- The numeral of `n` in the given base, most significant digit first, without leading zeros. -/
def numeralDigits (base : Nat) : (fuel : Nat) → Nat → List Char
  | 0, n => [digitChar (n % base)]
  | fuel + 1, n => if n < base then [digitChar n] else numeralDigits base fuel (n / base) ++ [digitChar (n % base)]

/-- The numeral of `n`: a number has at most as many digits as its value plus one. -/
def natNumeral (base n : Nat) : List Char := numeralDigits base n n

/-- `Dec(n)` of 47_system.md R243: `-` if negative, then the digits of `|n|`, `0` for zero. -/
def decNumeral (n : Int) : Token :=
  if n < 0 then '-' :: natNumeral 10 n.natAbs else natNumeral 10 n.natAbs

/-- The token the encoder writes for a register position: `$name`, or the invalid token itself. -/
def regToken : RegOp → Token
  | .valid i => '$' :: regName i
  | .invalid tok => tok

/-- The token the encoder writes for an immediate or target: decimal where R88 reads one, hexadecimal above it. -/
def valueToken : ValOp → Token
  | .num n => if n ≤ 2 ^ 31 - 1 then decNumeral n else '0' :: 'x' :: natNumeral 16 n.toNat
  | .wide tok => tok
  | .sym name => name

end Sys2Proof
end

