-- ==== Sys2Proof/Machine/System.lean ====
section
/-! DEFINITION. The system call with its services, and no-operation (47_system.md). -/

namespace Sys2Proof.Machine

/-- A console read the console has not answered yet: the engine changes no state and the step is tried again (R246). -/
def blocked (s : State) : Result := .next s

/-- Service 1, print integer (R243). -/
def servicePrintInt (s : State) : Result :=
  .next ((s.emit (asciiBytes (decNumeral (s32 (s.x 4))))).advance)

/-- The bytes from `a` up to the first zero byte, within `fuel` reads (R244). -/
def stringBytes (s : State) : (fuel : Nat) → Word → Option (List Byte)
  | 0, _ => none
  | fuel + 1, a =>
    if s.readByte a = 0#8 then some []
    else (stringBytes s fuel (a + 1#32)).map fun bs => s.readByte a :: bs

/-- Service 4, print string (R244). Only listed cells are non-zero, so the scan ends within one read more than there
are cells, unless all 2^32 bytes are non-zero, when it never ends (log entry 20). -/
def servicePrintString (s : State) : Result :=
  match stringBytes s (s.mem.length + 1) (s.x 4) with
  | some bs => .next ((s.emit bs).advance)
  | none => .fault .endlessString

/-- Service 5, read integer (R245). -/
def serviceReadInt (s : State) : Result :=
  match s.conIn.ints with
  | [] => blocked s
  | .value v :: _ => .next ((s.dropInt.setX 2 v).advance)
  | .endOfInput :: _ => .fault .consoleEndOfInput
  | .malformed :: _ => .fault .consoleMalformed

/-- Service 8, read string (R247): `k = min(|L|, maxLen - 1)` bytes of the line, then a zero byte. -/
def serviceReadString (s : State) : Result :=
  let maxLen := s32 (s.x 5)
  if maxLen < 1 then .fault .readStringLength
  else
    match s.conIn.lines with
    | [] => blocked s
    | .value line :: _ =>
      .next ((s.dropLine.writeBytes (s.x 4) (line.take (maxLen - 1).toNat ++ [0#8])).advance)
    | .endOfInput :: _ => .fault .consoleEndOfInput

/-- Service 9, allocate (R248). -/
def serviceAllocate (s : State) : Result :=
  .next (((s.setHeapPtr (s.heapPtr + s.x 4)).setX 2 s.heapPtr).advance)

/-- Service 10, exit (R249). -/
def serviceExit (s : State) : Result := .next s.exit

/-- Service 11, print character (R250). -/
def servicePrintChar (s : State) : Result := .next ((s.emit [(s.x 4).setWidth 8]).advance)

/-- Service 12, read character (R251). -/
def serviceReadChar (s : State) : Result :=
  match s.conIn.chars with
  | [] => blocked s
  | .value c :: _ => .next ((s.dropChar.setX 2 (c.setWidth 32)).advance)
  | .endOfInput :: _ => .fault .consoleEndOfInput

/-- Any other number (R252, R253): E3 `UnsupportedSyscall`, and the PC advances. -/
def serviceUnsupported (s : State) : Result := .next ((s.log (.unsupportedSyscall (s.x 2))).advance)

/-- `syscall` (R240, R241): dispatch on `$v0` as a 32-bit pattern. -/
def execSyscall (s : State) : Result :=
  let num := s.x 2
  if num = 1#32 then servicePrintInt s
  else if num = 4#32 then servicePrintString s
  else if num = 5#32 then serviceReadInt s
  else if num = 8#32 then serviceReadString s
  else if num = 9#32 then serviceAllocate s
  else if num = 10#32 then serviceExit s
  else if num = 11#32 then servicePrintChar s
  else if num = 12#32 then serviceReadChar s
  else serviceUnsupported s

/-- `nop` (R254). -/
def execNop (s : State) : Result := .next s.advance

end Sys2Proof.Machine
end

