-- ==== Sys2Proof/Machine/Dispatch.lean ====
section
/-! DEFINITION. The evaluators' dispatch: one arm per instruction (30_encoding.md R83). -/

namespace Sys2Proof.Machine

def exec (i : Instr) (s : State) : Host.Outcome State Fault Refusal :=
  match i with
  | .add rd rs rt => Sys2Proof.Machine.execAdd rd rs rt s
  | .addu rd rs rt => Sys2Proof.Machine.execAddu rd rs rt s
  | .sub rd rs rt => Sys2Proof.Machine.execSub rd rs rt s
  | .subu rd rs rt => Sys2Proof.Machine.execSubu rd rs rt s
  | .and rd rs rt => Sys2Proof.Machine.execAnd rd rs rt s
  | .or rd rs rt => Sys2Proof.Machine.execOr rd rs rt s
  | .xor rd rs rt => Sys2Proof.Machine.execXor rd rs rt s
  | .nor rd rs rt => Sys2Proof.Machine.execNor rd rs rt s
  | .slt rd rs rt => Sys2Proof.Machine.execSlt rd rs rt s
  | .sltu rd rs rt => Sys2Proof.Machine.execSltu rd rs rt s
  | .addi rt rs imm => Sys2Proof.Machine.execAddi rt rs imm s
  | .addiu rt rs imm => Sys2Proof.Machine.execAddiu rt rs imm s
  | .andi rt rs imm => Sys2Proof.Machine.execAndi rt rs imm s
  | .ori rt rs imm => Sys2Proof.Machine.execOri rt rs imm s
  | .xori rt rs imm => Sys2Proof.Machine.execXori rt rs imm s
  | .slti rt rs imm => Sys2Proof.Machine.execSlti rt rs imm s
  | .sltiu rt rs imm => Sys2Proof.Machine.execSltiu rt rs imm s
  | .lui rt imm => Sys2Proof.Machine.execLui rt imm s
  | .mult rs rt => Sys2Proof.Machine.execMult rs rt s
  | .multu rs rt => Sys2Proof.Machine.execMultu rs rt s
  | .div rs rt => Sys2Proof.Machine.execDiv rs rt s
  | .divu rs rt => Sys2Proof.Machine.execDivu rs rt s
  | .mfhi rd => Sys2Proof.Machine.execMfhi rd s
  | .mflo rd => Sys2Proof.Machine.execMflo rd s
  | .sll rd rt shamt => Sys2Proof.Machine.execSll rd rt shamt s
  | .srl rd rt shamt => Sys2Proof.Machine.execSrl rd rt shamt s
  | .sra rd rt shamt => Sys2Proof.Machine.execSra rd rt shamt s
  | .lw rt off base => Sys2Proof.Machine.execLw rt off base s
  | .lh rt off base => Sys2Proof.Machine.execLh rt off base s
  | .lhu rt off base => Sys2Proof.Machine.execLhu rt off base s
  | .lb rt off base => Sys2Proof.Machine.execLb rt off base s
  | .lbu rt off base => Sys2Proof.Machine.execLbu rt off base s
  | .sw rt off base => Sys2Proof.Machine.execSw rt off base s
  | .sh rt off base => Sys2Proof.Machine.execSh rt off base s
  | .sb rt off base => Sys2Proof.Machine.execSb rt off base s
  | .beq rs rt target => Sys2Proof.Machine.execBeq rs rt target s
  | .bne rs rt target => Sys2Proof.Machine.execBne rs rt target s
  | .blt rs rt target => Sys2Proof.Machine.execBlt rs rt target s
  | .ble rs rt target => Sys2Proof.Machine.execBle rs rt target s
  | .bgt rs rt target => Sys2Proof.Machine.execBgt rs rt target s
  | .bge rs rt target => Sys2Proof.Machine.execBge rs rt target s
  | .bltz rs target => Sys2Proof.Machine.execBltz rs target s
  | .blez rs target => Sys2Proof.Machine.execBlez rs target s
  | .bgtz rs target => Sys2Proof.Machine.execBgtz rs target s
  | .bgez rs target => Sys2Proof.Machine.execBgez rs target s
  | .j target => Sys2Proof.Machine.execJ target s
  | .jal target => Sys2Proof.Machine.execJal target s
  | .jr rs => Sys2Proof.Machine.execJr rs s
  | .li rd imm => Sys2Proof.Machine.execLi rd imm s
  | .la rd target => Sys2Proof.Machine.execLa rd target s
  | .move rd rs => Sys2Proof.Machine.execMove rd rs s
  | .clear rd => Sys2Proof.Machine.execClear rd s
  | .not rd rs => Sys2Proof.Machine.execNot rd rs s
  | .syscall => Sys2Proof.Machine.execSyscall s
  | .nop => Sys2Proof.Machine.execNop s

end Sys2Proof.Machine
end

