-- ==== Sys2Proof/WellFormed.lean ====
section
/-! DEFINITION. The instructions that are the reading of some token list (30_encoding.md R85 to R92). -/

namespace Sys2Proof

/-- What R92 asks of an operand token, whatever its position: no unmatched `(` is left in it. -/
def tokenClosed (tok : Token) : Bool := !tok.contains '('

/-- A register position is a register, or a closed token that `RegResolve` finds invalid (10_state.md R24). -/
def RegOp.wf : RegOp → Bool
  | .valid _ => true
  | .invalid tok => tokenClosed tok && regResolve tok == some (.invalid tok)

/-- A value position is an integer in R88's ranges, a Num token outside them, or a Sym token. -/
def ValOp.wf : ValOp → Bool
  | .num n => decide (-(2 ^ 31) ≤ n) && decide (n ≤ 2 ^ 32 - 1)
  | .wide tok => tokenClosed tok && valueOf tok == .wide tok
  | .sym name => tokenClosed name && valueOf name == .sym name

/-- Well-formed: every operand is. -/
def Instr.wf : Instr → Bool
  | .add rd rs rt => rd.wf && rs.wf && rt.wf
  | .addu rd rs rt => rd.wf && rs.wf && rt.wf
  | .sub rd rs rt => rd.wf && rs.wf && rt.wf
  | .subu rd rs rt => rd.wf && rs.wf && rt.wf
  | .and rd rs rt => rd.wf && rs.wf && rt.wf
  | .or rd rs rt => rd.wf && rs.wf && rt.wf
  | .xor rd rs rt => rd.wf && rs.wf && rt.wf
  | .nor rd rs rt => rd.wf && rs.wf && rt.wf
  | .slt rd rs rt => rd.wf && rs.wf && rt.wf
  | .sltu rd rs rt => rd.wf && rs.wf && rt.wf
  | .addi rt rs imm => rt.wf && rs.wf && imm.wf
  | .addiu rt rs imm => rt.wf && rs.wf && imm.wf
  | .andi rt rs imm => rt.wf && rs.wf && imm.wf
  | .ori rt rs imm => rt.wf && rs.wf && imm.wf
  | .xori rt rs imm => rt.wf && rs.wf && imm.wf
  | .slti rt rs imm => rt.wf && rs.wf && imm.wf
  | .sltiu rt rs imm => rt.wf && rs.wf && imm.wf
  | .lui rt imm => rt.wf && imm.wf
  | .mult rs rt => rs.wf && rt.wf
  | .multu rs rt => rs.wf && rt.wf
  | .div rs rt => rs.wf && rt.wf
  | .divu rs rt => rs.wf && rt.wf
  | .mfhi rd => rd.wf
  | .mflo rd => rd.wf
  | .sll rd rt shamt => rd.wf && rt.wf && shamt.wf
  | .srl rd rt shamt => rd.wf && rt.wf && shamt.wf
  | .sra rd rt shamt => rd.wf && rt.wf && shamt.wf
  | .lw rt off base => rt.wf && off.all ValOp.wf && base.wf
  | .lh rt off base => rt.wf && off.all ValOp.wf && base.wf
  | .lhu rt off base => rt.wf && off.all ValOp.wf && base.wf
  | .lb rt off base => rt.wf && off.all ValOp.wf && base.wf
  | .lbu rt off base => rt.wf && off.all ValOp.wf && base.wf
  | .sw rt off base => rt.wf && off.all ValOp.wf && base.wf
  | .sh rt off base => rt.wf && off.all ValOp.wf && base.wf
  | .sb rt off base => rt.wf && off.all ValOp.wf && base.wf
  | .beq rs rt target => rs.wf && rt.wf && target.wf
  | .bne rs rt target => rs.wf && rt.wf && target.wf
  | .blt rs rt target => rs.wf && rt.wf && target.wf
  | .ble rs rt target => rs.wf && rt.wf && target.wf
  | .bgt rs rt target => rs.wf && rt.wf && target.wf
  | .bge rs rt target => rs.wf && rt.wf && target.wf
  | .bltz rs target => rs.wf && target.wf
  | .blez rs target => rs.wf && target.wf
  | .bgtz rs target => rs.wf && target.wf
  | .bgez rs target => rs.wf && target.wf
  | .j target => target.wf
  | .jal target => target.wf
  | .jr rs => rs.wf
  | .li rd imm => rd.wf && imm.wf
  | .la rd target => rd.wf && target.wf
  | .move rd rs => rd.wf && rs.wf
  | .clear rd => rd.wf
  | .not rd rs => rd.wf && rs.wf
  | .syscall => true
  | .nop => true

end Sys2Proof
end

