-- ==== Sys2Proof/Decode.lean ====
section
/-! DEFINITION. Tokenization, dispatch and decode of instruction slots, and the encoder
(30_encoding.md R80 to R96). A slot is a token list; there is no binary instruction word (R6, R112). -/

namespace Sys2Proof

/-! Tokenization (R81, R82). -/

/-- R81 step 1: spaces, tabs and commas separate pieces. -/
def isSeparator (c : Char) : Bool := c == ' ' || c == '\t' || c == ','

/-- R81 steps 1 and 2: the non-empty pieces of a line; `cur` is the piece being read. -/
def piecesFrom (cur : Token) : List Char → List Token
  | [] => if cur.isEmpty then [] else [cur]
  | c :: cs =>
    if isSeparator c then (if cur.isEmpty then piecesFrom [] cs else cur :: piecesFrom [] cs)
    else piecesFrom (cur ++ [c]) cs

/-- R82: `a(b)` becomes `a`, `b`, and `(b)` becomes `b`. A piece with no `)` after its `(` is left as it is:
the `(` in it makes the slot ill-formed (R92). -/
def splitParen (p : Token) : List Token :=
  let a := p.takeWhile (· != '(')
  let rest := (p.dropWhile (· != '(')).drop 1
  if p.contains '(' && rest.contains ')' then
    let b := rest.takeWhile (· != ')')
    if a.isEmpty then [b] else [a, b]
  else [p]

/-- The token list of a line (R81). -/
def tokenize (line : List Char) : List Token :=
  (piecesFrom [] line).flatMap splitParen

/-! The vocabulary (R84) and the formats (R85). -/

/-- The mnemonic of an opcode, matched exactly and in lower case (R94). -/
def Kind.spelling : Kind → Token
  | .add => "add".toList
  | .addu => "addu".toList
  | .sub => "sub".toList
  | .subu => "subu".toList
  | .and => "and".toList
  | .or => "or".toList
  | .xor => "xor".toList
  | .nor => "nor".toList
  | .slt => "slt".toList
  | .sltu => "sltu".toList
  | .addi => "addi".toList
  | .addiu => "addiu".toList
  | .andi => "andi".toList
  | .ori => "ori".toList
  | .xori => "xori".toList
  | .slti => "slti".toList
  | .sltiu => "sltiu".toList
  | .lui => "lui".toList
  | .mult => "mult".toList
  | .multu => "multu".toList
  | .div => "div".toList
  | .divu => "divu".toList
  | .mfhi => "mfhi".toList
  | .mflo => "mflo".toList
  | .sll => "sll".toList
  | .srl => "srl".toList
  | .sra => "sra".toList
  | .lw => "lw".toList
  | .lh => "lh".toList
  | .lhu => "lhu".toList
  | .lb => "lb".toList
  | .lbu => "lbu".toList
  | .sw => "sw".toList
  | .sh => "sh".toList
  | .sb => "sb".toList
  | .beq => "beq".toList
  | .bne => "bne".toList
  | .blt => "blt".toList
  | .ble => "ble".toList
  | .bgt => "bgt".toList
  | .bge => "bge".toList
  | .bltz => "bltz".toList
  | .blez => "blez".toList
  | .bgtz => "bgtz".toList
  | .bgez => "bgez".toList
  | .j => "j".toList
  | .jal => "jal".toList
  | .jr => "jr".toList
  | .li => "li".toList
  | .la => "la".toList
  | .move => "move".toList
  | .clear => "clear".toList
  | .not => "not".toList
  | .syscall => "syscall".toList
  | .nop => "nop".toList

/-- R84: named in the source (N) or admitted by the spec (C). -/
def Kind.tier : Kind → Tier
  | .add | .slt | .sltu | .slti | .mult | .multu | .div | .divu | .sll | .srl | .sra | .beq | .bne | .blt
  | .j | .jal | .li | .la | .move | .clear | .not | .syscall | .nop => .N
  | .addu | .sub | .subu | .and | .or | .xor | .nor | .addi | .addiu | .andi | .ori | .xori | .sltiu | .lui
  | .mfhi | .mflo | .lw | .lh | .lhu | .lb | .lbu | .sw | .sh | .sb | .ble | .bgt | .bge | .bltz | .blez
  | .bgtz | .bgez | .jr => .C

/-- R85's table of formats. -/
def Kind.format : Kind → Format
  | .add | .addu | .sub | .subu | .and | .or | .xor | .nor | .slt | .sltu => .R3
  | .addi | .addiu | .andi | .ori | .xori | .slti | .sltiu => .I3
  | .lui => .LU
  | .mult | .multu | .div | .divu => .MD
  | .mfhi | .mflo => .MF
  | .sll | .srl | .sra => .SH
  | .lw | .lh | .lhu | .lb | .lbu | .sw | .sh | .sb => .M
  | .beq | .bne | .blt | .ble | .bgt | .bge => .B3
  | .bltz | .blez | .bgtz | .bgez => .B2
  | .j | .jal => .J
  | .jr => .JR
  | .li => .PI
  | .la => .PA
  | .move | .not => .P2
  | .clear => .P1
  | .syscall | .nop => .N

/-- The opcodes of 40_arith_logic.md. -/
def arithLogicKinds : List Kind :=
  [.add, .addu, .sub, .subu, .and, .or, .xor, .nor, .slt, .sltu, .addi, .addiu, .andi, .ori, .xori, .slti,
   .sltiu, .lui]

/-- The opcodes of 41_muldiv.md. -/
def mulDivKinds : List Kind :=
  [.mult, .multu, .div, .divu, .mfhi, .mflo]

/-- The opcodes of 42_shift.md. -/
def shiftKinds : List Kind :=
  [.sll, .srl, .sra]

/-- The opcodes of 43_loadstore.md. -/
def loadStoreKinds : List Kind :=
  [.lw, .lh, .lhu, .lb, .lbu, .sw, .sh, .sb]

/-- The opcodes of 44_branch.md. -/
def branchKinds : List Kind :=
  [.beq, .bne, .blt, .ble, .bgt, .bge, .bltz, .blez, .bgtz, .bgez]

/-- The opcodes of 45_jump.md. -/
def jumpKinds : List Kind :=
  [.j, .jal, .jr]

/-- The opcodes of 46_pseudo.md. -/
def pseudoKinds : List Kind :=
  [.li, .la, .move, .clear, .not]

/-- The opcodes of 47_system.md. -/
def systemKinds : List Kind :=
  [.syscall, .nop]

/-- The 55 opcodes of R84, in the order of spec/opcode_table.json. -/
def vocabulary : List Kind :=
  arithLogicKinds ++ mulDivKinds ++ shiftKinds ++ loadStoreKinds ++
  branchKinds ++ jumpKinds ++ pseudoKinds ++ systemKinds

/-- R83's membership test. Under `ADMIT_TIER_C = false` every Tier C mnemonic is outside the vocabulary (R84). -/
def lookupKind (tierC : Bool) (t0 : Token) : Option Kind :=
  vocabulary.find? fun k => k.spelling == t0 && (tierC || k.tier == .N)

/-! Reading operand lists: `none` where the list does not fit (R92). -/

/-- No operands (format N). -/
def readNone (i : Instr) : List Token → Option Instr
  | [] => some i
  | _ => none

/-- One register. -/
def readR (mk : RegOp → Instr) : List Token → Option Instr
  | [a] => (regResolve a).map mk
  | _ => none

/-- Two registers. -/
def readRR (mk : RegOp → RegOp → Instr) : List Token → Option Instr
  | [a, b] => (regResolve a).bind fun x => (regResolve b).map fun y => mk x y
  | _ => none

/-- Three registers. -/
def readR3 (mk : RegOp → RegOp → RegOp → Instr) : List Token → Option Instr
  | [a, b, c] => (regResolve a).bind fun x => (regResolve b).bind fun y => (regResolve c).map fun z => mk x y z
  | _ => none

/-- An immediate or target alone. -/
def readV (mk : ValOp → Instr) : List Token → Option Instr
  | [v] => some (mk (valueOf v))
  | _ => none

/-- One register, then an immediate or target. -/
def readRV (mk : RegOp → ValOp → Instr) : List Token → Option Instr
  | [a, v] => (regResolve a).map fun x => mk x (valueOf v)
  | _ => none

/-- Two registers, then an immediate or target. -/
def readRRV (mk : RegOp → RegOp → ValOp → Instr) : List Token → Option Instr
  | [a, b, v] => (regResolve a).bind fun x => (regResolve b).map fun y => mk x y (valueOf v)
  | _ => none

/-- Format M: `rt off base` or `rt base`. -/
def readMem (mk : RegOp → Option ValOp → RegOp → Instr) : List Token → Option Instr
  | [a, b] => (regResolve a).bind fun x => (regResolve b).map fun y => mk x none y
  | [a, v, b] => (regResolve a).bind fun x => (regResolve b).map fun y => mk x (some (valueOf v)) y
  | _ => none

/-- The instruction of opcode `k` with the operand tokens `ops` (R85). -/
def Kind.read (k : Kind) (ops : List Token) : Option Instr :=
  match k with
  | .add => readR3 .add ops
  | .addu => readR3 .addu ops
  | .sub => readR3 .sub ops
  | .subu => readR3 .subu ops
  | .and => readR3 .and ops
  | .or => readR3 .or ops
  | .xor => readR3 .xor ops
  | .nor => readR3 .nor ops
  | .slt => readR3 .slt ops
  | .sltu => readR3 .sltu ops
  | .addi => readRRV .addi ops
  | .addiu => readRRV .addiu ops
  | .andi => readRRV .andi ops
  | .ori => readRRV .ori ops
  | .xori => readRRV .xori ops
  | .slti => readRRV .slti ops
  | .sltiu => readRRV .sltiu ops
  | .lui => readRV .lui ops
  | .mult => readRR .mult ops
  | .multu => readRR .multu ops
  | .div => readRR .div ops
  | .divu => readRR .divu ops
  | .mfhi => readR .mfhi ops
  | .mflo => readR .mflo ops
  | .sll => readRRV .sll ops
  | .srl => readRRV .srl ops
  | .sra => readRRV .sra ops
  | .lw => readMem .lw ops
  | .lh => readMem .lh ops
  | .lhu => readMem .lhu ops
  | .lb => readMem .lb ops
  | .lbu => readMem .lbu ops
  | .sw => readMem .sw ops
  | .sh => readMem .sh ops
  | .sb => readMem .sb ops
  | .beq => readRRV .beq ops
  | .bne => readRRV .bne ops
  | .blt => readRRV .blt ops
  | .ble => readRRV .ble ops
  | .bgt => readRRV .bgt ops
  | .bge => readRRV .bge ops
  | .bltz => readRV .bltz ops
  | .blez => readRV .blez ops
  | .bgtz => readRV .bgtz ops
  | .bgez => readRV .bgez ops
  | .j => readV .j ops
  | .jal => readV .jal ops
  | .jr => readR .jr ops
  | .li => readRV .li ops
  | .la => readRV .la ops
  | .move => readRR .move ops
  | .clear => readR .clear ops
  | .not => readRR .not ops
  | .syscall => readNone .syscall ops
  | .nop => readNone .nop ops

/-- What `Decode` of R83 answers for a token list. -/
inductive Decoded where
  /-- an instruction of the vocabulary with a fitting operand list -/
  | instr (i : Instr)
  /-- `T0` is not in the vocabulary (R93) -/
  | unknown (mnemonic : Token)
  /-- `T0` is in the vocabulary and the operand list does not fit (R92), or there is no `T0` -/
  | illFormed
deriving DecidableEq, Repr

/-- `Decode(T)` of R83: a function of the token list and the parameter `ADMIT_TIER_C` alone. -/
def decode (tierC : Bool) : List Token → Decoded
  | [] => .illFormed
  | t0 :: ops =>
    match lookupKind tierC t0 with
    | none => .unknown t0
    | some k =>
      if ops.all tokenClosed then
        match k.read ops with
        | some i => .instr i
        | none => .illFormed
      else .illFormed

/-! The encoder: the token list of an instruction. -/

/-- The opcode of an instruction. -/
def Instr.kind : Instr → Kind
  | .add _ _ _ => .add
  | .addu _ _ _ => .addu
  | .sub _ _ _ => .sub
  | .subu _ _ _ => .subu
  | .and _ _ _ => .and
  | .or _ _ _ => .or
  | .xor _ _ _ => .xor
  | .nor _ _ _ => .nor
  | .slt _ _ _ => .slt
  | .sltu _ _ _ => .sltu
  | .addi _ _ _ => .addi
  | .addiu _ _ _ => .addiu
  | .andi _ _ _ => .andi
  | .ori _ _ _ => .ori
  | .xori _ _ _ => .xori
  | .slti _ _ _ => .slti
  | .sltiu _ _ _ => .sltiu
  | .lui _ _ => .lui
  | .mult _ _ => .mult
  | .multu _ _ => .multu
  | .div _ _ => .div
  | .divu _ _ => .divu
  | .mfhi _ => .mfhi
  | .mflo _ => .mflo
  | .sll _ _ _ => .sll
  | .srl _ _ _ => .srl
  | .sra _ _ _ => .sra
  | .lw _ _ _ => .lw
  | .lh _ _ _ => .lh
  | .lhu _ _ _ => .lhu
  | .lb _ _ _ => .lb
  | .lbu _ _ _ => .lbu
  | .sw _ _ _ => .sw
  | .sh _ _ _ => .sh
  | .sb _ _ _ => .sb
  | .beq _ _ _ => .beq
  | .bne _ _ _ => .bne
  | .blt _ _ _ => .blt
  | .ble _ _ _ => .ble
  | .bgt _ _ _ => .bgt
  | .bge _ _ _ => .bge
  | .bltz _ _ => .bltz
  | .blez _ _ => .blez
  | .bgtz _ _ => .bgtz
  | .bgez _ _ => .bgez
  | .j _ => .j
  | .jal _ => .jal
  | .jr _ => .jr
  | .li _ _ => .li
  | .la _ _ => .la
  | .move _ _ => .move
  | .clear _ => .clear
  | .not _ _ => .not
  | .syscall => .syscall
  | .nop => .nop

/-- The operand tokens of an instruction in the order of its format (R85). -/
def Instr.operands : Instr → List Token
  | .add rd rs rt => [regToken rd, regToken rs, regToken rt]
  | .addu rd rs rt => [regToken rd, regToken rs, regToken rt]
  | .sub rd rs rt => [regToken rd, regToken rs, regToken rt]
  | .subu rd rs rt => [regToken rd, regToken rs, regToken rt]
  | .and rd rs rt => [regToken rd, regToken rs, regToken rt]
  | .or rd rs rt => [regToken rd, regToken rs, regToken rt]
  | .xor rd rs rt => [regToken rd, regToken rs, regToken rt]
  | .nor rd rs rt => [regToken rd, regToken rs, regToken rt]
  | .slt rd rs rt => [regToken rd, regToken rs, regToken rt]
  | .sltu rd rs rt => [regToken rd, regToken rs, regToken rt]
  | .addi rt rs imm => [regToken rt, regToken rs, valueToken imm]
  | .addiu rt rs imm => [regToken rt, regToken rs, valueToken imm]
  | .andi rt rs imm => [regToken rt, regToken rs, valueToken imm]
  | .ori rt rs imm => [regToken rt, regToken rs, valueToken imm]
  | .xori rt rs imm => [regToken rt, regToken rs, valueToken imm]
  | .slti rt rs imm => [regToken rt, regToken rs, valueToken imm]
  | .sltiu rt rs imm => [regToken rt, regToken rs, valueToken imm]
  | .lui rt imm => [regToken rt, valueToken imm]
  | .mult rs rt => [regToken rs, regToken rt]
  | .multu rs rt => [regToken rs, regToken rt]
  | .div rs rt => [regToken rs, regToken rt]
  | .divu rs rt => [regToken rs, regToken rt]
  | .mfhi rd => [regToken rd]
  | .mflo rd => [regToken rd]
  | .sll rd rt shamt => [regToken rd, regToken rt, valueToken shamt]
  | .srl rd rt shamt => [regToken rd, regToken rt, valueToken shamt]
  | .sra rd rt shamt => [regToken rd, regToken rt, valueToken shamt]
  | .lw rt off base => [regToken rt] ++ off.toList.map valueToken ++ [regToken base]
  | .lh rt off base => [regToken rt] ++ off.toList.map valueToken ++ [regToken base]
  | .lhu rt off base => [regToken rt] ++ off.toList.map valueToken ++ [regToken base]
  | .lb rt off base => [regToken rt] ++ off.toList.map valueToken ++ [regToken base]
  | .lbu rt off base => [regToken rt] ++ off.toList.map valueToken ++ [regToken base]
  | .sw rt off base => [regToken rt] ++ off.toList.map valueToken ++ [regToken base]
  | .sh rt off base => [regToken rt] ++ off.toList.map valueToken ++ [regToken base]
  | .sb rt off base => [regToken rt] ++ off.toList.map valueToken ++ [regToken base]
  | .beq rs rt target => [regToken rs, regToken rt, valueToken target]
  | .bne rs rt target => [regToken rs, regToken rt, valueToken target]
  | .blt rs rt target => [regToken rs, regToken rt, valueToken target]
  | .ble rs rt target => [regToken rs, regToken rt, valueToken target]
  | .bgt rs rt target => [regToken rs, regToken rt, valueToken target]
  | .bge rs rt target => [regToken rs, regToken rt, valueToken target]
  | .bltz rs target => [regToken rs, valueToken target]
  | .blez rs target => [regToken rs, valueToken target]
  | .bgtz rs target => [regToken rs, valueToken target]
  | .bgez rs target => [regToken rs, valueToken target]
  | .j target => [valueToken target]
  | .jal target => [valueToken target]
  | .jr rs => [regToken rs]
  | .li rd imm => [regToken rd, valueToken imm]
  | .la rd target => [regToken rd, valueToken target]
  | .move rd rs => [regToken rd, regToken rs]
  | .clear rd => [regToken rd]
  | .not rd rs => [regToken rd, regToken rs]
  | .syscall => []
  | .nop => []

/-- The token list of an instruction, spelled as log entry 25 says where R24 and R88 allow several spellings. -/
def encode (i : Instr) : List Token := i.kind.spelling :: i.operands

/-! The host's numbering of an instruction's bits (log entry 1): the bytes of the slot's line, in ASCII. -/

/-- The number of operand tokens a format holds. -/
def Format.arity : Format → Nat
  | .R3 | .SH | .I3 | .M | .B3 => 3
  | .MD | .LU | .B2 | .PI | .PA | .P2 => 2
  | .MF | .JR | .J | .P1 => 1
  | .N => 0

/-- The line whose characters are the bytes of `w`, first character lowest, ended by a zero byte or after `nbits`. -/
def lineOfBits (nbits w : Nat) : List Char :=
  ((List.range (nbits / 8)).map fun k => Char.ofNat (w / 256 ^ k % 256)).takeWhile (·.toNat != 0)

/-- A mnemonic alone gets the operand `0` in every position of its format: the operand words of zeros that the
host's numbering implies where spec/opcode_table.json gives operands no bits (log entry 1). -/
def withZeroOperands : List Token → List Token
  | [t0] =>
    match lookupKind true t0 with
    | some k => t0 :: List.replicate k.format.arity ['0']
    | none => [t0]
  | ts => ts

/-- The token list of the instruction whose bits are `w`. -/
def slotOfBits (nbits w : Nat) : List Token := withZeroOperands (tokenize (lineOfBits nbits w))

/-- The instruction the decoder reads from the instruction whose bits are `w` (under `ADMIT_TIER_C`'s default). -/
def decodeTableWord (nbits w : Nat) : Option Instr :=
  match decode true (slotOfBits nbits w) with
  | .instr i => some i
  | .unknown _ => none
  | .illFormed => none

end Sys2Proof
end

