-- ==== Sys2Proof/Machine/Fetch.lean ====
section
/-! DEFINITION. Instruction fetch, and placing a slot where the next fetch finds it
(10_state.md R29, R31, R37; 20_memory.md R60). -/

namespace Sys2Proof.Machine

/-- The number `i` with `a = TEXT_BASE + SLOT*i`, whether or not slot `i` is loaded (R37; 30_encoding.md R80). -/
def slotIndex (cfg : Config) (a : Word) : Option Nat :=
  let off := a.toNat - cfg.textBase.toNat
  if cfg.textBase.toNat ≤ a.toNat ∧ off % cfg.slot.value = 0 then some (off / cfg.slot.value) else none

/-- `Fetch(a)` (R37): the token list of the slot at `a`, or nothing. -/
def State.fetch (s : State) (a : Word) : Option (List Token) :=
  match slotIndex s.cfg a with
  | some i => s.slots[i]?
  | none => none

/-- A loaded engine, not halted, whose slot at `pc` holds `toks`. Where `pc` addresses a loaded slot, or the place right
after the last, the slot is put there. Otherwise the program becomes that one slot, with `pc` at it (log entry 2). -/
def State.placeSlot (s : State) (toks : List Token) : State :=
  let t : State := { s with eng := if s.eng = .halted then .ready else s.eng, phase := .loaded }
  match slotIndex s.cfg s.pc with
  | some i =>
    if i < s.slots.length then { t with slots := s.slots.set i toks }
    else if i = s.slots.length then { t with slots := s.slots ++ [toks] }
    else { t with slots := [toks], pc := s.cfg.textBase }
  | none => { t with slots := [toks], pc := s.cfg.textBase }

end Sys2Proof.Machine
end

