-- ==== Sys2Proof/Machine/Step.lean ====
section
/-! DEFINITION. One step of the engine: `stepOne()` (60_exceptions.md R281, R284). -/

namespace Sys2Proof.Machine

/-- `stepOne()` (R281): nothing if halted; refused after a failed load (R282); else fetch, decode, evaluate (R284).
A read the console has not answered leaves the state as it is (47_system.md R246). -/
def step (s : State) : Host.Outcome State Fault Refusal :=
  if s.eng = .halted then .next s
  else if s.phase = .failed then .refused .afterLoadError
  else
    match s.fetch s.pc with
    | none => .next s.noInstruction
    | some toks =>
      match decode s.cfg.admitTierC toks with
      | .instr i => exec i s
      | .unknown mnemonic => .next (s.unknownOpcode mnemonic)
      | .illFormed => .refused .illFormed

/-- `s` with the instruction whose bits are `w` where the next step fetches (log entries 1 and 2). -/
def State.withFetchWord (s : State) (nbits w : Nat) : State := s.placeSlot (slotOfBits nbits w)

end Sys2Proof.Machine
end

