-- ==== Sys2Proof/Machine/Loader.lean ====
section
/-! DEFINITION. The assembler-loader: what `load(sourceText)` leaves in `IS`, `LT` and `MEM`
(30_encoding.md R97 to R111, 60_exceptions.md R282). -/

namespace Sys2Proof.Machine

/-- The section a line belongs to (R98, R106). -/
inductive Sect where
  | text
  | data
deriving DecidableEq, Repr

/-- Source texts the spec gives no meaning (R97, R107, R109, R110; log entries 15, 19, 28, 29). All are safe. -/
inductive LoadRefusal where
  /-- the engine is not freshly reset (R107) -/
  | notFresh
  /-- a character above 7-bit ASCII, or a carriage return (R97) -/
  | notAsciiLines
  /-- a label name outside R109 -/
  | badLabelName
  /-- a second definition of a name (R109) -/
  | duplicateLabel
  /-- a data-section line that is no data directive (R110) -/
  | unknownDirective
  /-- `.space` with another number of arguments than one (log entry 15) -/
  | badArguments
  /-- a data-section token with `(` and no `)` (R82) -/
  | unmatchedParen
  /-- more slots than `IS_CAPACITY` or the PC's reach allow (R7; log entry 19) -/
  | tooManySlots
  /-- more labels than `LT_CAPACITY` allows (R7; log entry 19) -/
  | tooManyLabels
deriving DecidableEq, Repr

/-- The loader's own state, which exists only during `load` (10_state.md R40), with the three stores it fills. -/
structure Loader where
  sect : Sect
  cursor : Word
  slots : List (List Token)
  labels : List (Token × Word)
  mem : List Host.Cell
deriving DecidableEq, Repr

/-- A load step's answer: go on, a load error at a token (R105), or no meaning. -/
inductive Loading (α : Type) where
  | ok (a : α)
  | error (tok : Token)
  | refused (r : LoadRefusal)
deriving DecidableEq, Repr

/-- Go on with what was loaded so far, or stop. -/
def Loading.andThen {α β : Type} (l : Loading α) (k : α → Loading β) : Loading β :=
  match l with
  | .ok a => k a
  | .error tok => .error tok
  | .refused r => .refused r

/-- R106: text section, no instruction, the cursor at `DATA_BASE`. -/
def Loader.start (cfg : Config) : Loader where
  sect := .text
  cursor := cfg.dataBase
  slots := []
  labels := []
  mem := []

/-! Lines (R97). -/

/-- The lines of a text; `cur` is the line being read. -/
def linesFrom (cur : List Char) : List Char → List (List Char)
  | [] => [cur]
  | c :: cs => if c == '\n' then cur :: linesFrom [] cs else linesFrom (cur ++ [c]) cs

/-- White space that is trimmed around a line. -/
def isBlank (c : Char) : Bool := c == ' ' || c == '\t'

/-- Surrounding white space removed. -/
def trim (l : List Char) : List Char := ((l.dropWhile isBlank).reverse.dropWhile isBlank).reverse

/-- R97 step 1: the comment stripped, then the line trimmed. -/
def cleanLine (l : List Char) : List Char := trim (l.takeWhile (· != '#'))

/-- R97: 7-bit ASCII with LF line ends. -/
def isSourceChar (c : Char) : Bool := decide (c.toNat < 128) && c != '\r'

/-! Labels (R99, R109). -/

/-- A character that R109 allows in a label name. That vertical tab and form feed are white space in a name, beside
space, tab and LF, is the model's choice (log entry 32). -/
def isLabelChar (c : Char) : Bool :=
  !([' ', '\t', '\n', ',', '(', ')', '#', ':', '"'].contains c || c.toNat == 11 || c.toNat == 12)

/-- R109's condition on a name. -/
def isLabelName (name : Token) : Bool := !name.isEmpty && name.all isLabelChar && !isNumShape name

/-- The running address counter (R99): the cursor in the data section, else the next slot's address. -/
def Loader.here (cfg : Config) (l : Loader) : Word :=
  match l.sect with
  | .data => l.cursor
  | .text => cfg.textBase + BitVec.ofNat 32 (cfg.slot.value * l.slots.length)

/-- `LT[name] <- address` (R99). -/
def Loader.addLabel (cfg : Config) (l : Loader) (name : Token) : Loading Loader :=
  if !isLabelName name then .refused .badLabelName
  else if (labelLookup l.labels name).isSome then .refused .duplicateLabel
  else if cfg.ltCapacity.any (fun n => decide (n ≤ l.labels.length)) then .refused .tooManyLabels
  else .ok { l with labels := l.labels ++ [(name, l.here cfg)] }

/-! Text (R100). -/

/-- Append the line to the instruction stream. -/
def Loader.addSlot (cfg : Config) (l : Loader) (toks : List Token) : Loading Loader :=
  if cfg.slotLimit ≤ l.slots.length then .refused .tooManySlots
  else .ok { l with slots := l.slots ++ [toks] }

/-! Data directives (R101 to R105, R110). -/

/-- `LoadImm(tok)` (R105), with the label table as filled so far. -/
def Loader.loadImm (l : Loader) (tok : Token) : Loading Int :=
  match valueOf tok with
  | .num n => .ok n
  | .wide t => .error t
  | .sym name =>
    match labelLookup l.labels name with
    | some a => .ok (a.toNat : Int)
    | none => .error name

/-- Bytes stored at the cursor, which moves past them. -/
def Loader.put (l : Loader) (bytes : List Byte) : Loader :=
  { l with mem := memWriteBytes l.mem l.cursor bytes, cursor := l.cursor + BitVec.ofNat 32 bytes.length }

/-- The four bytes of a word, least significant first (20_memory.md R57). -/
def wordBytes (v : Word) : List Byte :=
  [v.extractLsb' 0 8, v.extractLsb' 8 8, v.extractLsb' 16 8, v.extractLsb' 24 8]

/-- `.word` (R101). -/
def Loader.words (l : Loader) : List Token → Loading Loader
  | [] => .ok l
  | tok :: toks => (l.loadImm tok).andThen fun n => (l.put (wordBytes (u32 n))).words toks

/-- `.byte` (R102): the low 8 bits of each value. -/
def Loader.bytes (l : Loader) : List Token → Loading Loader
  | [] => .ok l
  | tok :: toks => (l.loadImm tok).andThen fun n => (l.put [(u32 n).setWidth 8]).bytes toks

/-- `.space` (R104): the cursor moves without a write. -/
def Loader.space (l : Loader) : List Token → Loading Loader
  | [tok] => (l.loadImm tok).andThen fun n => .ok { l with cursor := l.cursor + u32 n }
  | _ => .refused .badArguments

/-- The argument tokens rejoined with single spaces (R103). -/
def rejoin : List Token → List Char
  | [] => []
  | [t] => t
  | t :: ts => t ++ ' ' :: rejoin ts

/-- The text between the first and the last double quote, if there are two (R103). -/
def quoted (t : List Char) : Option (List Char) :=
  let inner := (t.dropWhile (· != '"')).drop 1
  if inner.contains '"' then some (((inner.reverse.dropWhile (· != '"')).drop 1).reverse) else none

/-- The escapes `\n`, `\t`, `\0`; every other character verbatim (R103). -/
def unescape : List Char → List Byte
  | [] => []
  | '\\' :: 'n' :: cs => 0x0A#8 :: unescape cs
  | '\\' :: 't' :: cs => 0x09#8 :: unescape cs
  | '\\' :: '0' :: cs => 0x00#8 :: unescape cs
  | c :: cs => BitVec.ofNat 8 c.toNat :: unescape cs

/-- `.ascii` and `.asciiz` (R103): a string without paired quotes stores nothing at all. -/
def Loader.string (l : Loader) (terminator : List Byte) (args : List Token) : Loader :=
  match quoted (rejoin args) with
  | some t => l.put (unescape t ++ terminator)
  | none => l

/-- A line of the data section (R101 to R104, R110). -/
def Loader.dataLine (l : Loader) (toks : List Token) : Loading Loader :=
  if !toks.all tokenClosed then .refused .unmatchedParen
  else
    match toks with
    | [] => .refused .unknownDirective
    | d :: args =>
      if d = ".word".toList then l.words args
      else if d = ".byte".toList then l.bytes args
      else if d = ".space".toList then l.space args
      else if d = ".ascii".toList then .ok (l.string [] args)
      else if d = ".asciiz".toList then .ok (l.string [0#8] args)
      else .refused .unknownDirective

/-- Step 4 (R100) for a cleaned, non-empty line or remainder. -/
def Loader.place (cfg : Config) (l : Loader) (line : List Char) : Loading Loader :=
  match l.sect with
  | .text => l.addSlot cfg (tokenize line)
  | .data => l.dataLine (tokenize line)

/-- Steps 3 and 4 (R99, R100) for a cleaned, non-empty line. The remainder goes on to step 4, whatever it holds
(log entry 14). -/
def Loader.labelled (cfg : Config) (l : Loader) (line : List Char) : Loading Loader :=
  if line.contains ':' then
    let rest := trim ((line.dropWhile (· != ':')).drop 1)
    (l.addLabel cfg (line.takeWhile (· != ':'))).andThen fun l' =>
      if rest.isEmpty then .ok l'
      else l'.place cfg rest
  else l.place cfg line

/-- One source line (R97 to R104). A visibility directive is ignored in the text section (R98) and refused in the data
section (R110 with 92_eei_decisions.md D26; log entry 30). -/
def Loader.line (cfg : Config) (l : Loader) (text : List Char) : Loading Loader :=
  let clean := cleanLine text
  let first := (tokenize clean).head?
  if clean.isEmpty then .ok l
  else if first = some ".text".toList then .ok { l with sect := .text }
  else if first = some ".data".toList then .ok { l with sect := .data }
  else if first = some ".globl".toList ∨ first = some ".global".toList then
    match l.sect with
    | .text => .ok l
    | .data => .refused .unknownDirective
  else l.labelled cfg clean

/-- The single forward pass (R111). -/
def Loader.pass (cfg : Config) (l : Loader) : List (List Char) → Loading Loader
  | [] => .ok l
  | text :: rest => (l.line cfg text).andThen fun l' => l'.pass cfg rest

/-- What `load(sourceText)` returns (R107, R282), with the engine it leaves. -/
inductive LoadResult where
  | loaded (s : State) (instructionCount labelCount : Nat)
  | error (s : State) (tok : Token)
  | refused (r : LoadRefusal)
deriving DecidableEq, Repr

/-- `load(sourceText)` (R107, R282). After a load error every step is refused until `reset` (log entry 13). -/
def State.load (s : State) (sourceText : List Char) : LoadResult :=
  if s.phase = .fresh ∧ s.eng = .ready then
    if sourceText.all isSourceChar then
      match (Loader.start s.cfg).pass s.cfg (linesFrom [] sourceText) with
      | .ok l =>
        .loaded { s with slots := l.slots, labels := l.labels, mem := l.mem, pc := s.cfg.textBase, eng := .ready, phase := .loaded }
          l.slots.length l.labels.length
      | .error tok => .error { s with phase := .failed } tok
      | .refused r => .refused r
    else .refused .notAsciiLines
  else .refused .notFresh

end Sys2Proof.Machine
end

