-- ==== Sys2Proof/Machine/HostOps.lean ====
section
/-! DEFINITION. The host operations besides `load` and the console's side of the interfaces
(00_scope.md R8, R9; 60_exceptions.md R280 to R283; 70_reset_and_hazards.md R300). -/

namespace Sys2Proof.Machine

/-- `reset()` (R300): all owned state replaced, from any state. The console and the diagnostic stream are not owned
state (10_state.md R40) and stay as they are (log entry 7). -/
def State.hostReset (s : State) : State :=
  { State.resetWith s.cfg with conOut := s.conOut, conIn := s.conIn, diags := s.diags }

/-- `stepOne()` (R281). -/
def State.stepOne (s : State) : Result := step s

/-- `runToCompletion()` (R283): step until halted. `none`: not yet returned after `fuel` steps. -/
def State.runToCompletion : (fuel : Nat) → State → Option Result
  | 0, s => if s.eng = .halted then some (.next s) else none
  | fuel + 1, s =>
    if s.eng = .halted then some (.next s)
    else
      match step s with
      | .next t => State.runToCompletion fuel t
      | .fault f => some (.fault f)
      | .refused r => some (.refused r)

/-- What `inspectState()` returns (10_state.md R43). -/
structure Inspection where
  pc : Word
  hi : Word
  lo : Word
  registers : List Word
deriving DecidableEq, Repr

/-- `inspectState()` (R43): it changes nothing. -/
def State.inspectState (s : State) : Inspection where
  pc := s.pc
  hi := s.hi
  lo := s.lo
  registers := (List.finRange s.cfg.nreg.value).map fun i => s.x i

/-! The console answers read requests (47_system.md R242, R246). -/

/-- The console has an answer for a `ReadInt`. -/
def State.answerInt (s : State) (d : IntDraw) : State :=
  { s with conIn := { s.conIn with ints := s.conIn.ints ++ [d] } }

/-- The console has an answer for a `ReadLine`. -/
def State.answerLine (s : State) (d : LineDraw) : State :=
  { s with conIn := { s.conIn with lines := s.conIn.lines ++ [d] } }

/-- The console has an answer for a `ReadChar`. -/
def State.answerChar (s : State) (d : CharDraw) : State :=
  { s with conIn := { s.conIn with chars := s.conIn.chars ++ [d] } }

end Sys2Proof.Machine
end

