-- ==== Sys2Proof/Safety.lean ====
section
/-! DEFINITION. What holds of every state a run reaches, and the words in which statements say what a step changes. -/

namespace Sys2Proof.Machine

/-- The invariant: memory in canonical form (10_state.md R39), register 0 holding 0 (R22), and a freshly reset engine
with nothing loaded (R42). -/
abbrev State.inv (s : State) : Prop :=
  Memory.wf s.mem = true ∧ s.regs[0] = 0#32 ∧ (s.phase = .fresh → s.slots = [] ∧ s.labels = [])

/-! What stays the same. -/

/-- Every general register reads as before. -/
def SameRegs (s t : State) : Prop := ∀ i : Fin 32, t.x i = s.x i

/-- HI and LO are unchanged. -/
def SameHiLo (s t : State) : Prop := t.hi = s.hi ∧ t.lo = s.lo

/-- Every byte of data memory reads as before. -/
def SameMemory (s t : State) : Prop := ∀ a : Word, t.readByte a = s.readByte a

/-- The console is untouched: nothing written, nothing read. -/
def SameConsole (s t : State) : Prop := t.conOut = s.conOut ∧ t.conIn = s.conIn

/-- Parameters, instruction store, label table and load phase are unchanged. -/
def SameProgram (s t : State) : Prop :=
  t.cfg = s.cfg ∧ t.slots = s.slots ∧ t.labels = s.labels ∧ t.phase = s.phase

/-- Heap pointer and the model's counter of free values are unchanged. -/
def SameHeap (s t : State) : Prop := t.heapPtr = s.heapPtr ∧ t.freeCount = s.freeCount

/-- `t` differs from `s` at most in registers, HI, LO, `pc`, memory and the diagnostics, and the engine is `Running`. -/
def RestSame (s t : State) : Prop := t.eng = .running ∧ SameHeap s t ∧ SameConsole s t ∧ SameProgram s t

/-! Which slot `pc` addresses (10_state.md R31, R37). -/

/-- `pc` is `TEXT_BASE + 4*i` for a loaded slot `i`, whose tokens are `toks`. -/
def SlotAtPc (s : State) (toks : List Token) : Prop :=
  ∃ i, s.pc.toNat = s.cfg.textBase.toNat + 4 * i ∧ s.slots[i]? = some toks

/-- `pc` is not `TEXT_BASE + 4*i` for any loaded slot `i`. -/
def NoSlotAtPc (s : State) : Prop := ∀ i < s.slots.length, s.pc.toNat ≠ s.cfg.textBase.toNat + 4 * i

/-! Diagnostics: the records of one step are a set with repetitions, in no order (60_exceptions.md R284, D22). -/

/-- The step appends exactly the records `l`, in some order. -/
def Logged (l : List Diag) (s t : State) : Prop := ∃ new : List Diag, t.diags = s.diags ++ new ∧ new.Perm l

/-- One `OperandError` for each invalid designator (60_exceptions.md R273). -/
def operandErrors : List RegOp → List Diag
  | [] => []
  | .valid _ :: ds => operandErrors ds
  | .invalid tok :: ds => .operandError tok :: operandErrors ds

/-! What an instruction does. -/

/-- Nothing but `pc <- u32(pc0 + 4)`. -/
def AdvancesOnly (s t : State) : Prop :=
  t.pc = s.pc + 4#32 ∧ t.diags = s.diags ∧ SameRegs s t ∧ SameHiLo s t ∧ SameMemory s t ∧ RestSame s t

/-- `RegWrite(d, v)` and `pc <- u32(pc0 + 4)` after reads of `reads`, and nothing else. A write to register 0 or
through an invalid designator changes no register (10_state.md R22, R25). -/
def WritesReg (d : RegOp) (v : Word) (reads : List RegOp) (s t : State) : Prop :=
  t.pc = s.pc + 4#32 ∧ (∀ i : Fin 32, t.x i = if d = .valid i ∧ i ≠ 0 then v else s.x i) ∧
    Logged (operandErrors (reads ++ [d])) s t ∧ SameHiLo s t ∧ SameMemory s t ∧ RestSame s t

/-- `HI`, `LO` as given and `pc <- u32(pc0 + 4)` after reads of `reads`, and nothing else. -/
def WritesHiLo (hi lo : Word) (reads : List RegOp) (s t : State) : Prop :=
  t.pc = s.pc + 4#32 ∧ t.hi = hi ∧ t.lo = lo ∧ Logged (operandErrors reads) s t ∧ SameRegs s t ∧ SameMemory s t ∧
    RestSame s t

/-- The low `n` bytes of `v` at `a` (wrapping), every other byte as before, `pc <- u32(pc0 + 4)`, and nothing else. -/
def WritesMem (a : Word) (n : Nat) (v : Word) (reads : List RegOp) (s t : State) : Prop :=
  t.pc = s.pc + 4#32 ∧ (∀ k < n, t.readByte (a + BitVec.ofNat 32 k) = v.extractLsb' (8 * k) 8) ∧
    (∀ b : Word, (∀ k < n, b ≠ a + BitVec.ofNat 32 k) → t.readByte b = s.readByte b) ∧
    Logged (operandErrors reads) s t ∧ SameRegs s t ∧ SameHiLo s t ∧ RestSame s t

/-- `pc <- a` with the records `l`, and nothing else. -/
def JumpsTo (a : Word) (l : List Diag) (s t : State) : Prop :=
  t.pc = a ∧ Logged l s t ∧ SameRegs s t ∧ SameHiLo s t ∧ SameMemory s t ∧ RestSame s t

/-- What a service of `syscall` leaves alone unless its rule names it: HI, LO, memory, diagnostics, program. -/
def ServiceFrame (s t : State) : Prop :=
  t.pc = s.pc + 4#32 ∧ t.eng = .running ∧ t.diags = s.diags ∧ SameHiLo s t ∧ SameProgram s t ∧ t.freeCount = s.freeCount

/-- `x[2] <- v` and no other register. -/
def WritesV0 (v : Word) (s t : State) : Prop := ∀ i : Fin 32, t.x i = if i = 2 then v else s.x i

/-! Operands, written from the rules. -/

/-- `MemRead(a, n)` of 20_memory.md R55: little-endian, the addresses wrapping. -/
def memValue (s : State) (a : Word) : Nat → Nat
  | 0 => 0
  | n + 1 => (s.readByte a).toNat + 256 * memValue s (a + 1#32) n

/-- The two's-complement reading of the low `n` bits (`sext_N` of 00_scope.md R10), for `v < 2^n`. -/
def signedOf (n v : Nat) : Int := if v < 2 ^ (n - 1) then (v : Int) else (v : Int) - 2 ^ n

/-- 30_encoding.md R90 with R88's range: the address a target stands for and the records it leaves, given what the raw
path does. Nothing for a number outside R88's ranges. -/
def goalOf (raw : Int → Word) (s : State) : ValOp → Option (Word × List Diag)
  | .num n => some (raw n, [])
  | .wide _ => none
  | .sym name =>
    match labelLookup s.labels name with
    | some a => some (a, [])
    | none => some (s.pc, [.referenceError name])

/-- The raw path of branches (44_branch.md R201). -/
def branchGoal (s : State) (target : ValOp) : Option (Word × List Diag) :=
  goalOf (fun k => u32 ((s.pc.toNat : Int) + 4 + k * 4)) s target

/-- The raw path of jumps (45_jump.md R221): the top 4 bits of `pc0`, then the low 26 bits of the operand, times 4. -/
def jumpGoal (s : State) (target : ValOp) : Option (Word × List Diag) :=
  goalOf (fun n => BitVec.ofNat 32 (s.pc.toNat / 2 ^ 28 * 2 ^ 28 + (u32 n).toNat % 2 ^ 26 * 4)) s target

/-- The raw path of `la` (46_pseudo.md R232). -/
def addressGoal (s : State) (target : ValOp) : Option (Word × List Diag) := goalOf u32 s target

/-- An instruction with an immediate in the range `lo..hi` (30_encoding.md R89, R91): it completes with `post` on every
operand that resolves in range, is refused out of range where `IMM_WIDE` is `refuse`, and faults with the operand's
token where it does not resolve. -/
def RangedImmediate (lo hi : Int) (imm : ValOp) (i : Instr) (s : State) (post : Int → State → Prop) : Prop :=
  (∀ n : Int, s.resolveImm imm = .ok n → lo ≤ n → n ≤ hi → ∃ t, exec i s = .next t ∧ post n t) ∧
    (∀ n : Int, s.resolveImm imm = .ok n → ¬(lo ≤ n ∧ n ≤ hi) → s.cfg.immWide = .refuse →
      exec i s = .refused .immediateOutOfRange) ∧
    (∀ tok, s.resolveImm imm = .fault (.numericConversion tok) → exec i s = .fault (.numericConversion tok))

/-- The integer that stands for an immediate `n` where `IMM_WIDE` is not `refuse` (30_encoding.md R91): the whole 32-bit
pattern, or the field's low bits, read as the field is read. A shift amount has none under `full32`. -/
def wideOperand : ImmWide → ImmField → Int → Option Int
  | .refuse, _, _ => none
  | .full32, .signed16, n => some (s32 (u32 n))
  | .full32, .logical16, n => some (n % 2 ^ 32)
  | .full32, .shamt, _ => none
  | .truncate16, .signed16, n => some ((n + 32768) % 65536 - 32768)
  | .truncate16, .logical16, n => some (n % 65536)
  | .truncate16, .shamt, n => some (n % 32)

/-- An instruction with an immediate outside its field's range (30_encoding.md R91): it completes with `post` of the
integer that `IMM_WIDE` makes of it, and is refused where there is none. -/
def WideImmediate (field : ImmField) (imm : ValOp) (i : Instr) (s : State) (post : Int → State → Prop) : Prop :=
  ∀ n : Int, s.resolveImm imm = .ok n → field.inRange n = false →
    (∀ m, wideOperand s.cfg.immWide field n = some m → ∃ t, exec i s = .next t ∧ post m t) ∧
    (wideOperand s.cfg.immWide field n = none → exec i s = .refused .immediateOutOfRange)

/-- A load or store (43_loadstore.md R180, R181): it completes with `post` at the effective address, and ends as the
address does where there is none. -/
def AtAddress (off : Option ValOp) (base : RegOp) (i : Instr) (s : State) (post : Word → State → Prop) : Prop :=
  (∀ a : Word, s.effAddr off base = .ok a → ∃ t, exec i s = .next t ∧ post a t) ∧
    (∀ f, s.effAddr off base = .fault f → exec i s = .fault f) ∧
    (∀ r, s.effAddr off base = .refused r → exec i s = .refused r)

/-- A conditional branch on registers (44_branch.md R200 to R202). Of the diagnostics of a branch not taken nothing is
said where its target is an unresolvable label (93_implementation_defined.md U8). -/
def BranchesIf (taken : Prop) (target : ValOp) (i : Instr) (s : State) : Prop :=
  (taken → ∀ a l, branchGoal s target = some (a, l) → ∃ t, exec i s = .next t ∧ JumpsTo a l s t) ∧
    (taken → ∀ tok, target = .wide tok → exec i s = .fault (.numericConversion tok)) ∧
    (¬taken → ∃ t, exec i s = .next t ∧ t.pc = s.pc + 4#32 ∧ SameRegs s t ∧ SameHiLo s t ∧ SameMemory s t ∧
      RestSame s t ∧ (∀ a, branchGoal s target = some (a, []) → t.diags = s.diags))

/-- The name table of 10_state.md R23, without the `$`, each name beside its index. -/
def registerTable : List (Token × Fin 32) :=
  [("zero".toList, 0), ("at".toList, 1), ("v0".toList, 2), ("v1".toList, 3), ("a0".toList, 4), ("a1".toList, 5),
   ("a2".toList, 6), ("a3".toList, 7), ("t0".toList, 8), ("t1".toList, 9), ("t2".toList, 10), ("t3".toList, 11)] ++
  [("t4".toList, 12), ("t5".toList, 13), ("t6".toList, 14), ("t7".toList, 15), ("s0".toList, 16), ("s1".toList, 17),
   ("s2".toList, 18), ("s3".toList, 19), ("s4".toList, 20), ("s5".toList, 21), ("s6".toList, 22)] ++
  [("s7".toList, 23), ("t8".toList, 24), ("t9".toList, 25), ("k0".toList, 26), ("k1".toList, 27), ("gp".toList, 28),
   ("sp".toList, 29), ("fp".toList, 30), ("ra".toList, 31)]

/-- A decimal numeric string of value `n`: an optional `-` and one or more digits (10_state.md R24(b)). -/
def IsDecimalToken (n : Int) (tok : Token) : Prop :=
  ∃ digits : List Nat, digits ≠ [] ∧ (∀ d ∈ digits, d < 10) ∧
    let text : Token := digits.map fun d => Char.ofNat (48 + d)
    let value : Nat := digits.foldl (fun acc d => acc * 10 + d) 0
    (tok = text ∧ n = value) ∨ (tok = '-' :: text ∧ n = -(value : Int))

/-- A hexadecimal digit's character, in either case (30_encoding.md R87). -/
def IsHexDigit (d : Nat) (c : Char) : Prop :=
  "0123456789abcdef".toList[d]? = some c ∨ "0123456789ABCDEF".toList[d]? = some c

/-- A hexadecimal token of value `n`: `0x` or `0X` and one or more digits (30_encoding.md R87). -/
def IsHexToken (n : Nat) (tok : Token) : Prop :=
  ∃ (digits : List Nat) (text : Token), digits ≠ [] ∧ List.Forall₂ IsHexDigit digits text ∧
    n = digits.foldl (fun acc d => acc * 16 + d) 0 ∧ (tok = '0' :: 'x' :: text ∨ tok = '0' :: 'X' :: text)

/-- `LoadImm(tok) = n` (30_encoding.md R105): a number, or the address of a label defined so far. -/
def LoadsValue (l : Loader) (tok : Token) (n : Int) : Prop :=
  valueOf tok = .num n ∨ ∃ name a, valueOf tok = .sym name ∧ labelLookup l.labels name = some a ∧ n = (a.toNat : Int)

/-- `LoadImm(tok)` is a parse failure (30_encoding.md R105): a number out of range, or a name not defined so far. -/
def FailsToLoad (l : Loader) (tok : Token) : Prop :=
  valueOf tok = .wide tok ∨ (valueOf tok = .sym tok ∧ labelLookup l.labels tok = none)

/-- From `l` to `l'` the loader stores `bytes` at its cursor, which moves past them, and nothing else. -/
def StoresAtCursor (bytes : List Byte) (l l' : Loader) : Prop :=
  l'.cursor = l.cursor + BitVec.ofNat 32 bytes.length ∧ l'.sect = l.sect ∧ l'.slots = l.slots ∧ l'.labels = l.labels ∧
    (∀ k (h : k < bytes.length), memRead l'.mem (l.cursor + BitVec.ofNat 32 k).toNat = bytes[k]) ∧
    ∀ b : Word, (∀ k < bytes.length, b ≠ l.cursor + BitVec.ofNat 32 k) → memRead l'.mem b.toNat = memRead l.mem b.toNat

/-- What the text of a string directive stores (30_encoding.md R103): the escapes `\n`, `\t`, `\0` as one byte each,
every other character verbatim. -/
inductive StoredText : List Char → List Byte → Prop where
  | nil : StoredText [] []
  | newline {t : List Char} {bs : List Byte} : StoredText t bs → StoredText ('\\' :: 'n' :: t) (0x0A#8 :: bs)
  | tab {t : List Char} {bs : List Byte} : StoredText t bs → StoredText ('\\' :: 't' :: t) (0x09#8 :: bs)
  | zero {t : List Char} {bs : List Byte} : StoredText t bs → StoredText ('\\' :: '0' :: t) (0x00#8 :: bs)
  | verbatim {c : Char} {t : List Char} {bs : List Byte} :
      ¬(c = '\\' ∧ (t.head? = some 'n' ∨ t.head? = some 't' ∨ t.head? = some '0')) → StoredText t bs →
        StoredText (c :: t) (BitVec.ofNat 8 c.toNat :: bs)

/-- `Dec(n)` of 47_system.md R243, in bytes: a `-` if negative, then the digits of `|n|` without leading zeros. -/
def IsDecimal (n : Int) (text : List Byte) : Prop :=
  ∃ digits : List Nat, digits ≠ [] ∧ (∀ d ∈ digits, d < 10) ∧ (1 < digits.length → digits.head? ≠ some 0) ∧
    digits.foldl (fun acc d => acc * 10 + d) 0 = n.natAbs ∧
    text = (if n < 0 then [0x2D#8] else []) ++ digits.map fun d => BitVec.ofNat 8 (48 + d)

end Sys2Proof.Machine

namespace Sys2Proof

/-- The registers an instruction's operand list names as destinations (10_state.md R27; 30_encoding.md R85). -/
def Instr.destinations : Instr → List RegOp
  | .add rd _ _ | .addu rd _ _ | .sub rd _ _ | .subu rd _ _ | .and rd _ _ | .or rd _ _ | .xor rd _ _ | .nor rd _ _
  | .slt rd _ _ | .sltu rd _ _ => [rd]
  | .addi rt _ _ | .addiu rt _ _ | .andi rt _ _ | .ori rt _ _ | .xori rt _ _ | .slti rt _ _ | .sltiu rt _ _ => [rt]
  | .lui rt _ => [rt]
  | .mult _ _ | .multu _ _ | .div _ _ | .divu _ _ => []
  | .mfhi rd | .mflo rd => [rd]
  | .sll rd _ _ | .srl rd _ _ | .sra rd _ _ => [rd]
  | .lw rt _ _ | .lh rt _ _ | .lhu rt _ _ | .lb rt _ _ | .lbu rt _ _ => [rt]
  | .sw _ _ _ | .sh _ _ _ | .sb _ _ _ => []
  | .beq _ _ _ | .bne _ _ _ | .blt _ _ _ | .ble _ _ _ | .bgt _ _ _ | .bge _ _ _ => []
  | .bltz _ _ | .blez _ _ | .bgtz _ _ | .bgez _ _ => []
  | .j _ | .jr _ => []
  | .jal _ => [.valid 31]
  | .li rd _ | .la rd _ | .move rd _ | .clear rd | .not rd _ => [rd]
  | .syscall => [.valid 2]
  | .nop => []

/-- The operand-list patterns of 30_encoding.md R85, one list of positions per form: `true` for a register position. -/
def Format.positions : Format → List (List Bool)
  | .R3 => [[true, true, true]]
  | .SH | .I3 | .B3 => [[true, true, false]]
  | .MD | .P2 => [[true, true]]
  | .MF | .JR | .P1 => [[true]]
  | .LU | .B2 | .PI | .PA => [[true, false]]
  | .M => [[true, false, true], [true, true]]
  | .J => [[false]]
  | .N => [[]]

/-- The operand list fits the format (30_encoding.md R85, R92): a pattern of its length, no unsettled designator in a
register position, no unmatched `(`. -/
def Format.fits (f : Format) (ops : List Token) : Prop :=
  (∀ tok ∈ ops, '(' ∉ tok) ∧
    ∃ ps ∈ f.positions, List.Forall₂ (fun (isReg : Bool) tok => isReg = true → regResolve tok ≠ none) ps ops

end Sys2Proof
end

