-- ==== Sys2Proof/Certificates/Slice0/Obligations.lean ====
section
/-! DEFINITION. The statements about this model, each from the rules its docstring cites. -/

open Sys2Proof Sys2Proof.Machine

/-! Reset and the host (10_state.md, 60_exceptions.md, 70_reset_and_hazards.md). -/

/-- 10_state.md R42: the reset table, the halting step before any load, and `Ready` at `TEXT_BASE` after a load. That the
other registers are 0 and that `pc` and `ENG` are so before a load is the spec's own decision (D12, D13). -/
def Obligations.ResetLeavesTheTableValues : Prop :=
  State.reset.x 29 = 0x7ffffffc#32 ∧
  ∀ cfg : Config,
    (∀ i : Fin 32, (State.resetWith cfg).x i = if i = 29 then cfg.spInit else 0#32) ∧
    (State.resetWith cfg).hi = 0#32 ∧ (State.resetWith cfg).lo = 0#32 ∧
    (State.resetWith cfg).pc = cfg.textBase ∧ (State.resetWith cfg).eng = .ready ∧
    (State.resetWith cfg).heapPtr = cfg.heapBase ∧ (∀ a, (State.resetWith cfg).readByte a = 0#8) ∧
    (State.resetWith cfg).slots = [] ∧ (State.resetWith cfg).labels = [] ∧
    step (State.resetWith cfg) = .next (State.resetWith cfg).noInstruction ∧
    (State.resetWith cfg).noInstruction.eng = .halted ∧
    ∀ text t n m, (State.resetWith cfg).load text = .loaded t n m → t.eng = .ready ∧ t.pc = cfg.textBase

/-- 70_reset_and_hazards.md R300: the host's reset gives the reset state of every owned element and leaves the console
(the console clause is the inference R300 marks as its own; log entry 7). That the registers other than 0 and 29 are 0,
and that `pc` and `ENG` are so before a load, is the spec's own decision (D12, D13; log entry 4). -/
def Obligations.HostResetReplacesAllOwnedState : Prop :=
  ∀ s : State,
    (∀ i : Fin 32, s.hostReset.x i = if i = 29 then s.cfg.spInit else 0#32) ∧
    s.hostReset.hi = 0#32 ∧ s.hostReset.lo = 0#32 ∧ s.hostReset.pc = s.cfg.textBase ∧
    s.hostReset.eng = .ready ∧ s.hostReset.heapPtr = s.cfg.heapBase ∧ (∀ a, s.hostReset.readByte a = 0#8) ∧
    s.hostReset.slots = [] ∧ s.hostReset.labels = [] ∧
    s.hostReset.conOut = s.conOut ∧ s.hostReset.conIn = s.conIn

/-- 60_exceptions.md R281: `stepOne` does nothing on a halted engine; else it fetches the slot `i` with
`pc = TEXT_BASE + 4*i` (10_state.md R31, R37; 20_memory.md R60), follows R277 where there is none, and else decodes and runs the evaluator of the well-formed instruction it reads. Nothing of the step happens
around the evaluator. That a slot with an ill-formed operand list is refused is the spec's own decision D9
(30_encoding.md R92). After a failed load the spec refuses the step (R282). -/
def Obligations.StepRunsTheDecodedInstruction : Prop :=
  ∀ s : State,
    (s.eng = .halted → step s = .next s) ∧
    (s.eng ≠ .halted → s.phase ≠ .failed → NoSlotAtPc s → step s = .next s.noInstruction) ∧
    (∀ (toks : List Token) (i : Instr), s.eng ≠ .halted → s.phase ≠ .failed → SlotAtPc s toks →
      decode s.cfg.admitTierC toks = .instr i → i.wf = true → step s = exec i s) ∧
    (∀ toks : List Token, s.eng ≠ .halted → s.phase ≠ .failed → SlotAtPc s toks →
      decode s.cfg.admitTierC toks = .illFormed → step s = .refused .illFormed)

/-- 60_exceptions.md R277: a `pc` that is `TEXT_BASE + 4*i` for no loaded slot `i` (10_state.md R31, R37) logs E6 and halts, everything else unchanged, and it is reported once. That
`pc` keeps the unmapped value is the inference R277 marks as its own. -/
def Obligations.NoInstructionHaltsAndIsReportedOnce : Prop :=
  ∀ s : State, s.eng ≠ .halted → s.phase ≠ .failed → NoSlotAtPc s →
    ∃ t, step s = .next t ∧ t.eng = .halted ∧ t.diags = s.diags ++ [.noInstruction s.pc] ∧ t.pc = s.pc ∧
      SameRegs s t ∧ SameHiLo s t ∧ SameMemory s t ∧ SameHeap s t ∧ SameConsole s t ∧ SameProgram s t ∧
      step t = .next t

/-- 30_encoding.md R93: an unknown opcode logs E1 and goes on to the next slot, whatever its tokens. That it does so with
an unmatched `(` in one of them, which R82 refuses, is the model's choice (log entry 31). -/
def Obligations.UnknownOpcodeLogsAndContinues : Prop :=
  ∀ (s : State) (t0 : Token) (ops : List Token),
    s.eng ≠ .halted → s.phase ≠ .failed → SlotAtPc s (t0 :: ops) →
    (∀ k : Kind, k.spelling = t0 → k.tier = .C ∧ s.cfg.admitTierC = false) →
    ∃ t, step s = .next t ∧ t.pc = s.pc + 4#32 ∧ t.diags = s.diags ++ [.unknownOpcode t0] ∧
      SameRegs s t ∧ SameHiLo s t ∧ SameMemory s t ∧ RestSame s t

/-- 30_encoding.md R92 with R85: in the vocabulary, the decoder refuses exactly the operand lists that do not fit
(the spec's own decision D9). -/
def Obligations.IllFormedExactlyWhenOperandsDoNotFit : Prop :=
  ∀ (k : Kind) (ops : List Token),
    (¬k.format.fits ops → decode true (k.spelling :: ops) = .illFormed) ∧
    (k.format.fits ops → ∃ i, decode true (k.spelling :: ops) = .instr i ∧ i.kind = k)

/-- 60_exceptions.md R282: after a load error every step is refused until the host resets (the spec's own
decision D13; log entry 13). -/
def Obligations.LoadErrorRefusesStepsUntilReset : Prop :=
  ∀ (s t : State) (text : List Char) (tok : Token), s.load text = .error t tok →
    step t = .refused .afterLoadError ∧ step t.hostReset = .next t.hostReset.noInstruction

/-- 70_reset_and_hazards.md R306: only system call 10 and a fetch that finds no slot halt the engine. -/
def Obligations.OnlyExitAndNoInstructionHalt : Prop :=
  ∀ s t : State, s.eng ≠ .halted → step s = .next t → t.eng = .halted →
    NoSlotAtPc s ∨
      (∃ toks, SlotAtPc s toks ∧ decode s.cfg.admitTierC toks = .instr .syscall ∧ s.x 2 = 10#32)

/-- 70_reset_and_hazards.md R311: no step changes the instruction store, the label table or the parameters
(an inference the spec marks as its own; log entry 10 for the parameters). -/
def Obligations.StepKeepsProgramAndLabels : Prop :=
  ∀ s t : State, step s = .next t → SameProgram s t

/-- The invariant holds at reset, under every setting of the parameters. -/
def Obligations.InvariantHoldsAtReset : Prop :=
  ∀ cfg : Config, (State.resetWith cfg).inv

/-- Every step keeps the invariant: canonical memory, register 0 holding 0, nothing loaded on a fresh engine. -/
def Obligations.StepKeepsInvariant : Prop :=
  ∀ s t : State, s.inv → step s = .next t → t.inv

/-- A load and the host's reset establish the invariant. -/
def Obligations.LoadAndResetEstablishInvariant : Prop :=
  (∀ s : State, s.hostReset.inv) ∧
  ∀ (s t : State) (text : List Char) (n m : Nat), s.inv → s.load text = .loaded t n m → t.inv

/-! Encoding (30_encoding.md). -/

/-- 30_encoding.md R83 to R90: every well-formed instruction is what its token list decodes to. -/
def Obligations.DecodeOfEncodeIsTheInstruction : Prop :=
  ∀ i : Instr, i.wf = true → decode true (encode i) = .instr i

/-- Whatever the decoder reads is well-formed. -/
def Obligations.DecodeYieldsWellFormedInstructions : Prop :=
  ∀ (tierC : Bool) (toks : List Token) (i : Instr), decode tierC toks = .instr i → i.wf = true

/-- Slots written out from 30_encoding.md R82, R85 decode to the instructions they stand for, one per format. -/
def Obligations.WrittenOutSlotsDecode : Prop :=
  decode true (tokenize "add $t2, $t0, $t1".toList) = .instr (.add (.valid 10) (.valid 8) (.valid 9)) ∧
  decode true (tokenize "addi $sp, $sp, -4".toList) = .instr (.addi (.valid 29) (.valid 29) (.num (-4))) ∧
  decode true (tokenize "lui $t0, 0x1001".toList) = .instr (.lui (.valid 8) (.num 4097)) ∧
  decode true (tokenize "div $t0,$t1".toList) = .instr (.div (.valid 8) (.valid 9)) ∧
  decode true (tokenize "sll $t1, $t0, 31".toList) = .instr (.sll (.valid 9) (.valid 8) (.num 31)) ∧
  decode true (tokenize "lw $t1, 4($sp)".toList) = .instr (.lw (.valid 9) (some (.num 4)) (.valid 29)) ∧
  decode true (tokenize "sw $t1, ($t0)".toList) = .instr (.sw (.valid 9) none (.valid 8)) ∧
  decode true (tokenize "bne $t1, $zero, loop".toList) = .instr (.bne (.valid 9) (.valid 0) (.sym "loop".toList)) ∧
  decode true (tokenize "jal f".toList) = .instr (.jal (.sym "f".toList)) ∧
  decode true (tokenize "la $a0,msg".toList) = .instr (.la (.valid 4) (.sym "msg".toList)) ∧
  decode true (tokenize "syscall".toList) = .instr .syscall

/-- 30_encoding.md R84: with `ADMIT_TIER_C` false every Tier C mnemonic is an unknown opcode, and Tier N reads as before
(the spec's own decision D2). -/
def Obligations.TierCIsUnknownWhenNotAdmitted : Prop :=
  ∀ (k : Kind) (ops : List Token),
    (k.tier = .C → decode false (k.spelling :: ops) = .unknown k.spelling) ∧
    (k.tier = .N → decode false (k.spelling :: ops) = decode true (k.spelling :: ops))

/-- 10_state.md R24 over R23's table: (a) names with `$`, (b) decimal strings inside and outside 0..31, (c) the unsettled
spellings, (d) any other token (the spec's own decision D4; that a signed number after `$` is unsettled too is log
entry 17). -/
def Obligations.DesignatorsResolve : Prop :=
  (∀ p ∈ registerTable, regResolve ('$' :: p.1) = some (.valid p.2)) ∧
  (∀ (tok : Token) (n : Int) (i : Fin 32), IsDecimalToken n tok → n = i.val → regResolve tok = some (.valid i)) ∧
  (∀ (tok : Token) (n : Int), IsDecimalToken n tok → n < 0 ∨ 31 < n → regResolve tok = some (.invalid tok)) ∧
  (∀ (tok : Token) (n : Int), IsDecimalToken n tok → regResolve ('$' :: tok) = none) ∧
  (∀ p ∈ registerTable, regResolve p.1 = none) ∧
  (∀ tok : Token, (∀ p ∈ registerTable, tok ≠ '$' :: p.1 ∧ tok ≠ p.1) → (∀ n, ¬IsDecimalToken n tok) →
    (∀ n name, tok = '$' :: name → ¬IsDecimalToken n name) → regResolve tok = some (.invalid tok))

/-- 30_encoding.md R87, R88: decimal and hexadecimal tokens in every spelling read as their value inside the ranges and as
a number out of range outside; every other token is a symbol (the spec's own decisions D6, D7). -/
def Obligations.NumeralsReadAsTheirValue : Prop :=
  (∀ (tok : Token) (n : Int), IsDecimalToken n tok →
    valueOf tok = if -(2 ^ 31) ≤ n ∧ n ≤ 2 ^ 31 - 1 then .num n else .wide tok) ∧
  (∀ (tok : Token) (n : Nat), IsHexToken n tok → valueOf tok = if n ≤ 2 ^ 32 - 1 then .num n else .wide tok) ∧
  (∀ tok : Token, (∀ n, ¬IsDecimalToken n tok) → (∀ n, ¬IsHexToken n tok) → valueOf tok = .sym tok)

/-- 30_encoding.md R89: an immediate is the number, the label's address, or a numeric-conversion fault (the spec's own
decision D8). -/
def Obligations.ImmediatesResolve : Prop :=
  ∀ s : State,
    (∀ n, s.resolveImm (.num n) = .ok n) ∧
    (∀ name a, labelLookup s.labels name = some a → s.resolveImm (.sym name) = .ok (a.toNat : Int)) ∧
    (∀ name, labelLookup s.labels name = none → s.resolveImm (.sym name) = .fault (.numericConversion name)) ∧
    (∀ tok, s.resolveImm (.wide tok) = .fault (.numericConversion tok))

/-- 30_encoding.md R91: the operand value of a ranged immediate, in range and under each setting of `IMM_WIDE`, and the
instructions that use it outside the range (the spec's own decision D5; for `slti` log entry 12). -/
def Obligations.ImmediateFieldsFollowImmWide : Prop :=
  (∀ (n : Int) (wide : ImmWide),
    (-32768 ≤ n → n ≤ 32767 → fieldValue wide .signed16 n = .ok (u32 n) ∧ s32 (u32 n) = n) ∧
    (0 ≤ n → n ≤ 65535 → fieldValue wide .logical16 n = .ok (u32 n) ∧ ((u32 n).toNat : Int) = n) ∧
    (0 ≤ n → n ≤ 31 → fieldValue wide .shamt n = .ok (u32 n) ∧ ((u32 n).toNat : Int) = n) ∧
    (¬(-32768 ≤ n ∧ n ≤ 32767) → fieldValue .refuse .signed16 n = .refused .immediateOutOfRange ∧
      fieldValue .full32 .signed16 n = .ok (u32 n)) ∧
    (¬(0 ≤ n ∧ n ≤ 65535) → fieldValue .refuse .logical16 n = .refused .immediateOutOfRange ∧
      fieldValue .full32 .logical16 n = .ok (u32 n)) ∧
    (¬(0 ≤ n ∧ n ≤ 31) → fieldValue .refuse .shamt n = .refused .immediateOutOfRange ∧
      fieldValue .full32 .shamt n = .refused .immediateOutOfRange) ∧
    (∃ v, fieldValue .truncate16 .signed16 n = .ok v ∧ s32 v = (n + 32768) % 65536 - 32768) ∧
    (∃ v, fieldValue .truncate16 .logical16 n = .ok v ∧ (v.toNat : Int) = n % 65536) ∧
    (∃ v, fieldValue .truncate16 .shamt n = .ok v ∧ (v.toNat : Int) = n % 32)) ∧
  ∀ (rt rs : RegOp) (imm : ValOp) (s : State),
    WideImmediate .signed16 imm (.addi rt rs imm) s
      (fun m t => WritesReg rt (u32 ((s.readReg rs).toNat + m)) [rs] s t) ∧
    WideImmediate .signed16 imm (.addiu rt rs imm) s
      (fun m t => WritesReg rt (u32 ((s.readReg rs).toNat + m)) [rs] s t) ∧
    WideImmediate .signed16 imm (.slti rt rs imm) s
      (fun m t => WritesReg rt (if s32 (s.readReg rs) < m then 1#32 else 0#32) [rs] s t) ∧
    WideImmediate .signed16 imm (.sltiu rt rs imm) s
      (fun m t => WritesReg rt (if (s.readReg rs).toNat < (u32 m).toNat then 1#32 else 0#32) [rs] s t) ∧
    WideImmediate .logical16 imm (.andi rt rs imm) s
      (fun m t => WritesReg rt (s.readReg rs &&& BitVec.ofNat 32 m.toNat) [rs] s t) ∧
    WideImmediate .logical16 imm (.ori rt rs imm) s
      (fun m t => WritesReg rt (s.readReg rs ||| BitVec.ofNat 32 m.toNat) [rs] s t) ∧
    WideImmediate .logical16 imm (.xori rt rs imm) s
      (fun m t => WritesReg rt (s.readReg rs ^^^ BitVec.ofNat 32 m.toNat) [rs] s t) ∧
    WideImmediate .logical16 imm (.lui rt imm) s (fun m t => WritesReg rt (u32 (m * 65536)) [] s t) ∧
    WideImmediate .shamt imm (.sll rt rs imm) s
      (fun m t => WritesReg rt (u32 ((s.readReg rs).toNat * 2 ^ m.toNat)) [rs] s t) ∧
    WideImmediate .shamt imm (.srl rt rs imm) s
      (fun m t => WritesReg rt (BitVec.ofNat 32 ((s.readReg rs).toNat / 2 ^ m.toNat)) [rs] s t) ∧
    WideImmediate .shamt imm (.sra rt rs imm) s
      (fun m t => WritesReg rt (u32 (Int.fdiv (s32 (s.readReg rs)) (2 ^ m.toNat))) [rs] s t)

/-! Registers and memory (10_state.md, 20_memory.md). -/

/-- 10_state.md R22, R25: reads and writes through a designator, register 0 and invalid designators included. -/
def Obligations.RegisterAccessThroughDesignators : Prop :=
  ∀ s : State,
    (∀ i, s.readReg (.valid i) = s.x i ∧ s.noteReg (.valid i) = s) ∧ s.x 0 = 0#32 ∧
    (∀ tok, s.readReg (.invalid tok) = 0#32 ∧ s.noteReg (.invalid tok) = s.log (.operandError tok)) ∧
    (∀ v, s.writeReg (.valid 0) v = s) ∧
    (∀ (i : Fin 32) (v : Word), i ≠ 0 → ∀ j, (s.writeReg (.valid i) v).x j = if j = i then v else s.x j) ∧
    (∀ tok v, s.writeReg (.invalid tok) v = s.log (.operandError tok)) ∧
    (∀ d, (s.log d).diags = s.diags ++ [d] ∧ SameRegs s (s.log d))

/-- 20_memory.md R52 to R55: `MemRead(a, n)` is the little-endian value of its bytes and `MemWrite(a, n, v)` stores
exactly its bytes, for n = 1, 2, 4, the addresses wrapping. -/
def Obligations.AccessorsMoveTheBytesOfR55 : Prop :=
  ∀ (s : State) (a : Word), Memory.wf s.mem = true →
    (s.readByte a).toNat = memValue s a 1 ∧ (s.readHalf a).toNat = memValue s a 2 ∧
    (s.readWord a).toNat = memValue s a 4 ∧
    (∀ v : Byte, (s.writeByte a v).readByte a = v ∧ ∀ b, b ≠ a → (s.writeByte a v).readByte b = s.readByte b) ∧
    (∀ v : BitVec 16,
      (∀ k < 2, (s.writeHalf a v).readByte (a + BitVec.ofNat 32 k) = v.extractLsb' (8 * k) 8) ∧
      ∀ b, (∀ k < 2, b ≠ a + BitVec.ofNat 32 k) → (s.writeHalf a v).readByte b = s.readByte b) ∧
    (∀ v : Word,
      (∀ k < 4, (s.writeWord a v).readByte (a + BitVec.ofNat 32 k) = v.extractLsb' (8 * k) 8) ∧
      ∀ b, (∀ k < 4, b ≠ a + BitVec.ofNat 32 k) → (s.writeWord a v).readByte b = s.readByte b)

/-- 20_memory.md R58: after a word store the components read back in the documented byte order. -/
def Obligations.StoredWordReadsBackByParts : Prop :=
  ∀ (s : State) (a v : Word), Memory.wf s.mem = true →
    (s.writeWord a v).readByte a = v.extractLsb' 0 8 ∧
    (s.writeWord a v).readByte (a + 1#32) = v.extractLsb' 8 8 ∧
    (s.writeWord a v).readByte (a + 2#32) = v.extractLsb' 16 8 ∧
    (s.writeWord a v).readByte (a + 3#32) = v.extractLsb' 24 8 ∧
    (s.writeWord a v).readHalf a = v.extractLsb' 0 16 ∧
    (s.writeWord a v).readHalf (a + 2#32) = v.extractLsb' 16 16 ∧
    (s.writeWord a v).readWord a = v

/-- 20_memory.md R70, of instructions: memory changes only in a store or system call 8. -/
def Obligations.OnlyStoresAndReadStringWriteMemory : Prop :=
  ∀ (i : Instr) (s t : State), exec i s = .next t → t.mem ≠ s.mem →
    i.kind = .sw ∨ i.kind = .sh ∨ i.kind = .sb ∨ (i = .syscall ∧ s.x 2 = 8#32)

/-- 10_state.md R28, of instructions: only `mult`, `multu`, `div`, `divu` change HI or LO. -/
def Obligations.OnlyMultiplyAndDivideWriteHiLo : Prop :=
  ∀ (i : Instr) (s t : State), exec i s = .next t → ¬SameHiLo s t →
    i.kind = .mult ∨ i.kind = .multu ∨ i.kind = .div ∨ i.kind = .divu

/-- 10_state.md R26, R27: no general register changes but those the operand list names, register 31 in `jal`, and
register 2 in system calls 5, 9 and 12 (the inference R27 marks as its own, over decision D15). -/
def Obligations.OnlyNamedRegistersChange : Prop :=
  ∀ (i : Instr) (s t : State), exec i s = .next t → ∀ k : Fin 32, t.x k ≠ s.x k →
    .valid k ∈ i.destinations ∧ k ≠ 0 ∧
      (i = .syscall → s.x 2 = 5#32 ∨ s.x 2 = 9#32 ∨ s.x 2 = 12#32)

/-! Arithmetic, logic, comparison, immediates (40_arith_logic.md). -/

/-- R131 to R134: `add`, `addu`, `sub`, `subu` write the result modulo 2^32, with no overflow trap. -/
def Obligations.AddAndSubtractWrap : Prop :=
  ∀ (rd rs rt : RegOp) (s : State),
    (∃ t, exec (.add rd rs rt) s = .next t ∧
      WritesReg rd (BitVec.ofNat 32 ((s.readReg rs).toNat + (s.readReg rt).toNat)) [rs, rt] s t) ∧
    (∃ t, exec (.addu rd rs rt) s = .next t ∧
      WritesReg rd (BitVec.ofNat 32 ((s.readReg rs).toNat + (s.readReg rt).toNat)) [rs, rt] s t) ∧
    (∃ t, exec (.sub rd rs rt) s = .next t ∧
      WritesReg rd (u32 ((s.readReg rs).toNat - (s.readReg rt).toNat)) [rs, rt] s t) ∧
    (∃ t, exec (.subu rd rs rt) s = .next t ∧
      WritesReg rd (u32 ((s.readReg rs).toNat - (s.readReg rt).toNat)) [rs, rt] s t)

/-- R135 to R138: `and`, `or`, `xor`, `nor` write the bitwise result. -/
def Obligations.BitwiseInstructionsWriteTheirResult : Prop :=
  ∀ (rd rs rt : RegOp) (s : State),
    (∃ t, exec (.and rd rs rt) s = .next t ∧ WritesReg rd (s.readReg rs &&& s.readReg rt) [rs, rt] s t) ∧
    (∃ t, exec (.or rd rs rt) s = .next t ∧ WritesReg rd (s.readReg rs ||| s.readReg rt) [rs, rt] s t) ∧
    (∃ t, exec (.xor rd rs rt) s = .next t ∧ WritesReg rd (s.readReg rs ^^^ s.readReg rt) [rs, rt] s t) ∧
    (∃ t, exec (.nor rd rs rt) s = .next t ∧ WritesReg rd (~~~(s.readReg rs ||| s.readReg rt)) [rs, rt] s t)

/-- R139, R140: `slt` and `sltu` write exactly 1 or 0. -/
def Obligations.ComparisonsWriteOneOrZero : Prop :=
  ∀ (rd rs rt : RegOp) (s : State),
    (∃ t, exec (.slt rd rs rt) s = .next t ∧
      WritesReg rd (if s32 (s.readReg rs) < s32 (s.readReg rt) then 1#32 else 0#32) [rs, rt] s t) ∧
    (∃ t, exec (.sltu rd rs rt) s = .next t ∧
      WritesReg rd (if (s.readReg rs).toNat < (s.readReg rt).toNat then 1#32 else 0#32) [rs, rt] s t)

/-- R141, R142, R146, R147: the immediate instructions with a signed field Out of range under the other settings of
`IMM_WIDE`: `ImmediateFieldsFollowImmWide`. -/
def Obligations.SignedImmediateInstructions : Prop :=
  ∀ (rt rs : RegOp) (imm : ValOp) (s : State),
    RangedImmediate (-32768) 32767 imm (.addi rt rs imm) s
      (fun n t => WritesReg rt (u32 ((s.readReg rs).toNat + n)) [rs] s t) ∧
    RangedImmediate (-32768) 32767 imm (.addiu rt rs imm) s
      (fun n t => WritesReg rt (u32 ((s.readReg rs).toNat + n)) [rs] s t) ∧
    RangedImmediate (-32768) 32767 imm (.slti rt rs imm) s
      (fun n t => WritesReg rt (if s32 (s.readReg rs) < n then 1#32 else 0#32) [rs] s t) ∧
    RangedImmediate (-32768) 32767 imm (.sltiu rt rs imm) s
      (fun n t => WritesReg rt (if (s.readReg rs).toNat < (u32 n).toNat then 1#32 else 0#32) [rs] s t)

/-- R143 to R145, R148: the immediate instructions with a logical field Out of range under the other settings of
`IMM_WIDE`: `ImmediateFieldsFollowImmWide`. -/
def Obligations.LogicalImmediateInstructions : Prop :=
  ∀ (rt rs : RegOp) (imm : ValOp) (s : State),
    RangedImmediate 0 65535 imm (.andi rt rs imm) s
      (fun n t => WritesReg rt (s.readReg rs &&& BitVec.ofNat 32 n.toNat) [rs] s t) ∧
    RangedImmediate 0 65535 imm (.ori rt rs imm) s
      (fun n t => WritesReg rt (s.readReg rs ||| BitVec.ofNat 32 n.toNat) [rs] s t) ∧
    RangedImmediate 0 65535 imm (.xori rt rs imm) s
      (fun n t => WritesReg rt (s.readReg rs ^^^ BitVec.ofNat 32 n.toNat) [rs] s t) ∧
    RangedImmediate 0 65535 imm (.lui rt imm) s
      (fun n t => WritesReg rt (u32 (n * 65536)) [] s t)

/-! Multiply and divide (41_muldiv.md). -/

/-- R161, R162, R167(a): `HI ++ LO` is the exact product under the instruction's signedness. -/
def Obligations.MultiplyGivesTheExactProduct : Prop :=
  ∀ (rs rt : RegOp) (s : State),
    (∃ t, exec (.mult rs rt) s = .next t ∧ WritesHiLo t.hi t.lo [rs, rt] s t ∧
      (t.hi ++ t.lo).toInt = s32 (s.readReg rs) * s32 (s.readReg rt)) ∧
    (∃ t, exec (.multu rs rt) s = .next t ∧ WritesHiLo t.hi t.lo [rs, rt] s t ∧
      (t.hi ++ t.lo).toNat = (s.readReg rs).toNat * (s.readReg rt).toNat)

/-- R163: `div` keeps HI and LO on a zero divisor; ends as `DIV_OVERFLOW` says on its one overflow; else the quotient
truncates toward zero and the remainder has the dividend's sign. The overflow case is the spec's own decision D20. -/
def Obligations.SignedDivideTruncates : Prop :=
  ∀ (rs rt : RegOp) (s : State),
    (s32 (s.readReg rt) = 0 → ∃ t, exec (.div rs rt) s = .next t ∧ WritesHiLo s.hi s.lo [rs, rt] s t) ∧
    (s32 (s.readReg rs) = -(2 ^ 31) → s32 (s.readReg rt) = -1 → s.cfg.divOverflow = .fault →
      exec (.div rs rt) s = .fault .divideOverflow) ∧
    (s32 (s.readReg rt) ≠ 0 → ¬(s32 (s.readReg rs) = -(2 ^ 31) ∧ s32 (s.readReg rt) = -1) →
      ∃ t, exec (.div rs rt) s = .next t ∧ WritesHiLo t.hi t.lo [rs, rt] s t ∧
        s32 (s.readReg rs) = s32 t.lo * s32 (s.readReg rt) + s32 t.hi ∧
        (s32 t.hi).natAbs < (s32 (s.readReg rt)).natAbs ∧
        (s32 t.hi = 0 ∨ (s32 t.hi < 0 ↔ s32 (s.readReg rs) < 0)))

/-- R164: `divu`, with its zero-divisor case. -/
def Obligations.UnsignedDivideGivesQuotientAndRemainder : Prop :=
  ∀ (rs rt : RegOp) (s : State),
    ((s.readReg rt).toNat = 0 → ∃ t, exec (.divu rs rt) s = .next t ∧ WritesHiLo s.hi s.lo [rs, rt] s t) ∧
    ((s.readReg rt).toNat ≠ 0 → ∃ t, exec (.divu rs rt) s = .next t ∧ WritesHiLo t.hi t.lo [rs, rt] s t ∧
      t.lo.toNat = (s.readReg rs).toNat / (s.readReg rt).toNat ∧
      t.hi.toNat = (s.readReg rs).toNat % (s.readReg rt).toNat)

/-- R165, R166: `mfhi` and `mflo` copy HI and LO. -/
def Obligations.MovesFromHiAndLo : Prop :=
  ∀ (rd : RegOp) (s : State),
    (∃ t, exec (.mfhi rd) s = .next t ∧ WritesReg rd s.hi [] s t) ∧
    (∃ t, exec (.mflo rd) s = .next t ∧ WritesReg rd s.lo [] s t)

/-! Shifts (42_shift.md). -/

/-- R170 to R173: multiplication, unsigned floor division, signed floor division by a power of two; amounts outside
0..31 are refused but under `truncate16`, for which see `ImmediateFieldsFollowImmWide`. -/
def Obligations.ShiftsScaleByPowersOfTwo : Prop :=
  ∀ (rd rt : RegOp) (shamt : ValOp) (s : State),
    RangedImmediate 0 31 shamt (.sll rd rt shamt) s
      (fun n t => WritesReg rd (u32 ((s.readReg rt).toNat * 2 ^ n.toNat)) [rt] s t) ∧
    RangedImmediate 0 31 shamt (.srl rd rt shamt) s
      (fun n t => WritesReg rd (BitVec.ofNat 32 ((s.readReg rt).toNat / 2 ^ n.toNat)) [rt] s t) ∧
    RangedImmediate 0 31 shamt (.sra rd rt shamt) s
      (fun n t => WritesReg rd (u32 (Int.fdiv (s32 (s.readReg rt)) (2 ^ n.toNat))) [rt] s t) ∧
    (∀ n : Int, s.resolveImm shamt = .ok n → ¬(0 ≤ n ∧ n ≤ 31) → s.cfg.immWide = .full32 →
      exec (.sll rd rt shamt) s = .refused .immediateOutOfRange ∧
      exec (.srl rd rt shamt) s = .refused .immediateOutOfRange ∧
      exec (.sra rd rt shamt) s = .refused .immediateOutOfRange)

/-! Loads and stores (43_loadstore.md). -/

/-- R180: the effective address, its sum wrapping (the spec's own decision D14), and the offset outside its range (D5). -/
def Obligations.EffectiveAddressIsBasePlusOffset : Prop :=
  ∀ (s : State) (base : RegOp) (off : ValOp),
    s.effAddr none base = .ok (s.readReg base) ∧
    (∀ n : Int, s.resolveImm off = .ok n → -32768 ≤ n → n ≤ 32767 →
      s.effAddr (some off) base = .ok (u32 ((s.readReg base).toNat + n))) ∧
    (∀ n : Int, s.resolveImm off = .ok n → ¬(-32768 ≤ n ∧ n ≤ 32767) → s.cfg.immWide = .refuse →
      s.effAddr (some off) base = .refused .immediateOutOfRange) ∧
    (∀ n m : Int, s.resolveImm off = .ok n → ¬(-32768 ≤ n ∧ n ≤ 32767) → wideOperand s.cfg.immWide .signed16 n = some m →
      s.effAddr (some off) base = .ok (u32 ((s.readReg base).toNat + m))) ∧
    (∀ tok, s.resolveImm off = .fault (.numericConversion tok) →
      s.effAddr (some off) base = .fault (.numericConversion tok))

/-- R182 to R186: the loads, sign- or zero-extended. -/
def Obligations.LoadsReadAndExtend : Prop :=
  ∀ (rt : RegOp) (off : Option ValOp) (base : RegOp) (s : State),
    AtAddress off base (.lw rt off base) s
      (fun a t => WritesReg rt (BitVec.ofNat 32 (memValue s a 4)) [base] s t) ∧
    AtAddress off base (.lh rt off base) s
      (fun a t => WritesReg rt (u32 (signedOf 16 (memValue s a 2))) [base] s t) ∧
    AtAddress off base (.lhu rt off base) s
      (fun a t => WritesReg rt (BitVec.ofNat 32 (memValue s a 2)) [base] s t) ∧
    AtAddress off base (.lb rt off base) s
      (fun a t => WritesReg rt (u32 (signedOf 8 (memValue s a 1))) [base] s t) ∧
    AtAddress off base (.lbu rt off base) s
      (fun a t => WritesReg rt (BitVec.ofNat 32 (memValue s a 1)) [base] s t)

/-- R187 to R189: the stores write exactly their bytes at the effective address. -/
def Obligations.StoresWriteExactlyTheirBytes : Prop :=
  ∀ (rt : RegOp) (off : Option ValOp) (base : RegOp) (s : State), Memory.wf s.mem = true →
    AtAddress off base (.sw rt off base) s (fun a t => WritesMem a 4 (s.readReg rt) [base, rt] s t) ∧
    AtAddress off base (.sh rt off base) s (fun a t => WritesMem a 2 (s.readReg rt) [base, rt] s t) ∧
    AtAddress off base (.sb rt off base) s (fun a t => WritesMem a 1 (s.readReg rt) [base, rt] s t)

/-! Branches (44_branch.md). -/

/-- R203 to R208: the two-register branches, with R201's target. That a branch not taken completes whatever its target, a
number out of range included, is the model's choice (log entry 9). -/
def Obligations.TwoRegisterBranches : Prop :=
  ∀ (i j : Fin 32) (target : ValOp) (s : State),
    BranchesIf (s.x i = s.x j) target (.beq (.valid i) (.valid j) target) s ∧
    BranchesIf (s.x i ≠ s.x j) target (.bne (.valid i) (.valid j) target) s ∧
    BranchesIf (s32 (s.x i) < s32 (s.x j)) target (.blt (.valid i) (.valid j) target) s ∧
    BranchesIf (s32 (s.x i) ≤ s32 (s.x j)) target (.ble (.valid i) (.valid j) target) s ∧
    BranchesIf (s32 (s.x j) < s32 (s.x i)) target (.bgt (.valid i) (.valid j) target) s ∧
    BranchesIf (s32 (s.x j) ≤ s32 (s.x i)) target (.bge (.valid i) (.valid j) target) s

/-- R209 to R212: the compare-with-zero branches, by bit 31 and zero. That a branch not taken completes whatever its
target, a number out of range included, is the model's choice (log entry 9). -/
def Obligations.CompareWithZeroBranches : Prop :=
  ∀ (i : Fin 32) (target : ValOp) (s : State),
    BranchesIf ((s.x i).msb = true) target (.bltz (.valid i) target) s ∧
    BranchesIf ((s.x i).msb = true ∨ s.x i = 0#32) target (.blez (.valid i) target) s ∧
    BranchesIf ((s.x i).msb = false ∧ s.x i ≠ 0#32) target (.bgtz (.valid i) target) s ∧
    BranchesIf ((s.x i).msb = false) target (.bgez (.valid i) target) s

/-- R202, R226: an invalid designator in a branch or `jr` is refused (the spec's own decision D21). -/
def Obligations.InvalidRegisterInControlTransferIsRefused : Prop :=
  ∀ (tok : Token) (d : RegOp) (target : ValOp) (s : State) (rs rt : RegOp),
    (rs = .invalid tok ∧ rt = d ∨ rs = d ∧ rt = .invalid tok) →
    exec (.beq rs rt target) s = .refused .invalidRegisterInControlTransfer ∧
    exec (.bne rs rt target) s = .refused .invalidRegisterInControlTransfer ∧
    exec (.blt rs rt target) s = .refused .invalidRegisterInControlTransfer ∧
    exec (.ble rs rt target) s = .refused .invalidRegisterInControlTransfer ∧
    exec (.bgt rs rt target) s = .refused .invalidRegisterInControlTransfer ∧
    exec (.bge rs rt target) s = .refused .invalidRegisterInControlTransfer ∧
    exec (.bltz (.invalid tok) target) s = .refused .invalidRegisterInControlTransfer ∧
    exec (.blez (.invalid tok) target) s = .refused .invalidRegisterInControlTransfer ∧
    exec (.bgtz (.invalid tok) target) s = .refused .invalidRegisterInControlTransfer ∧
    exec (.bgez (.invalid tok) target) s = .refused .invalidRegisterInControlTransfer ∧
    exec (.jr (.invalid tok)) s = .refused .invalidRegisterInControlTransfer

/-! Jumps (45_jump.md). -/

/-- R221, R222, R224: `j`, and `jr` for every register and every value in it. -/
def Obligations.JumpsGoToTheirTarget : Prop :=
  ∀ (target : ValOp) (s : State),
    (∀ i : Fin 32, ∃ t, exec (.jr (.valid i)) s = .next t ∧ JumpsTo (s.x i) [] s t) ∧
    (∀ a l, jumpGoal s target = some (a, l) → ∃ t, exec (.j target) s = .next t ∧ JumpsTo a l s t) ∧
    (∀ tok, target = .wide tok → exec (.j target) s = .fault (.numericConversion tok))

/-- R221, R223: `jal` links to `pc0 + 4` in register 31 and jumps. -/
def Obligations.JumpAndLinkSavesTheNextSlot : Prop :=
  ∀ (target : ValOp) (s : State),
    (∀ a l, jumpGoal s target = some (a, l) → ∃ t, exec (.jal target) s = .next t ∧ t.pc = a ∧ Logged l s t ∧
      (∀ i : Fin 32, t.x i = if i = 31 then s.pc + 4#32 else s.x i) ∧ SameHiLo s t ∧ SameMemory s t ∧ RestSame s t) ∧
    (∀ tok, target = .wide tok → exec (.jal target) s = .fault (.numericConversion tok))

/-! Pseudo-instructions (46_pseudo.md). -/

/-- R231: both paths of `li` give the same 32-bit pattern, and `li` writes it. -/
def Obligations.LoadImmediateGivesThePattern : Prop :=
  (∀ n : Int, liValue n = u32 n) ∧
  ∀ (rd : RegOp) (imm : ValOp) (s : State),
    (∀ n : Int, s.resolveImm imm = .ok n → ∃ t, exec (.li rd imm) s = .next t ∧ WritesReg rd (u32 n) [] s t) ∧
    (∀ tok, s.resolveImm imm = .fault (.numericConversion tok) → exec (.li rd imm) s = .fault (.numericConversion tok))

/-- R232: `la`, with the fallback to its own address. -/
def Obligations.LoadAddressResolvesItsTarget : Prop :=
  ∀ (rd : RegOp) (target : ValOp) (s : State),
    (∀ a l, addressGoal s target = some (a, l) → ∃ t, exec (.la rd target) s = .next t ∧ t.pc = s.pc + 4#32 ∧
      (∀ i : Fin 32, t.x i = if rd = .valid i ∧ i ≠ 0 then a else s.x i) ∧
      Logged (l ++ operandErrors [rd]) s t ∧ SameHiLo s t ∧ SameMemory s t ∧ RestSame s t) ∧
    (∀ tok, target = .wide tok → exec (.la rd target) s = .fault (.numericConversion tok))

/-- R233 to R235: `move`, `clear`, `not`. -/
def Obligations.MoveClearAndNot : Prop :=
  ∀ (rd rs : RegOp) (s : State),
    (∃ t, exec (.move rd rs) s = .next t ∧ WritesReg rd (s.readReg rs) [rs] s t) ∧
    (∃ t, exec (.clear rd) s = .next t ∧ WritesReg rd 0#32 [] s t) ∧
    (∃ t, exec (.not rd rs) s = .next t ∧
      WritesReg rd (BitVec.ofNat 32 (2 ^ 32 - 1 - (s.readReg rs).toNat)) [rs] s t)

/-! System call and no-operation (47_system.md). -/

/-- R243, R250: print integer and print character append their bytes to the console output (the forms
are the spec's own decision D19). -/
def Obligations.PrintIntegerAndCharacter : Prop :=
  ∀ s : State,
    (s.x 2 = 1#32 → ∃ t text, exec .syscall s = .next t ∧ IsDecimal (s32 (s.x 4)) text ∧
      t.conOut = s.conOut ++ text ∧ t.conIn = s.conIn ∧ t.heapPtr = s.heapPtr ∧ SameRegs s t ∧ SameMemory s t ∧
      ServiceFrame s t) ∧
    (s.x 2 = 11#32 → ∃ t, exec .syscall s = .next t ∧
      t.conOut = s.conOut ++ [BitVec.ofNat 8 ((s.x 4).toNat % 256)] ∧ t.conIn = s.conIn ∧ t.heapPtr = s.heapPtr ∧
      SameRegs s t ∧ SameMemory s t ∧ ServiceFrame s t)

/-- R244: print string writes the bytes before the first zero byte, for any string in any memory, the scan wrapping at
the top (the spec's own decision D14). -/
def Obligations.PrintStringStopsAtTheZeroByte : Prop :=
  ∀ (s : State) (bs : List Byte), s.x 2 = 4#32 →
    (∀ k (h : k < bs.length), s.readByte (s.x 4 + BitVec.ofNat 32 k) = bs[k] ∧ bs[k] ≠ 0#8) →
    s.readByte (s.x 4 + BitVec.ofNat 32 bs.length) = 0#8 →
    ∃ t, exec .syscall s = .next t ∧ t.conOut = s.conOut ++ bs ∧ t.conIn = s.conIn ∧ t.heapPtr = s.heapPtr ∧
      SameRegs s t ∧ SameMemory s t ∧ ServiceFrame s t

/-- R245, R251: read integer and read character put the console's answer into register 2 (the spec's own decisions D15,
D18, D19; the queues are log entry 6). -/
def Obligations.ReadIntegerAndCharacter : Prop :=
  ∀ s : State,
    (∀ v rest, s.x 2 = 5#32 → s.conIn.ints = .value v :: rest → ∃ t, exec .syscall s = .next t ∧ WritesV0 v s t ∧
      t.conIn.ints = rest ∧ t.conIn.lines = s.conIn.lines ∧ t.conIn.chars = s.conIn.chars ∧ t.conOut = s.conOut ∧
      t.heapPtr = s.heapPtr ∧ SameMemory s t ∧ ServiceFrame s t) ∧
    (∀ c rest, s.x 2 = 12#32 → s.conIn.chars = .value c :: rest → ∃ t, exec .syscall s = .next t ∧
      WritesV0 (BitVec.ofNat 32 c.toNat) s t ∧
      t.conIn.chars = rest ∧ t.conIn.lines = s.conIn.lines ∧ t.conIn.ints = s.conIn.ints ∧ t.conOut = s.conOut ∧
      t.heapPtr = s.heapPtr ∧ SameMemory s t ∧ ServiceFrame s t)

/-- R247: read string stores `min(|L|, maxLen - 1)` bytes of the line and a zero byte, and nothing else
(the spec's own decision D18: the terminator is not stored; that the line leaves a queue of its own and the other two
stay is log entry 6). -/
def Obligations.ReadStringStoresALine : Prop :=
  ∀ (s : State) (txt : List Byte) (rest : List LineDraw), Memory.wf s.mem = true → s.x 2 = 8#32 →
    1 ≤ s32 (s.x 5) → s.conIn.lines = .value txt :: rest →
    ∃ t, exec .syscall s = .next t ∧
      (∀ k (h : k < txt.length), k < (s32 (s.x 5) - 1).toNat → t.readByte (s.x 4 + BitVec.ofNat 32 k) = txt[k]) ∧
      t.readByte (s.x 4 + BitVec.ofNat 32 (min txt.length (s32 (s.x 5) - 1).toNat)) = 0#8 ∧
      (∀ b : Word, (∀ k ≤ min txt.length (s32 (s.x 5) - 1).toNat, b ≠ s.x 4 + BitVec.ofNat 32 k) →
        t.readByte b = s.readByte b) ∧
      t.conIn.lines = rest ∧ t.conIn.ints = s.conIn.ints ∧ t.conIn.chars = s.conIn.chars ∧ t.conOut = s.conOut ∧
      t.heapPtr = s.heapPtr ∧ SameRegs s t ∧ ServiceFrame s t

/-- R248: allocate returns the old heap pointer and advances it by the unsigned count, modulo 2^32 (the
spec's own decision D17). -/
def Obligations.AllocateBumpsTheHeapPointer : Prop :=
  ∀ s : State, s.x 2 = 9#32 → ∃ t, exec .syscall s = .next t ∧ WritesV0 s.heapPtr s t ∧
    t.heapPtr = BitVec.ofNat 32 (s.heapPtr.toNat + (s.x 4).toNat) ∧ SameConsole s t ∧ SameMemory s t ∧
    ServiceFrame s t

/-- R249: exit halts the engine and changes no register or memory. Nothing is said of `pc`. -/
def Obligations.ExitHaltsTheEngine : Prop :=
  ∀ s : State, s.x 2 = 10#32 → ∃ t, exec .syscall s = .next t ∧ t.eng = .halted ∧ SameRegs s t ∧ SameHiLo s t ∧
    SameMemory s t ∧ t.heapPtr = s.heapPtr ∧ SameConsole s t ∧ SameProgram s t ∧ t.diags = s.diags ∧
    step t = .next t

/-- R252: any other number logs E3 and changes no state; that the pc advances (R253) is the spec's own decision D16. -/
def Obligations.UnsupportedSyscallLogsAndContinues : Prop :=
  ∀ s : State,
    s.x 2 ≠ 1#32 → s.x 2 ≠ 4#32 → s.x 2 ≠ 5#32 → s.x 2 ≠ 8#32 → s.x 2 ≠ 9#32 → s.x 2 ≠ 10#32 → s.x 2 ≠ 11#32 →
    s.x 2 ≠ 12#32 →
    ∃ t, exec .syscall s = .next t ∧ t.pc = s.pc + 4#32 ∧ t.diags = s.diags ++ [.unsupportedSyscall (s.x 2)] ∧
      SameRegs s t ∧ SameHiLo s t ∧ SameMemory s t ∧ RestSame s t

/-- R242, R246, R247 (the spec's own decision D18, log entries 6 and 27): a read the console has not answered changes no
state, and end of input, a malformed integer and a `maxLen` below 1 are faults. -/
def Obligations.UnansweredAndFailedReads : Prop :=
  ∀ s : State,
    (s.x 2 = 5#32 → s.conIn.ints = [] → exec .syscall s = .next s) ∧
    (s.x 2 = 12#32 → s.conIn.chars = [] → exec .syscall s = .next s) ∧
    (s.x 2 = 8#32 → 1 ≤ s32 (s.x 5) → s.conIn.lines = [] → exec .syscall s = .next s) ∧
    (∀ rest, s.x 2 = 5#32 → s.conIn.ints = .endOfInput :: rest → exec .syscall s = .fault .consoleEndOfInput) ∧
    (∀ rest, s.x 2 = 5#32 → s.conIn.ints = .malformed :: rest → exec .syscall s = .fault .consoleMalformed) ∧
    (∀ rest, s.x 2 = 12#32 → s.conIn.chars = .endOfInput :: rest → exec .syscall s = .fault .consoleEndOfInput) ∧
    (∀ rest, s.x 2 = 8#32 → 1 ≤ s32 (s.x 5) → s.conIn.lines = .endOfInput :: rest →
      exec .syscall s = .fault .consoleEndOfInput) ∧
    (s.x 2 = 8#32 → s32 (s.x 5) < 1 → exec .syscall s = .fault .readStringLength)

/-- R254: `nop` advances the pc and changes nothing else. -/
def Obligations.NopOnlyAdvances : Prop :=
  ∀ s : State, ∃ t, exec .nop s = .next t ∧ AdvancesOnly s t

/-! The loader (30_encoding.md R97 to R111). -/

/-- R107: `load` is accepted only on a freshly reset engine. Where the pass over the lines succeeds, the engine holds the
slots, labels and bytes the pass ends with, and `load` reports the counts, points `pc` at slot 0 of a `Ready` engine and
leaves registers, HI, LO, heap pointer, console and diagnostics alone. A parse failure in the pass is a load error that
carries the token (R105; the spec's own decision D13); what `IS`, `LT` and `MEM` then hold is left open (R282; log
entry 13). The pass starts as R106 says (D26) and takes the lines one after another (R111), each by R97 to R99. That a
visibility directive is refused in the data section is D26 (log entry 30). -/
def Obligations.LoadSetsUpTheProgram : Prop :=
  ∀ (s : State) (text : List Char),
    (¬(s.phase = .fresh ∧ s.eng = .ready) → s.load text = .refused .notFresh) ∧
    (∀ t n m, s.load text = .loaded t n m →
      n = t.slots.length ∧ m = t.labels.length ∧ t.pc = s.cfg.textBase ∧ t.eng = .ready ∧ t.cfg = s.cfg ∧
      SameRegs s t ∧ SameHiLo s t ∧ SameHeap s t ∧ SameConsole s t ∧ t.diags = s.diags) ∧
    (s.phase = .fresh → s.eng = .ready → text.all isSourceChar = true →
      (∀ l, (Loader.start s.cfg).pass s.cfg (linesFrom [] text) = .ok l →
        ∃ t, s.load text = .loaded t l.slots.length l.labels.length ∧
          t.slots = l.slots ∧ t.labels = l.labels ∧ t.mem = l.mem ∧ t.phase = .loaded) ∧
      (∀ tok, (Loader.start s.cfg).pass s.cfg (linesFrom [] text) = .error tok → ∃ t, s.load text = .error t tok)) ∧
    Loader.start s.cfg = { sect := .text, cursor := s.cfg.dataBase, slots := [], labels := [], mem := [] } ∧
    ∀ l : Loader, l.pass s.cfg [] = .ok l ∧
      ∀ line : List Char,
        (∀ (l' : Loader) (rest : List (List Char)), l.line s.cfg line = .ok l' →
          l.pass s.cfg (line :: rest) = l'.pass s.cfg rest) ∧
        (cleanLine line = [] → l.line s.cfg line = .ok l) ∧
        (cleanLine line ≠ [] →
          l.line s.cfg line =
            let first := (tokenize (cleanLine line)).head?
            if first = some ".text".toList then .ok { l with sect := .text }
            else if first = some ".data".toList then .ok { l with sect := .data }
            else if first = some ".globl".toList ∨ first = some ".global".toList then
              if l.sect = .text then .ok l else .refused .unknownDirective
            else l.labelled s.cfg (cleanLine line))

/-- R101, R102, R104, R105: `.word` and `.byte` on any number of values, `.space` on one, each a number or a label defined
so far, and the load error of any other token, which ends the pass (that the cursor is not aligned, that `.byte` takes the
low 8 bits and that `.space` writes nothing is the spec's own decision D26). -/
def Obligations.DataDirectivesFillMemory : Prop :=
  ∀ (l : Loader) (args : List Token), Memory.wf l.mem = true → args.all tokenClosed = true →
    (∀ values : List Int, List.Forall₂ (LoadsValue l) args values →
      (4 * values.length ≤ 2 ^ 32 → ∃ l', l.dataLine (".word".toList :: args) = .ok l' ∧
        StoresAtCursor (values.flatMap fun n => (List.range 4).map fun k => (u32 n).extractLsb' (8 * k) 8) l l') ∧
      (values.length ≤ 2 ^ 32 → ∃ l', l.dataLine (".byte".toList :: args) = .ok l' ∧
        StoresAtCursor (values.map fun n => BitVec.ofNat 8 ((u32 n).toNat % 256)) l l') ∧
      (∀ n, values = [n] →
        l.dataLine (".space".toList :: args) = .ok { l with cursor := u32 (l.cursor.toNat + n) })) ∧
    (∀ (before after : List Token) (tok : Token) (values : List Int), args = before ++ tok :: after →
      List.Forall₂ (LoadsValue l) before values → FailsToLoad l tok →
      l.dataLine (".word".toList :: args) = .error tok ∧ l.dataLine (".byte".toList :: args) = .error tok ∧
      (args = [tok] → l.dataLine (".space".toList :: args) = .error tok)) ∧
    ∀ (cfg : Config) (line : List Char) (rest : List (List Char)) (tok : Token),
      l.line cfg line = .error tok → l.pass cfg (line :: rest) = .error tok

/-- R99, R100: a label names the cursor in the data section and the next slot's address in the text section, at once, and
the remainder of its line goes on to step 4 (that it is not looked through for another label is log entry 14). Step 4
appends a line of the text section to the instruction store, whatever its first token. -/
def Obligations.LabelsNameTheRunningAddress : Prop :=
  ∀ (cfg : Config) (l : Loader) (name : Token),
    (∀ l', l.addLabel cfg name = .ok l' →
      l'.slots = l.slots ∧ l'.mem = l.mem ∧ l'.cursor = l.cursor ∧ l'.sect = l.sect ∧
      labelLookup l'.labels name =
        some (match l.sect with
          | .data => l.cursor
          | .text => u32 (cfg.textBase.toNat + 4 * l.slots.length)) ∧
      ∀ other, other ≠ name → labelLookup l'.labels other = labelLookup l.labels other) ∧
    (∀ (l' : Loader) (remainder : List Char), ':' ∉ name → l.addLabel cfg name = .ok l' →
      l.labelled cfg (name ++ ':' :: remainder) =
        if trim remainder = [] then .ok l' else l'.place cfg (trim remainder)) ∧
    ∀ line : List Char,
      (':' ∉ line → l.labelled cfg line = l.place cfg line) ∧
      (l.sect = .text → l.slots.length < cfg.slotLimit →
        l.place cfg line = .ok { l with slots := l.slots ++ [tokenize line] }) ∧
      (l.sect = .data → l.place cfg line = l.dataLine (tokenize line))

/-- R103: `.ascii` and `.asciiz` store the text between the first and the last double quote of their rejoined arguments,
escapes translated, `.asciiz` with a zero byte after it, and move the cursor past it. With fewer than two double quotes
nothing is stored and the cursor stays. -/
def Obligations.StringDirectivesStoreTheirText : Prop :=
  ∀ (l : Loader) (args : List Token), Memory.wf l.mem = true →
    (args.all tokenClosed = true →
      l.dataLine (".ascii".toList :: args) = .ok (l.string [] args) ∧
      l.dataLine (".asciiz".toList :: args) = .ok (l.string [0#8] args)) ∧
    ∀ terminator : List Byte,
      (([' '].intercalate args).count '"' < 2 → l.string terminator args = l) ∧
      ∀ (before text after : List Char) (bytes : List Byte),
        [' '].intercalate args = before ++ '"' :: (text ++ '"' :: after) → '"' ∉ before → '"' ∉ after →
        StoredText text bytes → (bytes ++ terminator).length ≤ 2 ^ 32 →
        StoresAtCursor (bytes ++ terminator) l (l.string terminator args)
end

