-- ==== Sys2Proof/Laws/State.lean ====
section
/-! SUPPORT. One lemma per field per update of the state, so that no later proof unfolds a record update. -/

namespace Sys2Proof.Machine

/-! `State.log`. -/

@[simp] theorem State.log_cfg (s : State) (d : Diag) : (s.log d).cfg = s.cfg := rfl
@[simp] theorem State.log_regs (s : State) (d : Diag) : (s.log d).regs = s.regs := rfl
@[simp] theorem State.log_hi (s : State) (d : Diag) : (s.log d).hi = s.hi := rfl
@[simp] theorem State.log_lo (s : State) (d : Diag) : (s.log d).lo = s.lo := rfl
@[simp] theorem State.log_pc (s : State) (d : Diag) : (s.log d).pc = s.pc := rfl
@[simp] theorem State.log_eng (s : State) (d : Diag) : (s.log d).eng = s.eng := rfl
@[simp] theorem State.log_heapPtr (s : State) (d : Diag) : (s.log d).heapPtr = s.heapPtr := rfl
@[simp] theorem State.log_mem (s : State) (d : Diag) : (s.log d).mem = s.mem := rfl
@[simp] theorem State.log_slots (s : State) (d : Diag) : (s.log d).slots = s.slots := rfl
@[simp] theorem State.log_labels (s : State) (d : Diag) : (s.log d).labels = s.labels := rfl
@[simp] theorem State.log_phase (s : State) (d : Diag) : (s.log d).phase = s.phase := rfl
@[simp] theorem State.log_conOut (s : State) (d : Diag) : (s.log d).conOut = s.conOut := rfl
@[simp] theorem State.log_conIn (s : State) (d : Diag) : (s.log d).conIn = s.conIn := rfl
@[simp] theorem State.log_diags (s : State) (d : Diag) : (s.log d).diags = s.diags ++ [d] := rfl
@[simp] theorem State.log_freeCount (s : State) (d : Diag) : (s.log d).freeCount = s.freeCount := rfl

/-! `State.setHiLo`. -/

@[simp] theorem State.setHiLo_cfg (s : State) (hi lo : Word) : (s.setHiLo hi lo).cfg = s.cfg := rfl
@[simp] theorem State.setHiLo_regs (s : State) (hi lo : Word) : (s.setHiLo hi lo).regs = s.regs := rfl
@[simp] theorem State.setHiLo_hi (s : State) (hi lo : Word) : (s.setHiLo hi lo).hi = hi := rfl
@[simp] theorem State.setHiLo_lo (s : State) (hi lo : Word) : (s.setHiLo hi lo).lo = lo := rfl
@[simp] theorem State.setHiLo_pc (s : State) (hi lo : Word) : (s.setHiLo hi lo).pc = s.pc := rfl
@[simp] theorem State.setHiLo_eng (s : State) (hi lo : Word) : (s.setHiLo hi lo).eng = s.eng := rfl
@[simp] theorem State.setHiLo_heapPtr (s : State) (hi lo : Word) : (s.setHiLo hi lo).heapPtr = s.heapPtr := rfl
@[simp] theorem State.setHiLo_mem (s : State) (hi lo : Word) : (s.setHiLo hi lo).mem = s.mem := rfl
@[simp] theorem State.setHiLo_slots (s : State) (hi lo : Word) : (s.setHiLo hi lo).slots = s.slots := rfl
@[simp] theorem State.setHiLo_labels (s : State) (hi lo : Word) : (s.setHiLo hi lo).labels = s.labels := rfl
@[simp] theorem State.setHiLo_phase (s : State) (hi lo : Word) : (s.setHiLo hi lo).phase = s.phase := rfl
@[simp] theorem State.setHiLo_conOut (s : State) (hi lo : Word) : (s.setHiLo hi lo).conOut = s.conOut := rfl
@[simp] theorem State.setHiLo_conIn (s : State) (hi lo : Word) : (s.setHiLo hi lo).conIn = s.conIn := rfl
@[simp] theorem State.setHiLo_diags (s : State) (hi lo : Word) : (s.setHiLo hi lo).diags = s.diags := rfl
@[simp] theorem State.setHiLo_freeCount (s : State) (hi lo : Word) : (s.setHiLo hi lo).freeCount = s.freeCount := rfl

/-! `State.goTo`. -/

@[simp] theorem State.goTo_cfg (s : State) (a : Word) : (s.goTo a).cfg = s.cfg := rfl
@[simp] theorem State.goTo_regs (s : State) (a : Word) : (s.goTo a).regs = s.regs := rfl
@[simp] theorem State.goTo_hi (s : State) (a : Word) : (s.goTo a).hi = s.hi := rfl
@[simp] theorem State.goTo_lo (s : State) (a : Word) : (s.goTo a).lo = s.lo := rfl
@[simp] theorem State.goTo_pc (s : State) (a : Word) : (s.goTo a).pc = a := rfl
@[simp] theorem State.goTo_eng (s : State) (a : Word) : (s.goTo a).eng = .running := rfl
@[simp] theorem State.goTo_heapPtr (s : State) (a : Word) : (s.goTo a).heapPtr = s.heapPtr := rfl
@[simp] theorem State.goTo_mem (s : State) (a : Word) : (s.goTo a).mem = s.mem := rfl
@[simp] theorem State.goTo_slots (s : State) (a : Word) : (s.goTo a).slots = s.slots := rfl
@[simp] theorem State.goTo_labels (s : State) (a : Word) : (s.goTo a).labels = s.labels := rfl
@[simp] theorem State.goTo_phase (s : State) (a : Word) : (s.goTo a).phase = s.phase := rfl
@[simp] theorem State.goTo_conOut (s : State) (a : Word) : (s.goTo a).conOut = s.conOut := rfl
@[simp] theorem State.goTo_conIn (s : State) (a : Word) : (s.goTo a).conIn = s.conIn := rfl
@[simp] theorem State.goTo_diags (s : State) (a : Word) : (s.goTo a).diags = s.diags := rfl
@[simp] theorem State.goTo_freeCount (s : State) (a : Word) : (s.goTo a).freeCount = s.freeCount := rfl

/-! `State.advance`. -/

@[simp] theorem State.advance_cfg (s : State) : (s.advance).cfg = s.cfg := rfl
@[simp] theorem State.advance_regs (s : State) : (s.advance).regs = s.regs := rfl
@[simp] theorem State.advance_hi (s : State) : (s.advance).hi = s.hi := rfl
@[simp] theorem State.advance_lo (s : State) : (s.advance).lo = s.lo := rfl
/-- The next slot's address: 30_encoding.md R80 puts slots 4 apart. -/
@[simp] theorem State.nextSlot_eq (s : State) : s.nextSlot = s.pc + 4#32 := rfl

@[simp] theorem State.advance_pc (s : State) : (s.advance).pc = s.pc + 4#32 := rfl
@[simp] theorem State.advance_eng (s : State) : (s.advance).eng = .running := rfl
@[simp] theorem State.advance_heapPtr (s : State) : (s.advance).heapPtr = s.heapPtr := rfl
@[simp] theorem State.advance_mem (s : State) : (s.advance).mem = s.mem := rfl
@[simp] theorem State.advance_slots (s : State) : (s.advance).slots = s.slots := rfl
@[simp] theorem State.advance_labels (s : State) : (s.advance).labels = s.labels := rfl
@[simp] theorem State.advance_phase (s : State) : (s.advance).phase = s.phase := rfl
@[simp] theorem State.advance_conOut (s : State) : (s.advance).conOut = s.conOut := rfl
@[simp] theorem State.advance_conIn (s : State) : (s.advance).conIn = s.conIn := rfl
@[simp] theorem State.advance_diags (s : State) : (s.advance).diags = s.diags := rfl
@[simp] theorem State.advance_freeCount (s : State) : (s.advance).freeCount = s.freeCount := rfl

/-! `State.unknownOpcode`. -/

@[simp] theorem State.unknownOpcode_cfg (s : State) (m : Token) : (s.unknownOpcode m).cfg = s.cfg := rfl
@[simp] theorem State.unknownOpcode_regs (s : State) (m : Token) : (s.unknownOpcode m).regs = s.regs := rfl
@[simp] theorem State.unknownOpcode_hi (s : State) (m : Token) : (s.unknownOpcode m).hi = s.hi := rfl
@[simp] theorem State.unknownOpcode_lo (s : State) (m : Token) : (s.unknownOpcode m).lo = s.lo := rfl
@[simp] theorem State.unknownOpcode_pc (s : State) (m : Token) : (s.unknownOpcode m).pc = s.pc + 4#32 := rfl
@[simp] theorem State.unknownOpcode_eng (s : State) (m : Token) : (s.unknownOpcode m).eng = .running := rfl
@[simp] theorem State.unknownOpcode_heapPtr (s : State) (m : Token) : (s.unknownOpcode m).heapPtr = s.heapPtr := rfl
@[simp] theorem State.unknownOpcode_mem (s : State) (m : Token) : (s.unknownOpcode m).mem = s.mem := rfl
@[simp] theorem State.unknownOpcode_slots (s : State) (m : Token) : (s.unknownOpcode m).slots = s.slots := rfl
@[simp] theorem State.unknownOpcode_labels (s : State) (m : Token) : (s.unknownOpcode m).labels = s.labels := rfl
@[simp] theorem State.unknownOpcode_phase (s : State) (m : Token) : (s.unknownOpcode m).phase = s.phase := rfl
@[simp] theorem State.unknownOpcode_conOut (s : State) (m : Token) : (s.unknownOpcode m).conOut = s.conOut := rfl
@[simp] theorem State.unknownOpcode_conIn (s : State) (m : Token) : (s.unknownOpcode m).conIn = s.conIn := rfl
@[simp] theorem State.unknownOpcode_diags (s : State) (m : Token) : (s.unknownOpcode m).diags = s.diags ++ [.unknownOpcode m] := rfl
@[simp] theorem State.unknownOpcode_freeCount (s : State) (m : Token) : (s.unknownOpcode m).freeCount = s.freeCount := rfl

/-! `State.noInstruction`. -/

@[simp] theorem State.noInstruction_cfg (s : State) : (s.noInstruction).cfg = s.cfg := rfl
@[simp] theorem State.noInstruction_regs (s : State) : (s.noInstruction).regs = s.regs := rfl
@[simp] theorem State.noInstruction_hi (s : State) : (s.noInstruction).hi = s.hi := rfl
@[simp] theorem State.noInstruction_lo (s : State) : (s.noInstruction).lo = s.lo := rfl
@[simp] theorem State.noInstruction_pc (s : State) : (s.noInstruction).pc = s.pc := rfl
@[simp] theorem State.noInstruction_eng (s : State) : (s.noInstruction).eng = .halted := rfl
@[simp] theorem State.noInstruction_heapPtr (s : State) : (s.noInstruction).heapPtr = s.heapPtr := rfl
@[simp] theorem State.noInstruction_mem (s : State) : (s.noInstruction).mem = s.mem := rfl
@[simp] theorem State.noInstruction_slots (s : State) : (s.noInstruction).slots = s.slots := rfl
@[simp] theorem State.noInstruction_labels (s : State) : (s.noInstruction).labels = s.labels := rfl
@[simp] theorem State.noInstruction_phase (s : State) : (s.noInstruction).phase = s.phase := rfl
@[simp] theorem State.noInstruction_conOut (s : State) : (s.noInstruction).conOut = s.conOut := rfl
@[simp] theorem State.noInstruction_conIn (s : State) : (s.noInstruction).conIn = s.conIn := rfl
@[simp] theorem State.noInstruction_diags (s : State) : (s.noInstruction).diags = s.diags ++ [.noInstruction s.pc] := rfl
@[simp] theorem State.noInstruction_freeCount (s : State) : (s.noInstruction).freeCount = s.freeCount := rfl

/-! `State.exit`. -/

@[simp] theorem State.exit_cfg (s : State) : (s.exit).cfg = s.cfg := rfl
@[simp] theorem State.exit_regs (s : State) : (s.exit).regs = s.regs := rfl
@[simp] theorem State.exit_hi (s : State) : (s.exit).hi = s.hi := rfl
@[simp] theorem State.exit_lo (s : State) : (s.exit).lo = s.lo := rfl
@[simp] theorem State.exit_eng (s : State) : (s.exit).eng = .halted := rfl
@[simp] theorem State.exit_heapPtr (s : State) : (s.exit).heapPtr = s.heapPtr := rfl
@[simp] theorem State.exit_mem (s : State) : (s.exit).mem = s.mem := rfl
@[simp] theorem State.exit_slots (s : State) : (s.exit).slots = s.slots := rfl
@[simp] theorem State.exit_labels (s : State) : (s.exit).labels = s.labels := rfl
@[simp] theorem State.exit_phase (s : State) : (s.exit).phase = s.phase := rfl
@[simp] theorem State.exit_conOut (s : State) : (s.exit).conOut = s.conOut := rfl
@[simp] theorem State.exit_conIn (s : State) : (s.exit).conIn = s.conIn := rfl
@[simp] theorem State.exit_diags (s : State) : (s.exit).diags = s.diags := rfl
@[simp] theorem State.exit_freeCount (s : State) : (s.exit).freeCount = s.freeCount + 1 := rfl

/-! `State.emit`. -/

@[simp] theorem State.emit_cfg (s : State) (bs : List Byte) : (s.emit bs).cfg = s.cfg := rfl
@[simp] theorem State.emit_regs (s : State) (bs : List Byte) : (s.emit bs).regs = s.regs := rfl
@[simp] theorem State.emit_hi (s : State) (bs : List Byte) : (s.emit bs).hi = s.hi := rfl
@[simp] theorem State.emit_lo (s : State) (bs : List Byte) : (s.emit bs).lo = s.lo := rfl
@[simp] theorem State.emit_pc (s : State) (bs : List Byte) : (s.emit bs).pc = s.pc := rfl
@[simp] theorem State.emit_eng (s : State) (bs : List Byte) : (s.emit bs).eng = s.eng := rfl
@[simp] theorem State.emit_heapPtr (s : State) (bs : List Byte) : (s.emit bs).heapPtr = s.heapPtr := rfl
@[simp] theorem State.emit_mem (s : State) (bs : List Byte) : (s.emit bs).mem = s.mem := rfl
@[simp] theorem State.emit_slots (s : State) (bs : List Byte) : (s.emit bs).slots = s.slots := rfl
@[simp] theorem State.emit_labels (s : State) (bs : List Byte) : (s.emit bs).labels = s.labels := rfl
@[simp] theorem State.emit_phase (s : State) (bs : List Byte) : (s.emit bs).phase = s.phase := rfl
@[simp] theorem State.emit_conOut (s : State) (bs : List Byte) : (s.emit bs).conOut = s.conOut ++ bs := rfl
@[simp] theorem State.emit_conIn (s : State) (bs : List Byte) : (s.emit bs).conIn = s.conIn := rfl
@[simp] theorem State.emit_diags (s : State) (bs : List Byte) : (s.emit bs).diags = s.diags := rfl
@[simp] theorem State.emit_freeCount (s : State) (bs : List Byte) : (s.emit bs).freeCount = s.freeCount := rfl

/-! `State.setHeapPtr`. -/

@[simp] theorem State.setHeapPtr_cfg (s : State) (a : Word) : (s.setHeapPtr a).cfg = s.cfg := rfl
@[simp] theorem State.setHeapPtr_regs (s : State) (a : Word) : (s.setHeapPtr a).regs = s.regs := rfl
@[simp] theorem State.setHeapPtr_hi (s : State) (a : Word) : (s.setHeapPtr a).hi = s.hi := rfl
@[simp] theorem State.setHeapPtr_lo (s : State) (a : Word) : (s.setHeapPtr a).lo = s.lo := rfl
@[simp] theorem State.setHeapPtr_pc (s : State) (a : Word) : (s.setHeapPtr a).pc = s.pc := rfl
@[simp] theorem State.setHeapPtr_eng (s : State) (a : Word) : (s.setHeapPtr a).eng = s.eng := rfl
@[simp] theorem State.setHeapPtr_heapPtr (s : State) (a : Word) : (s.setHeapPtr a).heapPtr = a := rfl
@[simp] theorem State.setHeapPtr_mem (s : State) (a : Word) : (s.setHeapPtr a).mem = s.mem := rfl
@[simp] theorem State.setHeapPtr_slots (s : State) (a : Word) : (s.setHeapPtr a).slots = s.slots := rfl
@[simp] theorem State.setHeapPtr_labels (s : State) (a : Word) : (s.setHeapPtr a).labels = s.labels := rfl
@[simp] theorem State.setHeapPtr_phase (s : State) (a : Word) : (s.setHeapPtr a).phase = s.phase := rfl
@[simp] theorem State.setHeapPtr_conOut (s : State) (a : Word) : (s.setHeapPtr a).conOut = s.conOut := rfl
@[simp] theorem State.setHeapPtr_conIn (s : State) (a : Word) : (s.setHeapPtr a).conIn = s.conIn := rfl
@[simp] theorem State.setHeapPtr_diags (s : State) (a : Word) : (s.setHeapPtr a).diags = s.diags := rfl
@[simp] theorem State.setHeapPtr_freeCount (s : State) (a : Word) : (s.setHeapPtr a).freeCount = s.freeCount := rfl

/-! `State.dropInt`. -/

@[simp] theorem State.dropInt_cfg (s : State) : (s.dropInt).cfg = s.cfg := rfl
@[simp] theorem State.dropInt_regs (s : State) : (s.dropInt).regs = s.regs := rfl
@[simp] theorem State.dropInt_hi (s : State) : (s.dropInt).hi = s.hi := rfl
@[simp] theorem State.dropInt_lo (s : State) : (s.dropInt).lo = s.lo := rfl
@[simp] theorem State.dropInt_pc (s : State) : (s.dropInt).pc = s.pc := rfl
@[simp] theorem State.dropInt_eng (s : State) : (s.dropInt).eng = s.eng := rfl
@[simp] theorem State.dropInt_heapPtr (s : State) : (s.dropInt).heapPtr = s.heapPtr := rfl
@[simp] theorem State.dropInt_mem (s : State) : (s.dropInt).mem = s.mem := rfl
@[simp] theorem State.dropInt_slots (s : State) : (s.dropInt).slots = s.slots := rfl
@[simp] theorem State.dropInt_labels (s : State) : (s.dropInt).labels = s.labels := rfl
@[simp] theorem State.dropInt_phase (s : State) : (s.dropInt).phase = s.phase := rfl
@[simp] theorem State.dropInt_conOut (s : State) : (s.dropInt).conOut = s.conOut := rfl
@[simp] theorem State.dropInt_conIn (s : State) : (s.dropInt).conIn = { s.conIn with ints := s.conIn.ints.tail } := rfl
@[simp] theorem State.dropInt_diags (s : State) : (s.dropInt).diags = s.diags := rfl
@[simp] theorem State.dropInt_freeCount (s : State) : (s.dropInt).freeCount = s.freeCount := rfl

/-! `State.dropLine`. -/

@[simp] theorem State.dropLine_cfg (s : State) : (s.dropLine).cfg = s.cfg := rfl
@[simp] theorem State.dropLine_regs (s : State) : (s.dropLine).regs = s.regs := rfl
@[simp] theorem State.dropLine_hi (s : State) : (s.dropLine).hi = s.hi := rfl
@[simp] theorem State.dropLine_lo (s : State) : (s.dropLine).lo = s.lo := rfl
@[simp] theorem State.dropLine_pc (s : State) : (s.dropLine).pc = s.pc := rfl
@[simp] theorem State.dropLine_eng (s : State) : (s.dropLine).eng = s.eng := rfl
@[simp] theorem State.dropLine_heapPtr (s : State) : (s.dropLine).heapPtr = s.heapPtr := rfl
@[simp] theorem State.dropLine_mem (s : State) : (s.dropLine).mem = s.mem := rfl
@[simp] theorem State.dropLine_slots (s : State) : (s.dropLine).slots = s.slots := rfl
@[simp] theorem State.dropLine_labels (s : State) : (s.dropLine).labels = s.labels := rfl
@[simp] theorem State.dropLine_phase (s : State) : (s.dropLine).phase = s.phase := rfl
@[simp] theorem State.dropLine_conOut (s : State) : (s.dropLine).conOut = s.conOut := rfl
@[simp] theorem State.dropLine_conIn (s : State) : (s.dropLine).conIn = { s.conIn with lines := s.conIn.lines.tail } := rfl
@[simp] theorem State.dropLine_diags (s : State) : (s.dropLine).diags = s.diags := rfl
@[simp] theorem State.dropLine_freeCount (s : State) : (s.dropLine).freeCount = s.freeCount := rfl

/-! `State.dropChar`. -/

@[simp] theorem State.dropChar_cfg (s : State) : (s.dropChar).cfg = s.cfg := rfl
@[simp] theorem State.dropChar_regs (s : State) : (s.dropChar).regs = s.regs := rfl
@[simp] theorem State.dropChar_hi (s : State) : (s.dropChar).hi = s.hi := rfl
@[simp] theorem State.dropChar_lo (s : State) : (s.dropChar).lo = s.lo := rfl
@[simp] theorem State.dropChar_pc (s : State) : (s.dropChar).pc = s.pc := rfl
@[simp] theorem State.dropChar_eng (s : State) : (s.dropChar).eng = s.eng := rfl
@[simp] theorem State.dropChar_heapPtr (s : State) : (s.dropChar).heapPtr = s.heapPtr := rfl
@[simp] theorem State.dropChar_mem (s : State) : (s.dropChar).mem = s.mem := rfl
@[simp] theorem State.dropChar_slots (s : State) : (s.dropChar).slots = s.slots := rfl
@[simp] theorem State.dropChar_labels (s : State) : (s.dropChar).labels = s.labels := rfl
@[simp] theorem State.dropChar_phase (s : State) : (s.dropChar).phase = s.phase := rfl
@[simp] theorem State.dropChar_conOut (s : State) : (s.dropChar).conOut = s.conOut := rfl
@[simp] theorem State.dropChar_conIn (s : State) : (s.dropChar).conIn = { s.conIn with chars := s.conIn.chars.tail } := rfl
@[simp] theorem State.dropChar_diags (s : State) : (s.dropChar).diags = s.diags := rfl
@[simp] theorem State.dropChar_freeCount (s : State) : (s.dropChar).freeCount = s.freeCount := rfl

/-! `State.writeByte`. -/

@[simp] theorem State.writeByte_cfg (s : State) (a : Word) (v : Byte) : (s.writeByte a v).cfg = s.cfg := rfl
@[simp] theorem State.writeByte_regs (s : State) (a : Word) (v : Byte) : (s.writeByte a v).regs = s.regs := rfl
@[simp] theorem State.writeByte_hi (s : State) (a : Word) (v : Byte) : (s.writeByte a v).hi = s.hi := rfl
@[simp] theorem State.writeByte_lo (s : State) (a : Word) (v : Byte) : (s.writeByte a v).lo = s.lo := rfl
@[simp] theorem State.writeByte_pc (s : State) (a : Word) (v : Byte) : (s.writeByte a v).pc = s.pc := rfl
@[simp] theorem State.writeByte_eng (s : State) (a : Word) (v : Byte) : (s.writeByte a v).eng = s.eng := rfl
@[simp] theorem State.writeByte_heapPtr (s : State) (a : Word) (v : Byte) : (s.writeByte a v).heapPtr = s.heapPtr := rfl
@[simp] theorem State.writeByte_mem (s : State) (a : Word) (v : Byte) : (s.writeByte a v).mem = memWrite s.mem a.toNat v := rfl
@[simp] theorem State.writeByte_slots (s : State) (a : Word) (v : Byte) : (s.writeByte a v).slots = s.slots := rfl
@[simp] theorem State.writeByte_labels (s : State) (a : Word) (v : Byte) : (s.writeByte a v).labels = s.labels := rfl
@[simp] theorem State.writeByte_phase (s : State) (a : Word) (v : Byte) : (s.writeByte a v).phase = s.phase := rfl
@[simp] theorem State.writeByte_conOut (s : State) (a : Word) (v : Byte) : (s.writeByte a v).conOut = s.conOut := rfl
@[simp] theorem State.writeByte_conIn (s : State) (a : Word) (v : Byte) : (s.writeByte a v).conIn = s.conIn := rfl
@[simp] theorem State.writeByte_diags (s : State) (a : Word) (v : Byte) : (s.writeByte a v).diags = s.diags := rfl
@[simp] theorem State.writeByte_freeCount (s : State) (a : Word) (v : Byte) : (s.writeByte a v).freeCount = s.freeCount := rfl

/-! `State.writeHalf`. -/

@[simp] theorem State.writeHalf_cfg (s : State) (a : Word) (v : BitVec 16) : (s.writeHalf a v).cfg = s.cfg := rfl
@[simp] theorem State.writeHalf_regs (s : State) (a : Word) (v : BitVec 16) : (s.writeHalf a v).regs = s.regs := rfl
@[simp] theorem State.writeHalf_hi (s : State) (a : Word) (v : BitVec 16) : (s.writeHalf a v).hi = s.hi := rfl
@[simp] theorem State.writeHalf_lo (s : State) (a : Word) (v : BitVec 16) : (s.writeHalf a v).lo = s.lo := rfl
@[simp] theorem State.writeHalf_pc (s : State) (a : Word) (v : BitVec 16) : (s.writeHalf a v).pc = s.pc := rfl
@[simp] theorem State.writeHalf_eng (s : State) (a : Word) (v : BitVec 16) : (s.writeHalf a v).eng = s.eng := rfl
@[simp] theorem State.writeHalf_heapPtr (s : State) (a : Word) (v : BitVec 16) : (s.writeHalf a v).heapPtr = s.heapPtr := rfl
@[simp] theorem State.writeHalf_slots (s : State) (a : Word) (v : BitVec 16) : (s.writeHalf a v).slots = s.slots := rfl
@[simp] theorem State.writeHalf_labels (s : State) (a : Word) (v : BitVec 16) : (s.writeHalf a v).labels = s.labels := rfl
@[simp] theorem State.writeHalf_phase (s : State) (a : Word) (v : BitVec 16) : (s.writeHalf a v).phase = s.phase := rfl
@[simp] theorem State.writeHalf_conOut (s : State) (a : Word) (v : BitVec 16) : (s.writeHalf a v).conOut = s.conOut := rfl
@[simp] theorem State.writeHalf_conIn (s : State) (a : Word) (v : BitVec 16) : (s.writeHalf a v).conIn = s.conIn := rfl
@[simp] theorem State.writeHalf_diags (s : State) (a : Word) (v : BitVec 16) : (s.writeHalf a v).diags = s.diags := rfl
@[simp] theorem State.writeHalf_freeCount (s : State) (a : Word) (v : BitVec 16) : (s.writeHalf a v).freeCount = s.freeCount := rfl

/-! `State.writeWord`. -/

@[simp] theorem State.writeWord_cfg (s : State) (a v : Word) : (s.writeWord a v).cfg = s.cfg := rfl
@[simp] theorem State.writeWord_regs (s : State) (a v : Word) : (s.writeWord a v).regs = s.regs := rfl
@[simp] theorem State.writeWord_hi (s : State) (a v : Word) : (s.writeWord a v).hi = s.hi := rfl
@[simp] theorem State.writeWord_lo (s : State) (a v : Word) : (s.writeWord a v).lo = s.lo := rfl
@[simp] theorem State.writeWord_pc (s : State) (a v : Word) : (s.writeWord a v).pc = s.pc := rfl
@[simp] theorem State.writeWord_eng (s : State) (a v : Word) : (s.writeWord a v).eng = s.eng := rfl
@[simp] theorem State.writeWord_heapPtr (s : State) (a v : Word) : (s.writeWord a v).heapPtr = s.heapPtr := rfl
@[simp] theorem State.writeWord_slots (s : State) (a v : Word) : (s.writeWord a v).slots = s.slots := rfl
@[simp] theorem State.writeWord_labels (s : State) (a v : Word) : (s.writeWord a v).labels = s.labels := rfl
@[simp] theorem State.writeWord_phase (s : State) (a v : Word) : (s.writeWord a v).phase = s.phase := rfl
@[simp] theorem State.writeWord_conOut (s : State) (a v : Word) : (s.writeWord a v).conOut = s.conOut := rfl
@[simp] theorem State.writeWord_conIn (s : State) (a v : Word) : (s.writeWord a v).conIn = s.conIn := rfl
@[simp] theorem State.writeWord_diags (s : State) (a v : Word) : (s.writeWord a v).diags = s.diags := rfl
@[simp] theorem State.writeWord_freeCount (s : State) (a v : Word) : (s.writeWord a v).freeCount = s.freeCount := rfl

/-! `State.writeBytes`. -/

@[simp] theorem State.writeBytes_cfg (s : State) (a : Word) (bs : List Byte) : (s.writeBytes a bs).cfg = s.cfg := rfl
@[simp] theorem State.writeBytes_regs (s : State) (a : Word) (bs : List Byte) : (s.writeBytes a bs).regs = s.regs := rfl
@[simp] theorem State.writeBytes_hi (s : State) (a : Word) (bs : List Byte) : (s.writeBytes a bs).hi = s.hi := rfl
@[simp] theorem State.writeBytes_lo (s : State) (a : Word) (bs : List Byte) : (s.writeBytes a bs).lo = s.lo := rfl
@[simp] theorem State.writeBytes_pc (s : State) (a : Word) (bs : List Byte) : (s.writeBytes a bs).pc = s.pc := rfl
@[simp] theorem State.writeBytes_eng (s : State) (a : Word) (bs : List Byte) : (s.writeBytes a bs).eng = s.eng := rfl
@[simp] theorem State.writeBytes_heapPtr (s : State) (a : Word) (bs : List Byte) : (s.writeBytes a bs).heapPtr = s.heapPtr := rfl
@[simp] theorem State.writeBytes_mem (s : State) (a : Word) (bs : List Byte) : (s.writeBytes a bs).mem = memWriteBytes s.mem a bs := rfl
@[simp] theorem State.writeBytes_slots (s : State) (a : Word) (bs : List Byte) : (s.writeBytes a bs).slots = s.slots := rfl
@[simp] theorem State.writeBytes_labels (s : State) (a : Word) (bs : List Byte) : (s.writeBytes a bs).labels = s.labels := rfl
@[simp] theorem State.writeBytes_phase (s : State) (a : Word) (bs : List Byte) : (s.writeBytes a bs).phase = s.phase := rfl
@[simp] theorem State.writeBytes_conOut (s : State) (a : Word) (bs : List Byte) : (s.writeBytes a bs).conOut = s.conOut := rfl
@[simp] theorem State.writeBytes_conIn (s : State) (a : Word) (bs : List Byte) : (s.writeBytes a bs).conIn = s.conIn := rfl
@[simp] theorem State.writeBytes_diags (s : State) (a : Word) (bs : List Byte) : (s.writeBytes a bs).diags = s.diags := rfl
@[simp] theorem State.writeBytes_freeCount (s : State) (a : Word) (bs : List Byte) : (s.writeBytes a bs).freeCount = s.freeCount := rfl

/-! `State.setX`. -/

@[simp] theorem State.setX_cfg (s : State) (i : Fin 32) (v : Word) : (s.setX i v).cfg = s.cfg := by unfold State.setX; split <;> rfl
@[simp] theorem State.setX_hi (s : State) (i : Fin 32) (v : Word) : (s.setX i v).hi = s.hi := by unfold State.setX; split <;> rfl
@[simp] theorem State.setX_lo (s : State) (i : Fin 32) (v : Word) : (s.setX i v).lo = s.lo := by unfold State.setX; split <;> rfl
@[simp] theorem State.setX_pc (s : State) (i : Fin 32) (v : Word) : (s.setX i v).pc = s.pc := by unfold State.setX; split <;> rfl
@[simp] theorem State.setX_eng (s : State) (i : Fin 32) (v : Word) : (s.setX i v).eng = s.eng := by unfold State.setX; split <;> rfl
@[simp] theorem State.setX_heapPtr (s : State) (i : Fin 32) (v : Word) : (s.setX i v).heapPtr = s.heapPtr := by unfold State.setX; split <;> rfl
@[simp] theorem State.setX_mem (s : State) (i : Fin 32) (v : Word) : (s.setX i v).mem = s.mem := by unfold State.setX; split <;> rfl
@[simp] theorem State.setX_slots (s : State) (i : Fin 32) (v : Word) : (s.setX i v).slots = s.slots := by unfold State.setX; split <;> rfl
@[simp] theorem State.setX_labels (s : State) (i : Fin 32) (v : Word) : (s.setX i v).labels = s.labels := by unfold State.setX; split <;> rfl
@[simp] theorem State.setX_phase (s : State) (i : Fin 32) (v : Word) : (s.setX i v).phase = s.phase := by unfold State.setX; split <;> rfl
@[simp] theorem State.setX_conOut (s : State) (i : Fin 32) (v : Word) : (s.setX i v).conOut = s.conOut := by unfold State.setX; split <;> rfl
@[simp] theorem State.setX_conIn (s : State) (i : Fin 32) (v : Word) : (s.setX i v).conIn = s.conIn := by unfold State.setX; split <;> rfl
@[simp] theorem State.setX_diags (s : State) (i : Fin 32) (v : Word) : (s.setX i v).diags = s.diags := by unfold State.setX; split <;> rfl
@[simp] theorem State.setX_freeCount (s : State) (i : Fin 32) (v : Word) : (s.setX i v).freeCount = s.freeCount := by unfold State.setX; split <;> rfl

/-! `State.noteReg`. -/

@[simp] theorem State.noteReg_cfg (s : State) (d : RegOp) : (s.noteReg d).cfg = s.cfg := by cases d <;> rfl
@[simp] theorem State.noteReg_regs (s : State) (d : RegOp) : (s.noteReg d).regs = s.regs := by cases d <;> rfl
@[simp] theorem State.noteReg_hi (s : State) (d : RegOp) : (s.noteReg d).hi = s.hi := by cases d <;> rfl
@[simp] theorem State.noteReg_lo (s : State) (d : RegOp) : (s.noteReg d).lo = s.lo := by cases d <;> rfl
@[simp] theorem State.noteReg_pc (s : State) (d : RegOp) : (s.noteReg d).pc = s.pc := by cases d <;> rfl
@[simp] theorem State.noteReg_eng (s : State) (d : RegOp) : (s.noteReg d).eng = s.eng := by cases d <;> rfl
@[simp] theorem State.noteReg_heapPtr (s : State) (d : RegOp) : (s.noteReg d).heapPtr = s.heapPtr := by cases d <;> rfl
@[simp] theorem State.noteReg_mem (s : State) (d : RegOp) : (s.noteReg d).mem = s.mem := by cases d <;> rfl
@[simp] theorem State.noteReg_slots (s : State) (d : RegOp) : (s.noteReg d).slots = s.slots := by cases d <;> rfl
@[simp] theorem State.noteReg_labels (s : State) (d : RegOp) : (s.noteReg d).labels = s.labels := by cases d <;> rfl
@[simp] theorem State.noteReg_phase (s : State) (d : RegOp) : (s.noteReg d).phase = s.phase := by cases d <;> rfl
@[simp] theorem State.noteReg_conOut (s : State) (d : RegOp) : (s.noteReg d).conOut = s.conOut := by cases d <;> rfl
@[simp] theorem State.noteReg_conIn (s : State) (d : RegOp) : (s.noteReg d).conIn = s.conIn := by cases d <;> rfl
@[simp] theorem State.noteReg_freeCount (s : State) (d : RegOp) : (s.noteReg d).freeCount = s.freeCount := by cases d <;> rfl

/-! `State.writeReg`. -/

@[simp] theorem State.writeReg_cfg (s : State) (d : RegOp) (v : Word) : (s.writeReg d v).cfg = s.cfg := by cases d <;> simp [State.writeReg]
@[simp] theorem State.writeReg_hi (s : State) (d : RegOp) (v : Word) : (s.writeReg d v).hi = s.hi := by cases d <;> simp [State.writeReg]
@[simp] theorem State.writeReg_lo (s : State) (d : RegOp) (v : Word) : (s.writeReg d v).lo = s.lo := by cases d <;> simp [State.writeReg]
@[simp] theorem State.writeReg_pc (s : State) (d : RegOp) (v : Word) : (s.writeReg d v).pc = s.pc := by cases d <;> simp [State.writeReg]
@[simp] theorem State.writeReg_eng (s : State) (d : RegOp) (v : Word) : (s.writeReg d v).eng = s.eng := by cases d <;> simp [State.writeReg]
@[simp] theorem State.writeReg_heapPtr (s : State) (d : RegOp) (v : Word) : (s.writeReg d v).heapPtr = s.heapPtr := by cases d <;> simp [State.writeReg]
@[simp] theorem State.writeReg_mem (s : State) (d : RegOp) (v : Word) : (s.writeReg d v).mem = s.mem := by cases d <;> simp [State.writeReg]
@[simp] theorem State.writeReg_slots (s : State) (d : RegOp) (v : Word) : (s.writeReg d v).slots = s.slots := by cases d <;> simp [State.writeReg]
@[simp] theorem State.writeReg_labels (s : State) (d : RegOp) (v : Word) : (s.writeReg d v).labels = s.labels := by cases d <;> simp [State.writeReg]
@[simp] theorem State.writeReg_phase (s : State) (d : RegOp) (v : Word) : (s.writeReg d v).phase = s.phase := by cases d <;> simp [State.writeReg]
@[simp] theorem State.writeReg_conOut (s : State) (d : RegOp) (v : Word) : (s.writeReg d v).conOut = s.conOut := by cases d <;> simp [State.writeReg]
@[simp] theorem State.writeReg_conIn (s : State) (d : RegOp) (v : Word) : (s.writeReg d v).conIn = s.conIn := by cases d <;> simp [State.writeReg]
@[simp] theorem State.writeReg_freeCount (s : State) (d : RegOp) (v : Word) : (s.writeReg d v).freeCount = s.freeCount := by cases d <;> simp [State.writeReg]

/-! `State.noteTarget`. -/

@[simp] theorem State.noteTarget_cfg (s : State) (t : Target) : (s.noteTarget t).cfg = s.cfg := by cases t <;> rfl
@[simp] theorem State.noteTarget_regs (s : State) (t : Target) : (s.noteTarget t).regs = s.regs := by cases t <;> rfl
@[simp] theorem State.noteTarget_hi (s : State) (t : Target) : (s.noteTarget t).hi = s.hi := by cases t <;> rfl
@[simp] theorem State.noteTarget_lo (s : State) (t : Target) : (s.noteTarget t).lo = s.lo := by cases t <;> rfl
@[simp] theorem State.noteTarget_pc (s : State) (t : Target) : (s.noteTarget t).pc = s.pc := by cases t <;> rfl
@[simp] theorem State.noteTarget_eng (s : State) (t : Target) : (s.noteTarget t).eng = s.eng := by cases t <;> rfl
@[simp] theorem State.noteTarget_heapPtr (s : State) (t : Target) : (s.noteTarget t).heapPtr = s.heapPtr := by cases t <;> rfl
@[simp] theorem State.noteTarget_mem (s : State) (t : Target) : (s.noteTarget t).mem = s.mem := by cases t <;> rfl
@[simp] theorem State.noteTarget_slots (s : State) (t : Target) : (s.noteTarget t).slots = s.slots := by cases t <;> rfl
@[simp] theorem State.noteTarget_labels (s : State) (t : Target) : (s.noteTarget t).labels = s.labels := by cases t <;> rfl
@[simp] theorem State.noteTarget_phase (s : State) (t : Target) : (s.noteTarget t).phase = s.phase := by cases t <;> rfl
@[simp] theorem State.noteTarget_conOut (s : State) (t : Target) : (s.noteTarget t).conOut = s.conOut := by cases t <;> rfl
@[simp] theorem State.noteTarget_conIn (s : State) (t : Target) : (s.noteTarget t).conIn = s.conIn := by cases t <;> rfl
@[simp] theorem State.noteTarget_freeCount (s : State) (t : Target) : (s.noteTarget t).freeCount = s.freeCount := by cases t <;> rfl

/-! The diagnostics of the updates that may log. -/

/-- The records one register position leaves (10_state.md R25). -/
theorem State.noteReg_diags (s : State) (d : RegOp) :
    (s.noteReg d).diags = match d with
      | .valid _ => s.diags
      | .invalid tok => s.diags ++ [.operandError tok] := by cases d <;> rfl

/-- A register write logs exactly when the designator is invalid (10_state.md R25). -/
theorem State.writeReg_diags (s : State) (d : RegOp) (v : Word) :
    (s.writeReg d v).diags = (s.noteReg d).diags := by cases d <;> simp [State.writeReg, State.noteReg]

/-- The records a target leaves (30_encoding.md R90). -/
theorem State.noteTarget_diags (s : State) (t : Target) :
    (s.noteTarget t).diags = match t with
      | .raw _ => s.diags
      | .label _ => s.diags
      | .missing name => s.diags ++ [.referenceError name] := by cases t <;> rfl

end Sys2Proof.Machine
end

