-- ==== Sys2Proof/Laws/Memory.lean ====
section
/-! SUPPORT. Data memory: a read after a write, and the canonical form that every operation keeps (20_memory.md R51 to R58). -/

namespace Sys2Proof.Machine

/-- The canonical form from a smaller bound. -/
theorem memWfFrom_mono {lo lo' : Nat} {m : List Host.Cell} (h : memWfFrom lo m = true) (hle : lo' ≤ lo) :
    memWfFrom lo' m = true := by
  cases m with
  | nil => rfl
  | cons c m =>
    obtain ⟨k, b⟩ := c
    simp only [memWfFrom, Bool.and_eq_true, decide_eq_true_eq] at h ⊢
    exact ⟨⟨⟨by omega, h.1.1.2⟩, h.1.2⟩, h.2⟩

/-- Below its bound a canonical memory lists nothing. -/
theorem memRead_below {lo : Nat} {m : List Host.Cell} (h : memWfFrom lo m = true) {a : Nat} (ha : a < lo) :
    memRead m a = unlistedByte := by
  induction m generalizing lo with
  | nil => rfl
  | cons c m ih =>
    obtain ⟨k, b⟩ := c
    simp only [memWfFrom, Bool.and_eq_true, decide_eq_true_eq] at h
    rw [memRead, if_neg (by omega)]
    exact ih h.2 (by omega)

/-- A write keeps the canonical form from a bound at or below its address. -/
theorem memWrite_wfFrom {lo : Nat} {m : List Host.Cell} (h : memWfFrom lo m = true) {a : Nat} (hlo : lo ≤ a)
    (ha : a < 2 ^ 32) (v : Byte) : memWfFrom lo (memWrite m a v) = true := by
  induction m generalizing lo with
  | nil =>
    unfold memWrite
    split
    · rfl
    · simp_all [memWfFrom]
  | cons c m ih =>
    obtain ⟨k, b⟩ := c
    have hw := h
    simp only [memWfFrom, Bool.and_eq_true, decide_eq_true_eq] at h
    unfold memWrite
    by_cases hak : a < k
    · by_cases hv : v = unlistedByte
      · simpa [hak, hv] using hw
      · simp only [hak, hv, if_true, if_false, memWfFrom, Bool.and_eq_true, decide_eq_true_eq, bne_iff_ne]
        refine ⟨⟨⟨hlo, ha⟩, hv⟩, ⟨⟨⟨by omega, h.1.1.2⟩, by simpa using h.1.2⟩, h.2⟩⟩
    · by_cases hk : a = k
      · subst hk
        by_cases hv : v = unlistedByte
        · simpa [hv] using memWfFrom_mono h.2 (by omega)
        · simp only [lt_irrefl, if_false, if_true, hv, memWfFrom, Bool.and_eq_true, decide_eq_true_eq, bne_iff_ne]
          exact ⟨⟨⟨hlo, ha⟩, hv⟩, h.2⟩
      · simp only [hak, hk, if_false, memWfFrom, Bool.and_eq_true, decide_eq_true_eq]
        exact ⟨h.1, ih h.2 (by omega)⟩

/-- Every byte write keeps the canonical form. -/
theorem memWrite_wf {m : List Host.Cell} (h : Memory.wf m = true) (a : Word) (v : Byte) :
    Memory.wf (memWrite m a.toNat v) = true :=
  memWrite_wfFrom h (Nat.zero_le _) a.isLt v

/-- Every run of byte writes keeps the canonical form. -/
theorem memWriteBytes_wf {m : List Host.Cell} (h : Memory.wf m = true) (a : Word) (bs : List Byte) :
    Memory.wf (memWriteBytes m a bs) = true := by
  induction bs generalizing m a with
  | nil => exact h
  | cons b bs ih => exact ih (memWrite_wf h a b) (a + 1#32)

/-- A read after a write: the value written at its address, the old byte everywhere else. -/
theorem memRead_memWrite {m : List Host.Cell} {lo : Nat} (h : memWfFrom lo m = true) (a : Nat) (v : Byte) (b : Nat) :
    memRead (memWrite m a v) b = if b = a then v else memRead m b := by
  induction m generalizing lo with
  | nil =>
    unfold memWrite
    by_cases hv : v = unlistedByte
    · by_cases hb : b = a <;> simp [hv, hb, memRead]
    · by_cases hb : b = a
      · simp [hv, hb, memRead]
      · simp [hv, hb, memRead, Ne.symm hb]
  | cons c m ih =>
    obtain ⟨k, w⟩ := c
    have hw := h
    simp only [memWfFrom, Bool.and_eq_true, decide_eq_true_eq] at h
    unfold memWrite
    by_cases hak : a < k
    · by_cases hv : v = unlistedByte
      · by_cases hb : b = a
        · subst hb
          simp only [hak, hv, if_true]
          exact memRead_below (memWfFrom_mono (lo := k) (lo' := k) (by simp_all [memWfFrom]) le_rfl) hak
        · simp [hak, hv, hb]
      · by_cases hb : b = a
        · simp [hak, hv, hb, memRead]
        · simp [hak, hv, hb, memRead, Ne.symm hb]
    · by_cases hk : a = k
      · subst hk
        by_cases hv : v = unlistedByte
        · by_cases hb : b = a
          · subst hb
            simpa [hv] using memRead_below h.2 (Nat.lt_succ_self b)
          · simp [hv, hb, memRead, Ne.symm hb]
        · by_cases hb : b = a
          · simp [hv, hb, memRead]
          · simp [hv, hb, memRead, Ne.symm hb]
      · simp only [hak, hk, if_false, memRead, ih h.2]
        by_cases hkb : k = b
        · subst hkb
          simp [Ne.symm hk]
        · simp [hkb]

/-- A byte read after a byte write, by word address. -/
theorem State.readByte_writeByte {s : State} (h : Memory.wf s.mem = true) (a b : Word) (v : Byte) :
    (s.writeByte a v).readByte b = if b = a then v else s.readByte b := by
  simp only [State.readByte, State.writeByte_mem, memRead_memWrite h]
  simp only [BitVec.toNat_inj]

/-- A byte write keeps the canonical form. -/
theorem State.writeByte_wf {s : State} (h : Memory.wf s.mem = true) (a : Word) (v : Byte) :
    Memory.wf (s.writeByte a v).mem = true := memWrite_wf h a v

/-- A halfword write keeps the canonical form. -/
theorem State.writeHalf_wf {s : State} (h : Memory.wf s.mem = true) (a : Word) (v : BitVec 16) :
    Memory.wf (s.writeHalf a v).mem = true := State.writeByte_wf (State.writeByte_wf h a _) _ _

/-- A word write keeps the canonical form. -/
theorem State.writeWord_wf {s : State} (h : Memory.wf s.mem = true) (a v : Word) :
    Memory.wf (s.writeWord a v).mem = true :=
  State.writeByte_wf (State.writeByte_wf (State.writeByte_wf (State.writeByte_wf h a _) _ _) _ _) _ _

/-- The stores of system call 8 keep the canonical form. -/
theorem State.writeBytes_wf {s : State} (h : Memory.wf s.mem = true) (a : Word) (bs : List Byte) :
    Memory.wf (s.writeBytes a bs).mem = true := memWriteBytes_wf h a bs

/-- A byte read after a halfword write. -/
theorem State.readByte_writeHalf {s : State} (h : Memory.wf s.mem = true) (a b : Word) (v : BitVec 16) :
    (s.writeHalf a v).readByte b =
      if b = a + 1#32 then v.extractLsb' 8 8 else if b = a then v.extractLsb' 0 8 else s.readByte b := by
  unfold State.writeHalf
  rw [State.readByte_writeByte (State.writeByte_wf h _ _), State.readByte_writeByte h]

/-- A byte read after a word write. -/
theorem State.readByte_writeWord {s : State} (h : Memory.wf s.mem = true) (a b v : Word) :
    (s.writeWord a v).readByte b =
      if b = a + 3#32 then v.extractLsb' 24 8 else if b = a + 2#32 then v.extractLsb' 16 8
      else if b = a + 1#32 then v.extractLsb' 8 8 else if b = a then v.extractLsb' 0 8 else s.readByte b := by
  have h1 := State.writeByte_wf h a (v.extractLsb' 0 8)
  have h2 := State.writeByte_wf h1 (a + 1#32) (v.extractLsb' 8 8)
  have h3 := State.writeByte_wf h2 (a + 2#32) (v.extractLsb' 16 8)
  unfold State.writeWord
  rw [State.readByte_writeByte h3, State.readByte_writeByte h2, State.readByte_writeByte h1, State.readByte_writeByte h]

/-- The addresses of one run of bytes are distinct. -/
theorem add_ofNat_inj (a : Word) {i j : Nat} (hi : i < 2 ^ 32) (hj : j < 2 ^ 32)
    (h : a + BitVec.ofNat 32 i = a + BitVec.ofNat 32 j) : i = j := by
  have h := congrArg BitVec.toNat h
  have ha := a.isLt
  simp only [BitVec.toNat_add, BitVec.toNat_ofNat] at h
  omega

/-- One address further along a run of bytes. -/
theorem add_ofNat_succ (a : Word) (k : Nat) : a + 1#32 + BitVec.ofNat 32 k = a + BitVec.ofNat 32 (k + 1) := by
  rw [BitVec.add_assoc, Nat.add_comm k 1, BitVec.ofNat_add]

/-- After a run of byte writes: the bytes written, and every other byte as before. -/
theorem memRead_memWriteBytes {m : List Host.Cell} {bs : List Byte} (h : Memory.wf m = true) (a : Word)
    (hl : bs.length ≤ 2 ^ 32) :
    (∀ k (hk : k < bs.length), memRead (memWriteBytes m a bs) (a + BitVec.ofNat 32 k).toNat = bs[k]) ∧
      ∀ b : Word, (∀ k < bs.length, b ≠ a + BitVec.ofNat 32 k) →
        memRead (memWriteBytes m a bs) b.toNat = memRead m b.toNat := by
  induction bs generalizing m a with
  | nil => exact ⟨fun k hk => absurd hk (Nat.not_lt_zero k), fun _ _ => rfl⟩
  | cons v bs ih =>
    rw [List.length_cons] at hl
    obtain ⟨hin, hout⟩ := ih (memWrite_wf h a v) (a + 1#32) (by omega)
    refine ⟨fun k hk => ?_, fun b hb => ?_⟩
    · cases k with
      | zero =>
        have ha : a + BitVec.ofNat 32 0 = a := by simp
        rw [memWriteBytes, ha, hout a, memRead_memWrite h, if_pos rfl, List.getElem_cons_zero]
        intro k hk hc
        rw [add_ofNat_succ] at hc
        have := add_ofNat_inj a (i := 0) (by omega) (by omega) (ha.trans hc)
        omega
      | succ k =>
        rw [memWriteBytes, List.getElem_cons_succ, ← hin k (by simpa using hk), add_ofNat_succ]
    · rw [memWriteBytes, hout b, memRead_memWrite h, if_neg]
      · intro hc
        exact hb 0 (by simp) (by simpa using BitVec.eq_of_toNat_eq hc)
      · intro k hk hc
        exact hb (k + 1) (by simpa using hk) (hc.trans (add_ofNat_succ a k))

/-- A byte that is not what an unlisted address reads as is listed. -/
theorem mem_of_memRead_ne {m : List Host.Cell} {a : Nat} (h : memRead m a ≠ unlistedByte) :
    a ∈ m.map fun c => c.1 := by
  induction m with
  | nil => exact absurd rfl h
  | cons c m ih =>
    obtain ⟨k, b⟩ := c
    by_cases hk : k = a
    · simp [hk]
    · simp only [memRead, hk, if_false] at h
      simp [ih h]

/-- The reset memory is canonical. -/
theorem State.resetWith_mem_wf (cfg : Config) : Memory.wf (State.resetWith cfg).mem = true := rfl

/-- Bytes stored one list after another. -/
theorem memWriteBytes_append (m : List Host.Cell) (a : Word) (xs ys : List Byte) :
    memWriteBytes m a (xs ++ ys) = memWriteBytes (memWriteBytes m a xs) (a + BitVec.ofNat 32 xs.length) ys := by
  induction xs generalizing m a with
  | nil => simp [memWriteBytes]
  | cons x xs ih =>
    rw [List.cons_append, memWriteBytes, ih, memWriteBytes, List.length_cons]
    congr 1
    rw [BitVec.add_assoc, BitVec.ofNat_add, BitVec.add_comm 1#32]

end Sys2Proof.Machine
end

