-- ==== Sys2Proof/Laws/Loader.lean ====
section
/-! SUPPORT. What the loader's data directives and labels do, said once (30_encoding.md R99, R101 to R105). -/

namespace Sys2Proof.Machine

/-- Rejoining puts single spaces between the tokens. -/
theorem rejoin_eq_intercalate (args : List Token) : rejoin args = [' '].intercalate args := by
  induction args with
  | nil => rfl
  | cons a as ih =>
    cases as with
    | nil => simp [rejoin, List.intercalate]
    | cons b bs =>
      simp only [rejoin, ih, List.intercalate_cons_cons]
      simp

/-- Dropping up to the first double quote. -/
theorem dropWhile_quote {before : List Char} (h : '"' ∉ before) (rest : List Char) :
    (before ++ '"' :: rest).dropWhile (· != '"') = '"' :: rest := by
  induction before with
  | nil => simp
  | cons c before ih =>
    simp only [List.mem_cons, not_or] at h
    simp [Ne.symm h.1, ih h.2]

/-- The text between the first and the last double quote. -/
theorem quoted_eq_some {before after : List Char} (hb : '"' ∉ before) (ha : '"' ∉ after) (text : List Char) :
    quoted (before ++ '"' :: (text ++ '"' :: after)) = some text := by
  have hlast : (text ++ '"' :: after).reverse.dropWhile (· != '"') = '"' :: text.reverse := by
    simpa using dropWhile_quote (before := after.reverse) (by simpa using ha) text.reverse
  simp only [quoted, dropWhile_quote hb, List.drop_succ_cons, List.drop_zero, hlast]
  simp

/-- With fewer than two double quotes there is no string. -/
theorem quoted_eq_none {t : List Char} (h : t.count '"' < 2) : quoted t = none := by
  by_cases hm : '"' ∈ t
  · obtain ⟨a, b, rfl, ha⟩ := List.eq_append_cons_of_mem hm
    have hb : '"' ∉ b := fun hb => by
      have := List.count_pos_iff.mpr hb
      simp only [List.count_append, List.count_cons_self] at h
      omega
    simp [quoted, dropWhile_quote ha b, hb]
  · have hd : t.dropWhile (· != '"') = [] := by
      rw [List.dropWhile_eq_nil_iff]
      intro c hc
      simp only [bne_iff_ne, ne_eq]
      rintro rfl
      exact hm hc
    simp [quoted, hd]

/-- `unescape` stores what `StoredText` says. -/
theorem unescape_of_storedText {t : List Char} {bytes : List Byte} (h : StoredText t bytes) : unescape t = bytes := by
  induction h with
  | nil => rfl
  | newline _ ih => simp [unescape, ih]
  | tab _ ih => simp [unescape, ih]
  | zero _ ih => simp [unescape, ih]
  | verbatim hc _ ih => rw [unescape, ih] <;> (rintro r rfl rfl; exact hc ⟨rfl, by simp⟩)

/-! `.word` and `.byte`. -/

/-- Two stores at the cursor are one. -/
theorem Loader.put_put (l : Loader) (xs ys : List Byte) : (l.put xs).put ys = l.put (xs ++ ys) := by
  simp only [Loader.put, memWriteBytes_append, List.length_append, BitVec.ofNat_add, BitVec.add_assoc]

/-- A store at the cursor, in the words of `StoresAtCursor`. -/
theorem Loader.put_stores {l : Loader} (h : Memory.wf l.mem = true) {bytes : List Byte} (hl : bytes.length ≤ 2 ^ 32) :
    StoresAtCursor bytes l (l.put bytes) := by
  obtain ⟨h1, h2⟩ := memRead_memWriteBytes h l.cursor hl
  exact ⟨rfl, rfl, rfl, rfl, h1, h2⟩

/-- `LoadImm` of a value (30_encoding.md R105); it depends on the label table alone. -/
theorem Loader.loadImm_of_loadsValue {l : Loader} {tok : Token} {n : Int} (h : LoadsValue l tok n) :
    l.loadImm tok = .ok n := by
  rcases h with h | ⟨name, a, h, ha, rfl⟩ <;> simp [Loader.loadImm, *]

/-- `LoadImm` of a token that is no value. -/
theorem Loader.loadImm_of_failsToLoad {l : Loader} {tok : Token} (h : FailsToLoad l tok) : l.loadImm tok = .error tok := by
  rcases h with h | ⟨h, ha⟩ <;> simp [Loader.loadImm, *]

/-- `.word` on values, then on what follows them. -/
theorem Loader.words_append {l : Loader} {before : List Token} {values : List Int} (after : List Token)
    (h : List.Forall₂ (LoadsValue l) before values) :
    l.words (before ++ after) = (l.put (values.flatMap fun n => wordBytes (u32 n))).words after := by
  suffices ∀ u : Loader, u.labels = l.labels →
      u.words (before ++ after) = (u.put (values.flatMap fun n => wordBytes (u32 n))).words after from this l rfl
  induction h with
  | nil => intro u _; simp [Loader.put, memWriteBytes]
  | cons hv _ ih =>
    intro u hu
    have hi : u.loadImm _ = _ := Loader.loadImm_of_loadsValue (l := u) (by simpa [LoadsValue, hu] using hv)
    rw [List.cons_append, Loader.words, hi, Loading.andThen, ih _ (by simpa [Loader.put] using hu), Loader.put_put]
    simp

/-- `.byte` on values, then on what follows them. -/
theorem Loader.bytes_append {l : Loader} {before : List Token} {values : List Int} (after : List Token)
    (h : List.Forall₂ (LoadsValue l) before values) :
    l.bytes (before ++ after) = (l.put (values.map fun n => (u32 n).setWidth 8)).bytes after := by
  suffices ∀ u : Loader, u.labels = l.labels →
      u.bytes (before ++ after) = (u.put (values.map fun n => (u32 n).setWidth 8)).bytes after from this l rfl
  induction h with
  | nil => intro u _; simp [Loader.put, memWriteBytes]
  | cons hv _ ih =>
    intro u hu
    have hi : u.loadImm _ = _ := Loader.loadImm_of_loadsValue (l := u) (by simpa [LoadsValue, hu] using hv)
    rw [List.cons_append, Loader.bytes, hi, Loading.andThen, ih _ (by simpa [Loader.put] using hu), Loader.put_put]
    simp

/-! Labels. -/

/-- A name added at the end of a table that lacks it. -/
theorem labelLookup_append {table : List (Token × Word)} {name : Token} (h : labelLookup table name = none) (a : Word)
    (other : Token) :
    labelLookup (table ++ [(name, a)]) other = if name = other then some a else labelLookup table other := by
  induction table with
  | nil => simp [labelLookup]
  | cons entry table ih =>
    obtain ⟨n, b⟩ := entry
    simp only [List.cons_append, labelLookup] at h ⊢
    split at h
    · cases h
    · rename_i hn
      rw [ih h]
      split
      · rename_i ho
        subst ho
        rw [if_neg fun he => hn he.symm]
      · rfl

/-- A label the loader accepts is new, and is added with the running address (30_encoding.md R99, R109). -/
theorem Loader.addLabel_ok {cfg : Config} {l l' : Loader} {name : Token} (h : l.addLabel cfg name = .ok l') :
    labelLookup l.labels name = none ∧ l' = { l with labels := l.labels ++ [(name, l.here cfg)] } := by
  unfold Loader.addLabel at h
  split at h
  · cases h
  split at h
  · cases h
  rename_i hn
  split at h
  · cases h
  · cases h
    exact ⟨by simpa using hn, rfl⟩

end Sys2Proof.Machine
end

