-- ==== Sys2Proof/Laws/Numerals.lean ====
section
/-! SUPPORT. Numerals and register names written and read back, and the vocabulary's spellings. -/

namespace Sys2Proof

open Sys2Proof.Machine

/-- A numeral's digits: most significant first, no leading zero, with the number as their value. -/
theorem numeralDigits_spec {base : Nat} (hb : 2 ≤ base) {fuel n : Nat} (hn : n ≤ fuel) :
    ∃ ds : List Nat, ds ≠ [] ∧ (∀ d ∈ ds, d < base) ∧ (1 < ds.length ∨ 0 < n → ds.head? ≠ some 0) ∧
      ds.foldl (fun acc d => acc * base + d) 0 = n ∧ numeralDigits base fuel n = ds.map digitChar := by
  induction fuel generalizing n with
  | zero =>
    obtain rfl : n = 0 := by omega
    exact ⟨[0], by simp, by simp; omega, by simp, by simp, by simp [numeralDigits]⟩
  | succ fuel ih =>
    by_cases h : n < base
    · exact ⟨[n], by simp, by simpa using h, by simp; omega, by simp, by simp [numeralDigits, h]⟩
    · have hq : 0 < n / base := Nat.div_pos (by omega) (by omega)
      have hlt : n / base < n := Nat.div_lt_self (by omega) (by omega)
      obtain ⟨ds, h1, h2, h3, h4, h5⟩ := ih (n := n / base) (by omega)
      refine ⟨ds ++ [n % base], by simp, fun d hd => ?_, fun _ => ?_, ?_, by simp [numeralDigits, h, h5]⟩
      · rcases List.mem_append.mp hd with hd | hd
        · exact h2 d hd
        · rw [List.mem_singleton.mp hd]
          exact Nat.mod_lt _ (by omega)
      · rw [List.head?_append_of_ne_nil _ h1]
        exact h3 (.inr hq)
      · rw [List.foldl_append, h4]
        simpa [Nat.mul_comm] using Nat.div_add_mod n base

/-- A digit's character reads back as the digit. -/
theorem digitValue_digitChar {base d : Nat} (hb : base = 10 ∨ base = 16) (hd : d < base) :
    digitValue base (digitChar d) = some d := by
  rcases hb with rfl | rfl <;> (revert d; decide)

/-- Digits read back as their value. -/
theorem numeralFrom_digits {base : Nat} (hb : base = 10 ∨ base = 16) {ds : List Nat} (h : ∀ d ∈ ds, d < base)
    (acc : Nat) :
    numeralFrom base acc (ds.map digitChar) = some (ds.foldl (fun acc d => acc * base + d) acc) := by
  induction ds generalizing acc with
  | nil => rfl
  | cons d ds ih =>
    simp only [List.map_cons, numeralFrom, digitValue_digitChar hb (h d (by simp)), List.foldl_cons]
    exact ih (fun x hx => h x (by simp [hx])) _

/-- A numeral reads back as its number. -/
theorem numeral_natNumeral {base : Nat} (hb : base = 10 ∨ base = 16) (n : Nat) :
    numeral base (natNumeral base n) = some n := by
  obtain ⟨ds, h1, h2, _, h4, h5⟩ := numeralDigits_spec (base := base) (by omega) (le_refl n)
  rw [natNumeral, h5]
  cases ds with
  | nil => exact absurd rfl h1
  | cons d ds => exact (numeralFrom_digits hb h2 0).trans (congrArg some h4)

/-- A numeral's characters are digits: none is a sign, a `$` or a `(`. -/
theorem natNumeral_chars {base : Nat} (hb : base = 10 ∨ base = 16) {n : Nat} {c : Char} (h : c ∈ natNumeral base n) :
    c ≠ '-' ∧ c ≠ '$' ∧ c ≠ '(' := by
  have digits : ∀ d < 16, digitChar d ≠ '-' ∧ digitChar d ≠ '$' ∧ digitChar d ≠ '(' := by decide
  obtain ⟨ds, _, h2, _, _, h5⟩ := numeralDigits_spec (base := base) (by omega) (le_refl n)
  rw [natNumeral, h5, List.mem_map] at h
  obtain ⟨d, hd, rfl⟩ := h
  exact digits d (by have := h2 d hd; omega)

/-- Every opcode is in the vocabulary under its spelling (30_encoding.md R84). -/
theorem lookupKind_spelling (k : Kind) : lookupKind true k.spelling = some k := by
  cases k <;> decide

/-- What the membership test of R83 found. -/
theorem lookupKind_some {tierC : Bool} {t0 : Token} {k : Kind} (h : lookupKind tierC t0 = some k) :
    k.spelling = t0 ∧ (tierC = true ∨ k.tier = .N) := by
  simpa using List.find?_some h

/-- Spellings are distinct. -/
theorem Kind.spelling_inj {k k' : Kind} (h : k.spelling = k'.spelling) : k = k' := by
  have hk := lookupKind_spelling k
  rw [h, lookupKind_spelling] at hk
  exact (Option.some.inj hk).symm

/-- Every register's name with its `$` resolves to it (10_state.md R23, R24). -/
theorem regResolve_name (i : Fin 32) : regResolve ('$' :: regName i) = some (.valid i) := by
  revert i
  decide

/-- A decimal digit's character. -/
theorem digitChar_eq_ofNat : ∀ d < 10, digitChar d = Char.ofNat (48 + d) := by decide

/-- A decimal string begins with a digit or a minus sign. -/
theorem not_isDecimalToken_cons {c : Char} {cs : Token} (h : ∀ d < 10, c ≠ Char.ofNat (48 + d)) (hm : c ≠ '-')
    (n : Int) : ¬IsDecimalToken n (c :: cs) := by
  rintro ⟨_ | ⟨d, ds⟩, hne, hd, ⟨ht, _⟩ | ⟨ht, _⟩⟩
  · exact hne rfl
  · exact hne rfl
  · exact h d (hd d (by simp)) (List.cons.inj ht).1
  · exact hm (List.cons.inj ht).1

/-- The characters that read as decimal digits. -/
theorem digitValue_ten {c : Char} {d : Nat} (h : digitValue 10 c = some d) : d < 10 ∧ c = digitChar d := by
  have hc : '0'.toNat ≤ c.toNat ∧ c.toNat ≤ '9'.toNat := by
    by_contra hc
    simp only [digitValue, if_neg hc, Option.ite_none_right_eq_some] at h
    have h := h.1
    split at h
    · omega
    · split at h <;> omega
  have h0 : '0'.toNat = 48 := rfl
  have h9 : '9'.toNat = 57 := rfl
  have hd : c.toNat - '0'.toNat < 10 := by omega
  simp only [digitValue, if_pos hc, if_pos hd, Option.some.injEq] at h
  subst h
  refine ⟨hd, ?_⟩
  rw [digitChar, if_pos hd, Nat.add_sub_cancel' hc.1, Char.ofNat_toNat]

/-- What `numeralFrom` reads, given what a digit is. -/
theorem numeralFrom_iff {base : Nat} {isDigit : Nat → Char → Prop}
    (hd : ∀ {c : Char} {d : Nat}, digitValue base c = some d ↔ isDigit d c) {cs : List Char} {acc n : Nat} :
    numeralFrom base acc cs = some n ↔
      ∃ ds : List Nat, List.Forall₂ isDigit ds cs ∧ n = ds.foldl (fun acc d => acc * base + d) acc := by
  induction cs generalizing acc with
  | nil =>
    constructor
    · intro h
      exact ⟨[], .nil, (Option.some.inj h).symm⟩
    · rintro ⟨ds, h, rfl⟩
      cases h
      rfl
  | cons c cs ih =>
    cases hc : digitValue base c with
    | none =>
      constructor
      · intro h
        simp [numeralFrom, hc] at h
      · rintro ⟨ds, h, rfl⟩
        cases h with
        | cons h _ =>
          rw [hd.mpr h] at hc
          cases hc
    | some d =>
      simp only [numeralFrom, hc, ih]
      constructor
      · rintro ⟨ds, h, hn⟩
        exact ⟨d :: ds, .cons (hd.mp hc) h, hn⟩
      · rintro ⟨ds, h, hn⟩
        cases h with
        | cons h ht =>
          obtain rfl : _ = d := Option.some.inj ((hd.mpr h).symm.trans hc)
          exact ⟨_, ht, hn⟩

/-- What `numeral` reads: at least one digit. -/
theorem numeral_iff {base : Nat} {isDigit : Nat → Char → Prop}
    (hd : ∀ {c : Char} {d : Nat}, digitValue base c = some d ↔ isDigit d c) {cs : List Char} {n : Nat} :
    numeral base cs = some n ↔
      ∃ ds : List Nat, ds ≠ [] ∧ List.Forall₂ isDigit ds cs ∧ n = ds.foldl (fun acc d => acc * base + d) 0 := by
  cases cs with
  | nil =>
    constructor
    · intro h
      cases h
    · rintro ⟨ds, hne, h, _⟩
      cases h
      exact absurd rfl hne
  | cons c cs =>
    rw [numeral, numeralFrom_iff hd]
    constructor
    · rintro ⟨ds, h, hn⟩
      refine ⟨ds, fun hds => ?_, h, hn⟩
      subst hds
      cases h
    · rintro ⟨ds, _, h, hn⟩
      exact ⟨ds, h, hn⟩

/-- The decimal digits' characters. -/
theorem digitValue_ten_iff {c : Char} {d : Nat} : digitValue 10 c = some d ↔ d < 10 ∧ c = Char.ofNat (48 + d) := by
  constructor
  · intro h
    obtain ⟨h1, rfl⟩ := digitValue_ten h
    exact ⟨h1, digitChar_eq_ofNat d h1⟩
  · rintro ⟨h, rfl⟩
    rw [← digitChar_eq_ofNat d h]
    exact digitValue_digitChar (.inl rfl) h

/-- A list of decimal digits, character by character. -/
theorem forall₂_decimal_iff {ds : List Nat} {cs : List Char} :
    List.Forall₂ (fun d c => d < 10 ∧ c = Char.ofNat (48 + d)) ds cs ↔
      (∀ d ∈ ds, d < 10) ∧ cs = ds.map fun d => Char.ofNat (48 + d) := by
  constructor
  · intro h
    induction h with
    | nil => simp
    | cons hd _ ih => exact ⟨by simpa using ⟨hd.1, ih.1⟩, by simp [hd.2, ih.2]⟩
  · rintro ⟨h, rfl⟩
    induction ds with
    | nil => exact .nil
    | cons d ds ih => exact .cons ⟨h d (by simp), rfl⟩ (ih fun x hx => h x (by simp [hx]))

/-- `decimal?` reads exactly the decimal numeric strings (10_state.md R24(b), 30_encoding.md R87). -/
theorem decimal?_iff {tok : Token} {n : Int} : decimal? tok = some n ↔ IsDecimalToken n tok := by
  have read : ∀ {cs : List Char} {m : Nat}, numeral 10 cs = some m ↔ ∃ ds : List Nat, ds ≠ [] ∧ (∀ d ∈ ds, d < 10) ∧
      cs = ds.map (fun d => Char.ofNat (48 + d)) ∧ m = ds.foldl (fun acc d => acc * 10 + d) 0 := by
    intro cs m
    simp only [numeral_iff digitValue_ten_iff, forall₂_decimal_iff, and_assoc]
  constructor
  · intro h
    unfold decimal? at h
    split at h
    · obtain ⟨m, hm, rfl⟩ := Option.map_eq_some_iff.mp h
      obtain ⟨ds, h1, h2, rfl, rfl⟩ := read.mp hm
      exact ⟨ds, h1, h2, .inr ⟨rfl, rfl⟩⟩
    · obtain ⟨m, hm, rfl⟩ := Option.map_eq_some_iff.mp h
      obtain ⟨ds, h1, h2, rfl, rfl⟩ := read.mp hm
      exact ⟨ds, h1, h2, .inl ⟨rfl, rfl⟩⟩
  · rintro ⟨ds, h1, h2, ⟨rfl, rfl⟩ | ⟨rfl, rfl⟩⟩
    · have hn := read.mpr ⟨ds, h1, h2, rfl, rfl⟩
      unfold decimal?
      split
      · rename_i heq
        cases ds with
        | nil => exact absurd rfl h1
        | cons d ds =>
          have : ∀ d < 10, Char.ofNat (48 + d) ≠ '-' := by decide
          exact absurd (List.cons.inj heq).1 (this d (h2 d (by simp)))
      · rw [hn]
        rfl
    · simp only [decimal?, read.mpr ⟨ds, h1, h2, rfl, rfl⟩, Option.map_some]

/-- A hexadecimal digit's character reads as the digit. -/
theorem digitValue_hex_iff {c : Char} {d : Nat} : digitValue 16 c = some d ↔ IsHexDigit d c := by
  constructor
  · intro h
    have hlt : d < 16 ∧ c.toNat < 103 := by
      simp only [digitValue, Option.ite_none_right_eq_some, Option.some.injEq, Char.reduceToNat] at h
      obtain ⟨h1, h2⟩ := h
      refine ⟨by omega, ?_⟩
      by_contra hc
      rw [if_neg (by omega), if_neg (by omega), if_neg (by omega)] at h1
      omega
    obtain ⟨k, hk⟩ : ∃ k, c.toNat = k := ⟨_, rfl⟩
    obtain rfl : c = Char.ofNat k := by rw [← hk, Char.ofNat_toNat]
    have key : ∀ k < 103, ∀ d < 16, digitValue 16 (Char.ofNat k) = some d →
        "0123456789abcdef".toList[d]? = some (Char.ofNat k) ∨ "0123456789ABCDEF".toList[d]? = some (Char.ofNat k) := by
      decide
    exact key k (hk ▸ hlt.2) d hlt.1 h
  · rintro (h | h) <;>
      (have hlt : d < 16 := by
        obtain ⟨hlt, _⟩ := List.getElem?_eq_some_iff.mp h
        simpa using hlt
       interval_cases d <;> (simp at h; subst h; rfl))

/-- `hex?` reads exactly the hexadecimal tokens (30_encoding.md R87). -/
theorem hex?_iff {tok : Token} {n : Int} : hex? tok = some n ↔ ∃ m : Nat, n = m ∧ IsHexToken m tok := by
  constructor
  · intro h
    unfold hex? at h
    split at h
    · obtain ⟨m, hm, rfl⟩ := Option.map_eq_some_iff.mp h
      obtain ⟨ds, h1, h2, h3⟩ := (numeral_iff digitValue_hex_iff).mp hm
      exact ⟨m, rfl, ds, _, h1, h2, h3, .inl rfl⟩
    · obtain ⟨m, hm, rfl⟩ := Option.map_eq_some_iff.mp h
      obtain ⟨ds, h1, h2, h3⟩ := (numeral_iff digitValue_hex_iff).mp hm
      exact ⟨m, rfl, ds, _, h1, h2, h3, .inr rfl⟩
    · cases h
  · rintro ⟨m, rfl, ds, text, h1, h2, h3, rfl | rfl⟩ <;>
      simp only [hex?, (numeral_iff digitValue_hex_iff).mpr ⟨ds, h1, h2, h3⟩, Option.map_some]

/-- A hexadecimal token is no decimal string. -/
theorem decimal?_of_isHexToken {m : Nat} {tok : Token} (h : IsHexToken m tok) : decimal? tok = none := by
  have h0 : digitValue 10 '0' = some 0 := by decide
  have hx : digitValue 10 'x' = none := by decide
  have hX : digitValue 10 'X' = none := by decide
  obtain ⟨_, _, _, _, _, rfl | rfl⟩ := h <;> simp [decimal?, numeral, numeralFrom, h0, hx, hX]

/-- No decimal string begins with `$`. -/
theorem decimal?_dollar (t : Token) : decimal? ('$' :: t) = none := by
  have : digitValue 10 '$' = none := by decide
  simp [decimal?, numeral, numeralFrom, this]

/-- The model's table is R23's. -/
theorem regIndex_eq_some_iff (tok : Token) (i : Fin 32) : regIndex tok = some i ↔ (tok, i) ∈ registerTable := by
  constructor
  · intro h
    have := List.find?_some h
    have hr : regName i = tok := by simpa using this
    subst hr
    revert i
    decide
  · intro h
    have : ∀ p ∈ registerTable, regIndex p.1 = some p.2 := by decide
    exact this _ h
end Sys2Proof
end

