-- ==== Sys2Proof/Laws/Ops.lean ====
section
/-! SUPPORT. What each shared operation of the machine does, said once: register access, diagnostics, and the common
shapes of the evaluators. -/

namespace Sys2Proof.Machine

/-! Registers. -/

/-- A register's value depends on the register file alone. -/
theorem State.x_congr {s t : State} (h : t.regs = s.regs) (i : Fin 32) : t.x i = s.x i := by simp [State.x, h]

@[simp] theorem State.x_zero (s : State) : s.x 0 = 0#32 := rfl

/-- `x[i] <- v` (10_state.md R22, 00_scope.md R11). -/
theorem State.x_setX (s : State) (i : Fin 32) (v : Word) (j : Fin 32) :
    (s.setX i v).x j = if i = j ∧ j ≠ 0 then v else s.x j := by
  by_cases hi : i = 0
  · subst hi
    by_cases hj : (0 : Fin 32) = j
    · subst hj; simp [State.setX]
    · simp [State.setX, hj]
  · by_cases hj : j = 0
    · subst hj; simp
    · simp only [State.setX, hi, if_false, State.x, hj, ne_eq, not_false_eq_true, and_true]
      rw [Vector.getElem_set]
      simp only [Fin.val_inj]

/-- `RegWrite(d, v)` (10_state.md R25). -/
theorem State.x_writeReg (s : State) (d : RegOp) (v : Word) (j : Fin 32) :
    (s.writeReg d v).x j = if d = .valid j ∧ j ≠ 0 then v else s.x j := by
  cases d with
  | valid i => simp [State.writeReg, State.x_setX]
  | invalid tok => simp [State.writeReg, State.x_congr (s := s) (t := s.log _) rfl]

@[simp] theorem State.x_noteReg (s : State) (d : RegOp) (j : Fin 32) : (s.noteReg d).x j = s.x j :=
  State.x_congr (by simp) j

@[simp] theorem State.x_goTo (s : State) (a : Word) (j : Fin 32) : (s.goTo a).x j = s.x j := rfl

@[simp] theorem State.x_advance (s : State) (j : Fin 32) : s.advance.x j = s.x j := rfl

@[simp] theorem State.x_setHiLo (s : State) (hi lo : Word) (j : Fin 32) : (s.setHiLo hi lo).x j = s.x j := rfl

@[simp] theorem State.x_log (s : State) (d : Diag) (j : Fin 32) : (s.log d).x j = s.x j := rfl

@[simp] theorem State.x_noteTarget (s : State) (t : Target) (j : Fin 32) : (s.noteTarget t).x j = s.x j :=
  State.x_congr (by simp) j

/-- A register value depends on the register file alone. -/
theorem State.readReg_congr {s t : State} (h : t.regs = s.regs) (d : RegOp) : t.readReg d = s.readReg d := by
  cases d with
  | valid i => exact State.x_congr h i
  | invalid tok => rfl

/-- No write leaves register 0 holding anything but 0. -/
theorem State.setX_reg0 {s : State} (h : s.regs[0] = 0#32) (i : Fin 32) (v : Word) : (s.setX i v).regs[0] = 0#32 := by
  by_cases hi : i = 0
  · simpa [State.setX, hi] using h
  · have hne : (i : Nat) ≠ 0 := fun h0 => hi (Fin.ext h0)
    simpa [State.setX, hi, Vector.getElem_set, hne] using h

/-- No write through a designator leaves register 0 holding anything but 0. -/
theorem State.writeReg_reg0 {s : State} (h : s.regs[0] = 0#32) (d : RegOp) (v : Word) :
    (s.writeReg d v).regs[0] = 0#32 := by
  cases d with
  | valid i => exact State.setX_reg0 h i v
  | invalid tok => exact h

/-! Memory reads depend on memory alone. -/

/-- A byte read depends on memory alone. -/
theorem State.readByte_congr {s t : State} (h : t.mem = s.mem) (a : Word) : t.readByte a = s.readByte a := by
  simp [State.readByte, h]

/-- Equal memories read alike. -/
theorem sameMemory_of_mem {s t : State} (h : t.mem = s.mem) : SameMemory s t := fun a => State.readByte_congr h a

/-! Diagnostics. -/

theorem operandErrors_append (ds es : List RegOp) : operandErrors (ds ++ es) = operandErrors ds ++ operandErrors es := by
  induction ds with
  | nil => rfl
  | cons d ds ih => cases d <;> simp [operandErrors, ih]

/-- The records of a register position are those of `operandErrors`. -/
theorem State.noteReg_diags_eq (s : State) (d : RegOp) : (s.noteReg d).diags = s.diags ++ operandErrors [d] := by
  cases d <;> simp [State.noteReg, operandErrors]

/-- The records of a register write are those of its designator. -/
theorem State.writeReg_diags_eq (s : State) (d : RegOp) (v : Word) :
    (s.writeReg d v).diags = s.diags ++ operandErrors [d] := by
  rw [State.writeReg_diags, State.noteReg_diags_eq]

/-- Records appended in the order of the list are logged. -/
theorem Logged.of_eq {l : List Diag} {s t : State} (h : t.diags = s.diags ++ l) : Logged l s t :=
  ⟨l, h, List.Perm.refl l⟩

/-! The evaluators' common shapes. -/

/-- The frame of a change to registers, HI, LO, memory, `pc` and diagnostics only. -/
theorem restSame_of {s t : State} (he : t.eng = .running) (hc : t.cfg = s.cfg) (hh : t.heapPtr = s.heapPtr)
    (hsl : t.slots = s.slots) (hl : t.labels = s.labels) (hp : t.phase = s.phase) (ho : t.conOut = s.conOut)
    (hi : t.conIn = s.conIn) (hf : t.freeCount = s.freeCount) : RestSame s t :=
  ⟨he, ⟨hh, hf⟩, ⟨ho, hi⟩, hc, hsl, hl, hp⟩

/-- After reads that leave the records of `reads` and change nothing else, a register write and the pc's advance. -/
theorem writesReg_of {s u : State} {reads : List RegOp} (d : RegOp) (v : Word)
    (hu : u = { s with diags := s.diags ++ operandErrors reads }) : WritesReg d v reads s ((u.writeReg d v).advance) := by
  subst hu
  refine ⟨by simp, fun i => ?_, Logged.of_eq ?_, ⟨by simp, by simp⟩, sameMemory_of_mem (by simp),
    restSame_of (by simp) (by simp) (by simp) (by simp) (by simp) (by simp) (by simp) (by simp) (by simp)⟩
  · rw [State.x_advance, State.x_writeReg]
    rfl
  · simp [State.writeReg_diags_eq, operandErrors_append]

/-- The reads of one position. -/
theorem State.noteReg_eq (s : State) (d : RegOp) : s.noteReg d = { s with diags := s.diags ++ operandErrors [d] } := by
  cases d <;> simp [State.noteReg, State.log, operandErrors]

/-- The reads of two positions. -/
theorem State.noteReg_noteReg_eq (s : State) (d e : RegOp) :
    (s.noteReg d).noteReg e = { s with diags := s.diags ++ operandErrors [d, e] } := by
  rw [State.noteReg_eq, State.noteReg_eq]
  simp [← operandErrors_append]

/-- The reads of no position. -/
theorem State.no_reads (s : State) : s = { s with diags := s.diags ++ operandErrors [] } := by simp [operandErrors]

/-- Format R3: `binary` always completes. -/
theorem binary_spec (f : Word → Word → Word) (rd rs rt : RegOp) (s : State) :
    ∃ t, binary f rd rs rt s = .next t ∧ WritesReg rd (f (s.readReg rs) (s.readReg rt)) [rs, rt] s t :=
  ⟨_, rfl, writesReg_of rd _ (s.noteReg_noteReg_eq rs rt)⟩

/-- HI and LO written after the reads of two positions. -/
theorem writesHiLo_of (s : State) (hi lo : Word) (rs rt : RegOp) :
    WritesHiLo hi lo [rs, rt] s ((((s.noteReg rs).noteReg rt).setHiLo hi lo).advance) := by
  rw [State.noteReg_noteReg_eq]
  exact ⟨rfl, rfl, rfl, Logged.of_eq rfl, fun _ => rfl, fun _ => rfl,
    restSame_of rfl rfl rfl rfl rfl rfl rfl rfl rfl⟩

/-- A divide by zero: HI and LO as they were. -/
theorem keepsHiLo_of (s : State) (rs rt : RegOp) :
    WritesHiLo s.hi s.lo [rs, rt] s ((s.noteReg rs).noteReg rt).advance := by
  rw [State.noteReg_noteReg_eq]
  exact ⟨rfl, rfl, rfl, Logged.of_eq rfl, fun _ => rfl, fun _ => rfl,
    restSame_of rfl rfl rfl rfl rfl rfl rfl rfl rfl⟩

/-- An immediate in its field's range, whatever `IMM_WIDE`. -/
theorem State.immValue_inRange {s : State} {f : ImmField} {imm : ValOp} {n : Int} (h : s.resolveImm imm = .ok n)
    (hr : f.inRange n = true) : s.immValue f imm = .ok (u32 n) := by
  simp [State.immValue, h, fieldValue, hr]

/-- An immediate outside its field's range under `IMM_WIDE = refuse`. -/
theorem State.immValue_outOfRange {s : State} {f : ImmField} {imm : ValOp} {n : Int} (h : s.resolveImm imm = .ok n)
    (hr : f.inRange n = false) (hw : s.cfg.immWide = .refuse) : s.immValue f imm = .refused .immediateOutOfRange := by
  simp [State.immValue, h, fieldValue, hr, hw]

/-- An immediate that does not resolve. -/
theorem State.immValue_fault {s : State} {f : ImmField} {imm : ValOp} {e : Fault} (h : s.resolveImm imm = .fault e) :
    s.immValue f imm = .fault e := by
  simp [State.immValue, h]

/-- The only way an immediate does not resolve (30_encoding.md R89). -/
theorem State.resolveImm_cases (s : State) (imm : ValOp) :
    (∃ n, s.resolveImm imm = .ok n) ∨ ∃ tok, s.resolveImm imm = .fault (.numericConversion tok) := by
  cases imm with
  | num n => exact .inl ⟨n, rfl⟩
  | wide tok => exact .inr ⟨tok, rfl⟩
  | sym name =>
    cases h : labelLookup s.labels name with
    | some a => exact .inl ⟨a.toNat, by simp [State.resolveImm, h]⟩
    | none => exact .inr ⟨name, by simp [State.resolveImm, h]⟩

/-- What going on from a value answers (its only successful way). -/
theorem Got.andThen_next {α : Type} {g : Got α} {k : α → Result} {t : State} (h : g.andThen k = .next t) :
    ∃ a, g = .ok a ∧ k a = .next t := by
  cases g with
  | ok a => exact ⟨a, rfl, h⟩
  | fault f => cases h
  | refused r => cases h

/-- A jump or taken branch: the target's address and records, and nothing else. -/
theorem jumpsTo_of (s : State) (g : Target) (a : Word) :
    JumpsTo a (match g with | .missing name => [.referenceError name] | .label _ => [] | .raw _ => []) s
      ((s.noteTarget g).goTo a) := by
  refine ⟨rfl, Logged.of_eq ?_, fun i => by simp, ⟨by simp, by simp⟩, sameMemory_of_mem (by simp),
    restSame_of (by simp) (by simp) (by simp) (by simp) (by simp) (by simp) (by simp) (by simp) (by simp)⟩
  cases g <;> simp [State.noteTarget]

/-- The address and records of a target that resolves, in the words of `goalOf`. -/
def goalOfTarget (pc0 : Word) (raw : Int → Word) : Target → Word × List Diag
  | .raw n => (raw n, [])
  | .label a => (a, [])
  | .missing name => (pc0, [.referenceError name])

/-- `goalOf` says what `resolveTarget` does (30_encoding.md R90). -/
theorem State.resolveTarget_goal (s : State) (raw : Int → Word) (target : ValOp) :
    (∃ g, s.resolveTarget target = .ok g ∧ goalOf raw s target = some (goalOfTarget s.pc raw g)) ∨
      (∃ tok, target = .wide tok ∧ s.resolveTarget target = .fault (.numericConversion tok) ∧
        goalOf raw s target = none) := by
  cases target with
  | num n => exact .inl ⟨_, rfl, rfl⟩
  | wide tok => exact .inr ⟨tok, rfl, rfl, rfl⟩
  | sym name =>
    cases h : labelLookup s.labels name with
    | some a => exact .inl ⟨.label a, by simp [State.resolveTarget, h], by simp [goalOf, goalOfTarget, h]⟩
    | none => exact .inl ⟨.missing name, by simp [State.resolveTarget, h], by simp [goalOf, goalOfTarget, h]⟩

/-! The families, each said once. -/

/-- An instruction with a ranged immediate does what its continuation does on every operand value in range. -/
theorem rangedImmediate_of {f : ImmField} {lo hi : Int} {imm : ValOp} {i : Instr} {s : State}
    {post : Int → State → Prop} {k : Word → Result}
    (hf : ∀ n, f.inRange n = (decide (lo ≤ n) && decide (n ≤ hi))) (he : exec i s = (s.immValue f imm).andThen k)
    (hk : ∀ n, lo ≤ n → n ≤ hi → ∃ t, k (u32 n) = .next t ∧ post n t) : RangedImmediate lo hi imm i s post := by
  refine ⟨fun n h h1 h2 => ?_, fun n h hr hw => ?_, fun tok h => ?_⟩
  · rw [he, State.immValue_inRange h (by simp [hf, h1, h2])]
    exact hk n h1 h2
  · have hout : f.inRange n = false := by
      rw [hf, Bool.and_eq_false_iff, decide_eq_false_iff_not, decide_eq_false_iff_not]
      omega
    rw [he, State.immValue_outOfRange h hout hw]
    rfl
  · rw [he, State.immValue_fault h]
    rfl

/-- Which integers stand for an immediate of the field: its signed reading, a 32-bit number, an amount of 0..31. -/
def ImmField.stands (f : ImmField) (m : Int) : Prop :=
  match f with
  | .signed16 => s32 (u32 m) = m
  | .logical16 => 0 ≤ m ∧ m < 2 ^ 32
  | .shamt => 0 ≤ m ∧ m < 32

/-- Outside its range an immediate has the operand value of the integer that `IMM_WIDE` makes of it (30_encoding.md R91). -/
theorem fieldValue_of_wideOperand {w : ImmWide} {f : ImmField} {n m : Int} (hr : f.inRange n = false)
    (h : wideOperand w f n = some m) : fieldValue w f n = .ok (u32 m) ∧ f.stands m := by
  cases w <;> cases f <;> simp only [wideOperand, Option.some.injEq, reduceCtorEq] at h <;> subst h <;>
    simp only [fieldValue, hr, Bool.false_eq_true, if_false, ImmField.stands]
  · simp only [s32, u32, BitVec.ofInt_toInt, and_self]
  · refine ⟨congrArg Got.ok (BitVec.eq_of_toInt_eq ?_), by omega, by omega⟩
    simp only [u32, BitVec.toInt_ofInt, Int.bmod]
    omega
  · refine ⟨congrArg Got.ok (BitVec.eq_of_toInt_eq ?_), ?_⟩
    · simp only [ImmField.truncate, BitVec.toInt_signExtend_of_le (show 16 ≤ 32 by omega), u32, BitVec.toInt_ofInt]
      rw [BitVec.toInt_setWidth, BitVec.toNat_ofInt]
      simp only [Int.bmod]
      omega
    · simp only [s32, u32, BitVec.toInt_ofInt, Int.bmod]
      omega
  · refine ⟨congrArg Got.ok (BitVec.eq_of_toNat_eq ?_), by omega, by omega⟩
    simp [ImmField.truncate, u32, BitVec.toNat_ofInt]
    omega
  · refine ⟨congrArg Got.ok (BitVec.eq_of_toNat_eq ?_), by omega, by omega⟩
    simp [ImmField.truncate, u32, BitVec.toNat_ofInt]
    omega

/-- Where there is none it is refused. -/
theorem fieldValue_of_no_wideOperand {w : ImmWide} {f : ImmField} {n : Int} (hr : f.inRange n = false)
    (h : wideOperand w f n = none) : fieldValue w f n = .refused .immediateOutOfRange := by
  cases w <;> cases f <;> simp only [wideOperand, reduceCtorEq] at h <;> simp [fieldValue, hr]

/-- An instruction with an immediate outside its field's range, from what its continuation does. -/
theorem wideImmediate_of {f : ImmField} {imm : ValOp} {i : Instr} {s : State} {post : Int → State → Prop}
    {k : Word → Result} (he : exec i s = (s.immValue f imm).andThen k)
    (hk : ∀ m, f.stands m → ∃ t, k (u32 m) = .next t ∧ post m t) : WideImmediate f imm i s post := by
  refine fun n hn hr => ⟨fun m hm => ?_, fun hm => ?_⟩
  · obtain ⟨hv, hs⟩ := fieldValue_of_wideOperand hr hm
    rw [he, State.immValue, hn]
    simp only [hv]
    exact hk m hs
  · rw [he, State.immValue, hn]
    simp only [fieldValue_of_no_wideOperand hr hm]
    rfl

/-- A load does what its register write does at every effective address. -/
theorem atAddress_of_load {get : State → Word → Word} {rt base : RegOp} {off : Option ValOp} {i : Instr} {s : State}
    (he : exec i s = load get rt off base s) :
    AtAddress off base i s fun a t => WritesReg rt (get s a) [base] s t := by
  refine ⟨fun a ha => ?_, fun f hf => ?_, fun r hr => ?_⟩
  · rw [he, load, ha]
    exact ⟨_, rfl, writesReg_of rt _ (s.noteReg_eq base)⟩
  · rw [he, load, hf]
    rfl
  · rw [he, load, hr]
    rfl

/-- A store ends as its effective address does, and stores in the state after the reads of `base` and `rt`. -/
theorem atAddress_of_store {put : State → Word → Word → State} {rt base : RegOp} {off : Option ValOp} {i : Instr}
    {s : State} {post : Word → State → Prop} (he : exec i s = store put rt off base s)
    (hp : ∀ a, post a (put { s with diags := s.diags ++ operandErrors [base, rt] } a (s.readReg rt)).advance) :
    AtAddress off base i s post := by
  refine ⟨fun a ha => ?_, fun f hf => ?_, fun r hr => ?_⟩
  · rw [he, store, ha, s.noteReg_noteReg_eq base rt]
    exact ⟨_, rfl, hp a⟩
  · rw [he, store, hf]
    rfl
  · rw [he, store, hr]
    rfl

/-- The records a target leaves. -/
theorem State.noteTarget_eq (s : State) (g : Target) : ∃ l, s.noteTarget g = { s with diags := s.diags ++ l } := by
  cases g with
  | raw n => exact ⟨[], by simp [State.noteTarget]⟩
  | label a => exact ⟨[], by simp [State.noteTarget]⟩
  | missing name => exact ⟨[.referenceError name], rfl⟩

/-- A branch on a condition: taken, not taken, and with a target outside the number range. -/
theorem branchesIf_of {c : Bool} {taken : Prop} {target : ValOp} {i : Instr} {s : State}
    (he : exec i s = branch c target s) (hc : c = true ↔ taken) : BranchesIf taken target i s := by
  refine ⟨fun ht a l hg => ?_, fun ht tok hw => ?_, fun ht => ?_⟩
  · rw [he, branch, if_pos (hc.mpr ht)]
    rcases s.resolveTarget_goal _ target with ⟨g, hr, hg'⟩ | ⟨_, _, _, hg'⟩
    · rw [branchGoal, hg'] at hg
      rw [hr]
      refine ⟨_, rfl, ?_⟩
      have hj := jumpsTo_of s g (branchAddress s.pc g)
      cases g <;> (simp only [goalOfTarget, Option.some.injEq, Prod.mk.injEq] at hg; obtain ⟨rfl, rfl⟩ := hg; exact hj)
    · rw [branchGoal, hg'] at hg
      cases hg
  · rw [he, branch, if_pos (hc.mpr ht), hw]
    rfl
  · rw [he, branch, if_neg fun h => ht (hc.mp h)]
    exact ⟨_, rfl, rfl, fun _ => rfl, ⟨rfl, rfl⟩, fun _ => rfl, restSame_of rfl rfl rfl rfl rfl rfl rfl rfl rfl,
      fun _ _ => rfl⟩

/-- The scan of system call 4 finds the string before the first zero byte, given fuel for it (47_system.md R244). -/
theorem stringBytes_of {s : State} {bs : List Byte} {fuel : Nat} {a : Word}
    (hb : ∀ k (h : k < bs.length), s.readByte (a + BitVec.ofNat 32 k) = bs[k] ∧ bs[k] ≠ 0#8)
    (hz : s.readByte (a + BitVec.ofNat 32 bs.length) = 0#8) (hf : bs.length < fuel) :
    stringBytes s fuel a = some bs := by
  induction bs generalizing fuel a with
  | nil =>
    cases fuel with
    | zero => exact absurd hf (Nat.not_lt_zero _)
    | succ fuel =>
      have hz : s.readByte a = 0#8 := by simpa using hz
      simp [stringBytes, hz]
  | cons b bs ih =>
    cases fuel with
    | zero => exact absurd hf (Nat.not_lt_zero _)
    | succ fuel =>
      obtain ⟨h0, hne⟩ := hb 0 (by simp)
      have h0 : s.readByte a = b := by simpa using h0
      have hne : b ≠ 0#8 := hne
      have ht := ih (fuel := fuel) (a := a + 1#32)
        (fun k hk => by rw [add_ofNat_succ]; exact hb (k + 1) (by simpa using hk))
        (by rw [add_ofNat_succ]; exact hz) (by simpa using hf)
      simp [stringBytes, h0, hne, ht]

end Sys2Proof.Machine
end

