-- ==== Sys2Proof/Laws/PerInstr.lean ====
section
/-! SUPPORT. Facts about every instruction as syntax, one lemma per constructor: each is spelled by its own row of
spec/opcode_table.json, with as many operand tokens as one of its format's patterns holds (30_encoding.md R84, R85). -/

namespace Sys2Proof.Laws.SpelledByItsRow

/-- The encoder writes the mnemonic that dispatch classifies as this opcode, and operands in the number of its format. -/
def Statement (i : Instr) : Prop :=
  (encode i).head?.bind (lookupKind true) = some i.kind ∧
    ∃ ps ∈ i.kind.format.positions, ps.length = i.operands.length

theorem add (rd rs rt : RegOp) : Statement (.add rd rs rt) :=
  ⟨lookupKind_spelling .add, _, List.mem_singleton.mpr rfl, rfl⟩

theorem addu (rd rs rt : RegOp) : Statement (.addu rd rs rt) :=
  ⟨lookupKind_spelling .addu, _, List.mem_singleton.mpr rfl, rfl⟩

theorem sub (rd rs rt : RegOp) : Statement (.sub rd rs rt) :=
  ⟨lookupKind_spelling .sub, _, List.mem_singleton.mpr rfl, rfl⟩

theorem subu (rd rs rt : RegOp) : Statement (.subu rd rs rt) :=
  ⟨lookupKind_spelling .subu, _, List.mem_singleton.mpr rfl, rfl⟩

theorem and (rd rs rt : RegOp) : Statement (.and rd rs rt) :=
  ⟨lookupKind_spelling .and, _, List.mem_singleton.mpr rfl, rfl⟩

theorem or (rd rs rt : RegOp) : Statement (.or rd rs rt) :=
  ⟨lookupKind_spelling .or, _, List.mem_singleton.mpr rfl, rfl⟩

theorem xor (rd rs rt : RegOp) : Statement (.xor rd rs rt) :=
  ⟨lookupKind_spelling .xor, _, List.mem_singleton.mpr rfl, rfl⟩

theorem nor (rd rs rt : RegOp) : Statement (.nor rd rs rt) :=
  ⟨lookupKind_spelling .nor, _, List.mem_singleton.mpr rfl, rfl⟩

theorem slt (rd rs rt : RegOp) : Statement (.slt rd rs rt) :=
  ⟨lookupKind_spelling .slt, _, List.mem_singleton.mpr rfl, rfl⟩

theorem sltu (rd rs rt : RegOp) : Statement (.sltu rd rs rt) :=
  ⟨lookupKind_spelling .sltu, _, List.mem_singleton.mpr rfl, rfl⟩

theorem addi (rt rs : RegOp) (imm : ValOp) : Statement (.addi rt rs imm) :=
  ⟨lookupKind_spelling .addi, _, List.mem_singleton.mpr rfl, rfl⟩

theorem addiu (rt rs : RegOp) (imm : ValOp) : Statement (.addiu rt rs imm) :=
  ⟨lookupKind_spelling .addiu, _, List.mem_singleton.mpr rfl, rfl⟩

theorem andi (rt rs : RegOp) (imm : ValOp) : Statement (.andi rt rs imm) :=
  ⟨lookupKind_spelling .andi, _, List.mem_singleton.mpr rfl, rfl⟩

theorem ori (rt rs : RegOp) (imm : ValOp) : Statement (.ori rt rs imm) :=
  ⟨lookupKind_spelling .ori, _, List.mem_singleton.mpr rfl, rfl⟩

theorem xori (rt rs : RegOp) (imm : ValOp) : Statement (.xori rt rs imm) :=
  ⟨lookupKind_spelling .xori, _, List.mem_singleton.mpr rfl, rfl⟩

theorem slti (rt rs : RegOp) (imm : ValOp) : Statement (.slti rt rs imm) :=
  ⟨lookupKind_spelling .slti, _, List.mem_singleton.mpr rfl, rfl⟩

theorem sltiu (rt rs : RegOp) (imm : ValOp) : Statement (.sltiu rt rs imm) :=
  ⟨lookupKind_spelling .sltiu, _, List.mem_singleton.mpr rfl, rfl⟩

theorem lui (rt : RegOp) (imm : ValOp) : Statement (.lui rt imm) :=
  ⟨lookupKind_spelling .lui, _, List.mem_singleton.mpr rfl, rfl⟩

theorem mult (rs rt : RegOp) : Statement (.mult rs rt) :=
  ⟨lookupKind_spelling .mult, _, List.mem_singleton.mpr rfl, rfl⟩

theorem multu (rs rt : RegOp) : Statement (.multu rs rt) :=
  ⟨lookupKind_spelling .multu, _, List.mem_singleton.mpr rfl, rfl⟩

theorem div (rs rt : RegOp) : Statement (.div rs rt) :=
  ⟨lookupKind_spelling .div, _, List.mem_singleton.mpr rfl, rfl⟩

theorem divu (rs rt : RegOp) : Statement (.divu rs rt) :=
  ⟨lookupKind_spelling .divu, _, List.mem_singleton.mpr rfl, rfl⟩

theorem mfhi (rd : RegOp) : Statement (.mfhi rd) :=
  ⟨lookupKind_spelling .mfhi, _, List.mem_singleton.mpr rfl, rfl⟩

theorem mflo (rd : RegOp) : Statement (.mflo rd) :=
  ⟨lookupKind_spelling .mflo, _, List.mem_singleton.mpr rfl, rfl⟩

theorem sll (rd rt : RegOp) (shamt : ValOp) : Statement (.sll rd rt shamt) :=
  ⟨lookupKind_spelling .sll, _, List.mem_singleton.mpr rfl, rfl⟩

theorem srl (rd rt : RegOp) (shamt : ValOp) : Statement (.srl rd rt shamt) :=
  ⟨lookupKind_spelling .srl, _, List.mem_singleton.mpr rfl, rfl⟩

theorem sra (rd rt : RegOp) (shamt : ValOp) : Statement (.sra rd rt shamt) :=
  ⟨lookupKind_spelling .sra, _, List.mem_singleton.mpr rfl, rfl⟩

theorem lw (rt : RegOp) (off : Option ValOp) (base : RegOp) : Statement (.lw rt off base) :=
  ⟨lookupKind_spelling .lw, by cases off <;> simp [Instr.kind, Kind.format, Format.positions, Instr.operands]⟩

theorem lh (rt : RegOp) (off : Option ValOp) (base : RegOp) : Statement (.lh rt off base) :=
  ⟨lookupKind_spelling .lh, by cases off <;> simp [Instr.kind, Kind.format, Format.positions, Instr.operands]⟩

theorem lhu (rt : RegOp) (off : Option ValOp) (base : RegOp) : Statement (.lhu rt off base) :=
  ⟨lookupKind_spelling .lhu, by cases off <;> simp [Instr.kind, Kind.format, Format.positions, Instr.operands]⟩

theorem lb (rt : RegOp) (off : Option ValOp) (base : RegOp) : Statement (.lb rt off base) :=
  ⟨lookupKind_spelling .lb, by cases off <;> simp [Instr.kind, Kind.format, Format.positions, Instr.operands]⟩

theorem lbu (rt : RegOp) (off : Option ValOp) (base : RegOp) : Statement (.lbu rt off base) :=
  ⟨lookupKind_spelling .lbu, by cases off <;> simp [Instr.kind, Kind.format, Format.positions, Instr.operands]⟩

theorem sw (rt : RegOp) (off : Option ValOp) (base : RegOp) : Statement (.sw rt off base) :=
  ⟨lookupKind_spelling .sw, by cases off <;> simp [Instr.kind, Kind.format, Format.positions, Instr.operands]⟩

theorem sh (rt : RegOp) (off : Option ValOp) (base : RegOp) : Statement (.sh rt off base) :=
  ⟨lookupKind_spelling .sh, by cases off <;> simp [Instr.kind, Kind.format, Format.positions, Instr.operands]⟩

theorem sb (rt : RegOp) (off : Option ValOp) (base : RegOp) : Statement (.sb rt off base) :=
  ⟨lookupKind_spelling .sb, by cases off <;> simp [Instr.kind, Kind.format, Format.positions, Instr.operands]⟩

theorem beq (rs rt : RegOp) (target : ValOp) : Statement (.beq rs rt target) :=
  ⟨lookupKind_spelling .beq, _, List.mem_singleton.mpr rfl, rfl⟩

theorem bne (rs rt : RegOp) (target : ValOp) : Statement (.bne rs rt target) :=
  ⟨lookupKind_spelling .bne, _, List.mem_singleton.mpr rfl, rfl⟩

theorem blt (rs rt : RegOp) (target : ValOp) : Statement (.blt rs rt target) :=
  ⟨lookupKind_spelling .blt, _, List.mem_singleton.mpr rfl, rfl⟩

theorem ble (rs rt : RegOp) (target : ValOp) : Statement (.ble rs rt target) :=
  ⟨lookupKind_spelling .ble, _, List.mem_singleton.mpr rfl, rfl⟩

theorem bgt (rs rt : RegOp) (target : ValOp) : Statement (.bgt rs rt target) :=
  ⟨lookupKind_spelling .bgt, _, List.mem_singleton.mpr rfl, rfl⟩

theorem bge (rs rt : RegOp) (target : ValOp) : Statement (.bge rs rt target) :=
  ⟨lookupKind_spelling .bge, _, List.mem_singleton.mpr rfl, rfl⟩

theorem bltz (rs : RegOp) (target : ValOp) : Statement (.bltz rs target) :=
  ⟨lookupKind_spelling .bltz, _, List.mem_singleton.mpr rfl, rfl⟩

theorem blez (rs : RegOp) (target : ValOp) : Statement (.blez rs target) :=
  ⟨lookupKind_spelling .blez, _, List.mem_singleton.mpr rfl, rfl⟩

theorem bgtz (rs : RegOp) (target : ValOp) : Statement (.bgtz rs target) :=
  ⟨lookupKind_spelling .bgtz, _, List.mem_singleton.mpr rfl, rfl⟩

theorem bgez (rs : RegOp) (target : ValOp) : Statement (.bgez rs target) :=
  ⟨lookupKind_spelling .bgez, _, List.mem_singleton.mpr rfl, rfl⟩

theorem j (target : ValOp) : Statement (.j target) :=
  ⟨lookupKind_spelling .j, _, List.mem_singleton.mpr rfl, rfl⟩

theorem jal (target : ValOp) : Statement (.jal target) :=
  ⟨lookupKind_spelling .jal, _, List.mem_singleton.mpr rfl, rfl⟩

theorem jr (rs : RegOp) : Statement (.jr rs) :=
  ⟨lookupKind_spelling .jr, _, List.mem_singleton.mpr rfl, rfl⟩

theorem li (rd : RegOp) (imm : ValOp) : Statement (.li rd imm) :=
  ⟨lookupKind_spelling .li, _, List.mem_singleton.mpr rfl, rfl⟩

theorem la (rd : RegOp) (target : ValOp) : Statement (.la rd target) :=
  ⟨lookupKind_spelling .la, _, List.mem_singleton.mpr rfl, rfl⟩

theorem move (rd rs : RegOp) : Statement (.move rd rs) :=
  ⟨lookupKind_spelling .move, _, List.mem_singleton.mpr rfl, rfl⟩

theorem clear (rd : RegOp) : Statement (.clear rd) :=
  ⟨lookupKind_spelling .clear, _, List.mem_singleton.mpr rfl, rfl⟩

theorem not (rd rs : RegOp) : Statement (.not rd rs) :=
  ⟨lookupKind_spelling .not, _, List.mem_singleton.mpr rfl, rfl⟩

theorem syscall : Statement .syscall :=
  ⟨lookupKind_spelling .syscall, _, List.mem_singleton.mpr rfl, rfl⟩

theorem nop : Statement .nop :=
  ⟨lookupKind_spelling .nop, _, List.mem_singleton.mpr rfl, rfl⟩

end Sys2Proof.Laws.SpelledByItsRow
end

