-- ==== Sys2Proof/Laws/Steps.lean ====
section
/-! SUPPORT. What a step, a fetch and a load can do, said once. -/

namespace Sys2Proof.Machine

/-- A step that answers a next state: nothing on a halted engine, no instruction at `pc`, an instruction's evaluator, or
an unknown opcode (60_exceptions.md R281, R284). -/
theorem step_next_cases {s t : State} (h : step s = .next t) :
    (s.eng = .halted ∧ t = s) ∨
      (s.eng ≠ .halted ∧ s.phase ≠ .failed ∧
        ((s.fetch s.pc = none ∧ t = s.noInstruction) ∨
          ∃ toks, s.fetch s.pc = some toks ∧
            ((∃ i, decode s.cfg.admitTierC toks = .instr i ∧ exec i s = .next t) ∨
              ∃ mnemonic, decode s.cfg.admitTierC toks = .unknown mnemonic ∧ t = s.unknownOpcode mnemonic))) := by
  unfold step at h
  split at h
  · cases h
    exact .inl ⟨‹_›, rfl⟩
  split at h
  · cases h
  refine .inr ⟨‹_›, ‹_›, ?_⟩
  split at h
  · cases h
    exact .inl ⟨‹_›, rfl⟩
  · rename_i toks hf
    refine .inr ⟨toks, hf, ?_⟩
    split at h
    · exact .inl ⟨_, ‹_›, h⟩
    · cases h
      exact .inr ⟨_, ‹_›, rfl⟩
    · cases h

/-- The slot number of an address (10_state.md R37). -/
theorem slotIndex_eq_some {cfg : Config} {a : Word} {i : Nat} :
    slotIndex cfg a = some i ↔ a.toNat = cfg.textBase.toNat + 4 * i := by
  simp only [slotIndex, Fixed.value]
  split <;> simp <;> omega

/-- What a fetch finds. -/
theorem State.fetch_eq_some {s : State} {a : Word} {toks : List Token} :
    s.fetch a = some toks ↔ ∃ i, a.toNat = s.cfg.textBase.toNat + 4 * i ∧ s.slots[i]? = some toks := by
  simp only [← slotIndex_eq_some]
  unfold State.fetch
  split <;> simp [*]

/-- When a fetch finds nothing. -/
theorem State.fetch_eq_none {s : State} {a : Word} :
    s.fetch a = none ↔ ∀ i < s.slots.length, a.toNat ≠ s.cfg.textBase.toNat + 4 * i := by
  rw [Option.eq_none_iff_forall_ne_some]
  refine ⟨fun h i hi ha => h _ (State.fetch_eq_some.mpr ⟨i, ha, List.getElem?_eq_getElem hi⟩), fun h toks ht => ?_⟩
  obtain ⟨i, ha, hs⟩ := State.fetch_eq_some.mp ht
  exact h i (List.getElem?_eq_some_iff.mp hs).1 ha

/-- The fetch at `pc`, in the words of the statements. -/
theorem fetch_of_slotAtPc {s : State} {toks : List Token} : s.fetch s.pc = some toks ↔ SlotAtPc s toks :=
  State.fetch_eq_some

/-- No slot at `pc`, in the words of the statements. -/
theorem fetch_of_noSlotAtPc {s : State} : s.fetch s.pc = none ↔ NoSlotAtPc s :=
  State.fetch_eq_none

/-- With nothing loaded no address holds a slot. -/
theorem State.fetch_of_slots_nil {s : State} (h : s.slots = []) (a : Word) : s.fetch a = none := by
  unfold State.fetch
  split
  · simp [h]
  · rfl

/-- The registers at reset (10_state.md R42). -/
theorem State.x_resetWith (cfg : Config) (i : Fin 32) :
    (State.resetWith cfg).x i = if i = 29 then cfg.spInit else 0#32 := by
  simp only [State.x, State.resetWith, Vector.getElem_set, Vector.getElem_replicate]
  by_cases h0 : i = 0
  · subst h0
    rfl
  · by_cases h : i = 29
    · subst h
      rfl
    · rw [if_neg h0, if_neg h, if_neg fun hh => h (Fin.ext hh.symm)]

/-- What `load` answers (30_encoding.md R107, 60_exceptions.md R282). -/
theorem State.load_cases (s : State) (text : List Char) :
    (∃ r, s.load text = .refused r) ∨
      (s.phase = .fresh ∧ s.eng = .ready ∧
        ((∃ tok, s.load text = .error { s with phase := .failed } tok) ∨
          ∃ l, (Loader.start s.cfg).pass s.cfg (linesFrom [] text) = .ok l ∧
            s.load text =
              .loaded { s with slots := l.slots, labels := l.labels, mem := l.mem, pc := s.cfg.textBase,
                               eng := .ready, phase := .loaded } l.slots.length l.labels.length)) := by
  unfold State.load
  split
  · rename_i hf
    split
    · split
      · exact .inr ⟨hf.1, hf.2, .inr ⟨_, ‹_›, rfl⟩⟩
      · exact .inr ⟨hf.1, hf.2, .inl ⟨_, rfl⟩⟩
      · exact .inl ⟨_, rfl⟩
    · exact .inl ⟨_, rfl⟩
  · exact .inl ⟨_, rfl⟩

/-- A load step that goes on. -/
theorem Loading.andThen_ok {α β : Type} {x : Loading α} {k : α → Loading β} {b : β} (h : x.andThen k = .ok b) :
    ∃ a, x = .ok a ∧ k a = .ok b := by
  cases x with
  | ok a => exact ⟨a, rfl, h⟩
  | error tok => cases h
  | refused r => cases h

end Sys2Proof.Machine
end

