-- ==== Sys2Proof/Tests/Slice0.lean ====
section
/-! SUPPORT. The model's own tests. Expected values are the spec's own: 95_test_vectors.md (cited as V<section>.<row>,
L<n>, S<n>) and the rules named. -/

namespace Sys2Proof.Tests

open Sys2Proof.Machine

/-! Helpers. -/

/-- Registers set in `s`. -/
def sets (l : List (Fin 32 × Word)) (s : State) : State := l.foldl (fun s p => s.setX p.1 p.2) s

/-- Bytes stored in `s` from address `a` upward. -/
def bytesAt (a : Word) (bs : List Byte) (s : State) : State := s.writeBytes a bs

/-- One entry in the label table. -/
def labelled (name : String) (a : Word) (s : State) : State := { s with labels := [(name.toList, a)] }

/-- The one slot of a program that starts at `pc`. -/
def slotAt (pc : Word) (line : String) (s : State) : State :=
  { s with cfg := { s.cfg with textBase := pc }, pc := pc, slots := [tokenize line.toList], phase := .loaded }

/-- The one slot of a program at `TEXT_BASE`. -/
def slot (line : String) (s : State) : State := slotAt 0x00400000#32 line s

/-- The step answers a next state with this property. -/
def nextIs (r : Result) (p : State → Bool) : Bool :=
  match r with
  | .next t => p t
  | .fault _ => false
  | .refused _ => false

/-- The step ends in this fault. -/
def faultIs (r : Result) (f : Fault) : Bool :=
  match r with
  | .next _ => false
  | .fault g => g == f
  | .refused _ => false

/-- The step is refused for this reason. -/
def refusedAs (r : Result) (f : Refusal) : Bool :=
  match r with
  | .next _ => false
  | .fault _ => false
  | .refused g => g == f

/-- The bytes from `a` upward. -/
def bytesFrom (s : State) (a : Word) (n : Nat) : List Byte :=
  (List.range n).map fun k => s.readByte (a + BitVec.ofNat 32 k)

/-- The source lines of a program. -/
def source (lines : List String) : List Char := lines.flatMap fun l => l.toList ++ ['\n']

/-- The load succeeds with this property of the loaded state and the two counts. -/
def loads (lines : List String) (p : State → Nat → Nat → Bool) : Bool :=
  match State.reset.load (source lines) with
  | .loaded s n m => p s n m
  | .error _ _ => false
  | .refused _ => false

/-- The load ends in a load error. -/
def loadFails (lines : List String) : Bool :=
  match State.reset.load (source lines) with
  | .loaded _ _ _ => false
  | .error _ _ => true
  | .refused _ => false

/-- The load is refused for this reason. -/
def loadRefused (lines : List String) (r : LoadRefusal) : Bool :=
  match State.reset.load (source lines) with
  | .loaded _ _ _ => false
  | .error _ _ => false
  | .refused q => q == r

/-- What the decoder reads from a line. -/
def decodesTo (line : String) (i : Instr) : Bool := decode true (tokenize line.toList) == .instr i

/-! Well-formedness: one ill-formed term for each check, which the check refuses (30_encoding.md R92, 10_state.md R24). -/

theorem test_wf_accepts : Instr.wf (.addi (.valid 31) (.invalid "$foo".toList) (.num (-32769))) = true := by decide
/-- A token that names a register is no invalid designator. -/
theorem test_wf_refuses_valid_name : Instr.wf (.clear (.invalid "$t0".toList)) = false := by decide
/-- An unsettled designator, R24(c). -/
theorem test_wf_refuses_unsettled_name : Instr.wf (.jr (.invalid "$8".toList)) = false := by decide
/-- An unmatched parenthesis in a register position, R92. -/
theorem test_wf_refuses_open_paren : Instr.wf (.mfhi (.invalid "$t0(".toList)) = false := by decide
/-- Below every number R88 reads. -/
theorem test_wf_refuses_small_number : Instr.wf (.li (.valid 8) (.num (-2147483649))) = false := by decide
/-- Above every number R88 reads. -/
theorem test_wf_refuses_large_number : Instr.wf (.li (.valid 8) (.num 4294967296)) = false := by decide
/-- A numeral inside R88's ranges is no wide token. -/
theorem test_wf_refuses_wide_in_range : Instr.wf (.j (.wide "5".toList)) = false := by decide
/-- A token of Num shape is no symbol. -/
theorem test_wf_refuses_numeric_symbol : Instr.wf (.j (.sym "0x10".toList)) = false := by decide
/-- An unmatched parenthesis in a value position. -/
theorem test_wf_refuses_open_symbol : Instr.wf (.lw (.valid 9) (some (.sym "4(".toList)) (.valid 29)) = false := by decide

/-! Decoding: slots written out token by token from 30_encoding.md R81, R82 and R85's formats. -/

theorem test_decode_arith_logic :
    decodesTo "add $t2, $t0, $t1" (.add (.valid 10) (.valid 8) (.valid 9)) = true ∧
    decodesTo "addu $t2, $t0, $t1" (.addu (.valid 10) (.valid 8) (.valid 9)) = true ∧
    decodesTo "sub $t2, $t0, $t1" (.sub (.valid 10) (.valid 8) (.valid 9)) = true ∧
    decodesTo "subu $t2, $t0, $t1" (.subu (.valid 10) (.valid 8) (.valid 9)) = true ∧
    decodesTo "and $t2, $t0, $t1" (.and (.valid 10) (.valid 8) (.valid 9)) = true ∧
    decodesTo "or $t2, $t0, $t1" (.or (.valid 10) (.valid 8) (.valid 9)) = true ∧
    decodesTo "xor $t2, $t0, $t1" (.xor (.valid 10) (.valid 8) (.valid 9)) = true ∧
    decodesTo "nor $t2, $t0, $t1" (.nor (.valid 10) (.valid 8) (.valid 9)) = true ∧
    decodesTo "slt $t2, $t0, $t1" (.slt (.valid 10) (.valid 8) (.valid 9)) = true ∧
    decodesTo "sltu $t2, $t0, $t1" (.sltu (.valid 10) (.valid 8) (.valid 9)) = true ∧
    decodesTo "addi $s7, $gp, -7" (.addi (.valid 23) (.valid 28) (.num (-7))) = true ∧
    decodesTo "addiu $s7, $gp, -7" (.addiu (.valid 23) (.valid 28) (.num (-7))) = true ∧
    decodesTo "slti $s7, $gp, -7" (.slti (.valid 23) (.valid 28) (.num (-7))) = true ∧
    decodesTo "sltiu $s7, $gp, -7" (.sltiu (.valid 23) (.valid 28) (.num (-7))) = true ∧
    decodesTo "andi $k0, $fp, 0xFF" (.andi (.valid 26) (.valid 30) (.num 255)) = true ∧
    decodesTo "ori $k0, $fp, 0xFF" (.ori (.valid 26) (.valid 30) (.num 255)) = true ∧
    decodesTo "xori $k0, $fp, 0xFF" (.xori (.valid 26) (.valid 30) (.num 255)) = true ∧
    decodesTo "lui $t0, 0x1001" (.lui (.valid 8) (.num 4097)) = true := by decide

theorem test_decode_mul_div :
    decodesTo "mult $a0,$a1" (.mult (.valid 4) (.valid 5)) = true ∧
    decodesTo "multu $a0,$a1" (.multu (.valid 4) (.valid 5)) = true ∧
    decodesTo "div $a0,$a1" (.div (.valid 4) (.valid 5)) = true ∧
    decodesTo "divu $a0,$a1" (.divu (.valid 4) (.valid 5)) = true ∧
    decodesTo "mfhi $t1" (.mfhi (.valid 9)) = true ∧
    decodesTo "mflo $t1" (.mflo (.valid 9)) = true := by decide

theorem test_decode_shift :
    decodesTo "sll $t1, $t0, 0x10" (.sll (.valid 9) (.valid 8) (.num 16)) = true ∧
    decodesTo "srl $t1, $t0, 0x10" (.srl (.valid 9) (.valid 8) (.num 16)) = true ∧
    decodesTo "sra $t1, $t0, 0x10" (.sra (.valid 9) (.valid 8) (.num 16)) = true := by decide

theorem test_decode_load_store :
    decodesTo "lw $t1, -8($fp)" (.lw (.valid 9) (some (.num (-8))) (.valid 30)) = true ∧
    decodesTo "lh $t1, -8($fp)" (.lh (.valid 9) (some (.num (-8))) (.valid 30)) = true ∧
    decodesTo "lhu $t1, -8($fp)" (.lhu (.valid 9) (some (.num (-8))) (.valid 30)) = true ∧
    decodesTo "lb $t1, -8($fp)" (.lb (.valid 9) (some (.num (-8))) (.valid 30)) = true ∧
    decodesTo "lbu $t1, -8($fp)" (.lbu (.valid 9) (some (.num (-8))) (.valid 30)) = true ∧
    decodesTo "sw $t1, -8($fp)" (.sw (.valid 9) (some (.num (-8))) (.valid 30)) = true ∧
    decodesTo "sh $t1, -8($fp)" (.sh (.valid 9) (some (.num (-8))) (.valid 30)) = true ∧
    decodesTo "sb $t1, -8($fp)" (.sb (.valid 9) (some (.num (-8))) (.valid 30)) = true ∧
    decodesTo "lw $t1, ($t0)" (.lw (.valid 9) none (.valid 8)) = true ∧
    decodesTo "sw $t1, buf($zero)" (.sw (.valid 9) (some (.sym "buf".toList)) (.valid 0)) = true := by decide

theorem test_decode_branch :
    decodesTo "beq $t1, $zero, loop" (.beq (.valid 9) (.valid 0) (.sym "loop".toList)) = true ∧
    decodesTo "bne $t1, $zero, loop" (.bne (.valid 9) (.valid 0) (.sym "loop".toList)) = true ∧
    decodesTo "blt $t1, $zero, loop" (.blt (.valid 9) (.valid 0) (.sym "loop".toList)) = true ∧
    decodesTo "ble $t1, $zero, loop" (.ble (.valid 9) (.valid 0) (.sym "loop".toList)) = true ∧
    decodesTo "bgt $t1, $zero, loop" (.bgt (.valid 9) (.valid 0) (.sym "loop".toList)) = true ∧
    decodesTo "bge $t1, $zero, loop" (.bge (.valid 9) (.valid 0) (.sym "loop".toList)) = true ∧
    decodesTo "bltz $t0,2" (.bltz (.valid 8) (.num 2)) = true ∧
    decodesTo "blez $t0,2" (.blez (.valid 8) (.num 2)) = true ∧
    decodesTo "bgtz $t0,2" (.bgtz (.valid 8) (.num 2)) = true ∧
    decodesTo "bgez $t0,2" (.bgez (.valid 8) (.num 2)) = true := by decide

theorem test_decode_jump :
    decodesTo "j 0x100003" (.j (.num 1048579)) = true ∧
    decodesTo "jal f" (.jal (.sym "f".toList)) = true ∧
    decodesTo "jr $ra" (.jr (.valid 31)) = true := by decide

theorem test_decode_pseudo :
    decodesTo "li $t0, -2147483648" (.li (.valid 8) (.num (-2147483648))) = true ∧
    decodesTo "la $a0,msg" (.la (.valid 4) (.sym "msg".toList)) = true ∧
    decodesTo "move $a0, $t2" (.move (.valid 4) (.valid 10)) = true ∧
    decodesTo "clear $t2" (.clear (.valid 10)) = true ∧
    decodesTo "not $t1, $t0" (.not (.valid 9) (.valid 8)) = true := by decide

theorem test_decode_system :
    decodesTo "syscall" (.syscall) = true ∧
    decodesTo "nop" (.nop) = true := by decide

/-- V2.1.35 to V2.1.37: decimal designators, valid and invalid (10_state.md R24(b)). -/
theorem test_decode_designators :
    decodesTo "add $t2, 8, 31" (.add (.valid 10) (.valid 8) (.valid 31)) = true ∧
    decodesTo "add $t2, 32, -1" (.add (.valid 10) (.invalid "32".toList) (.invalid "-1".toList)) = true := by decide

/-- V2.1.38 to V2.1.40, V2.4.26, V2.7.19, V2.8.21: ill-formed operand lists. -/
theorem test_decode_ill_formed :
    decode true (tokenize "add $t2, $8, $t1".toList) = .illFormed ∧
    decode true (tokenize "add $t2, t0, $t1".toList) = .illFormed ∧
    decode true (tokenize "add $t2, $t0".toList) = .illFormed ∧
    decode true (tokenize "lw $t1, 4($t0".toList) = .illFormed ∧
    decode true (tokenize "clear $t0, $t1".toList) = .illFormed ∧
    decode true (tokenize "nop 1".toList) = .illFormed := by decide

/-- V2.8.22 to V2.8.24: unknown opcodes; and a Tier C mnemonic that is not admitted (30_encoding.md R84). -/
theorem test_decode_unknown :
    decode true (tokenize "frobnicate $t0, 1".toList) = .unknown "frobnicate".toList ∧
    decode true (tokenize "ADD $t2, $t0, $t1".toList) = .unknown "ADD".toList ∧
    decode true (tokenize ".word 5".toList) = .unknown ".word".toList ∧
    decode false (tokenize "addu $t2, $t0, $t1".toList) = .unknown "addu".toList := by decide

/-- S11: the tokenization examples. -/
theorem test_tokenize :
    tokenize "lw $t1, 4($sp)".toList = ["lw".toList, "$t1".toList, "4".toList, "$sp".toList] ∧
    tokenize "la $a0,msg".toList = ["la".toList, "$a0".toList, "msg".toList] := by decide

/-- The encoder's spelling of one instruction (log entry 25). -/
theorem test_encode :
    encode (.ori (.valid 8) (.invalid "$foo".toList) (.num 4294967295)) =
      ["ori".toList, "$t0".toList, "$foo".toList, "0xffffffff".toList] := by decide

/-- The host's numbering (log entry 1): the bytes of `nop`, and of a mnemonic alone with zero operands. -/
theorem test_table_word :
    decodeTableWord 24 0x706F6E = some .nop ∧
    decodeTableWord 16 0x696C = some (.li (.valid 0) (.num 0)) := by decide

/-! One step: the instructions, in the table's order. -/

/-- V2.1.1: no overflow trap. -/
theorem test_add_wraps : nextIs (step (slot "add $t2, $t0, $t1" (sets [(8, 0x7FFFFFFF#32), (9, 1#32)] .reset)))
    (fun t => t.x 10 == 0x80000000#32 && t.diags == [] && t.pc == 0x00400004#32) = true := by decide
/-- V2.1.3. -/
theorem test_add_zero_destination : nextIs (step (slot "add $zero, $t0, $t1" (sets [(8, 0x7FFFFFFF#32), (9, 1#32)] .reset)))
    (fun t => t.x 0 == 0#32 && t.diags == []) = true := by decide
/-- The example of R132. -/
theorem test_addu : nextIs (step (slot "addu $t2, $t0, $t1" (sets [(8, 0xFFFFFFFF#32), (9, 2#32)] .reset)))
    (fun t => t.x 10 == 1#32) = true := by decide
/-- V2.1.5. -/
theorem test_sub : nextIs (step (slot "sub $t2, $t0, $t1" (sets [(8, 0x80000000#32), (9, 1#32)] .reset)))
    (fun t => t.x 10 == 0x7FFFFFFF#32) = true := by decide
/-- V2.1.6. -/
theorem test_subu : nextIs (step (slot "subu $t2, $t0, $t1" (sets [(8, 0#32), (9, 1#32)] .reset)))
    (fun t => t.x 10 == 0xFFFFFFFF#32) = true := by decide
/-- V2.1.7. -/
theorem test_and : nextIs (step (slot "and $t2, $t0, $t1" (sets [(8, 0xFF00FF00#32), (9, 0x0FF00FF0#32)] .reset)))
    (fun t => t.x 10 == 0x0F000F00#32) = true := by decide
/-- V2.1.8. -/
theorem test_or : nextIs (step (slot "or $t2, $t0, $t1" (sets [(8, 0xFF00FF00#32), (9, 0x0FF00FF0#32)] .reset)))
    (fun t => t.x 10 == 0xFFF0FFF0#32) = true := by decide
/-- V2.1.9. -/
theorem test_xor : nextIs (step (slot "xor $t2, $t0, $t1" (sets [(8, 0xFF00FF00#32), (9, 0x0FF00FF0#32)] .reset)))
    (fun t => t.x 10 == 0xF0F0F0F0#32) = true := by decide
/-- V2.1.10. -/
theorem test_nor : nextIs (step (slot "nor $t2, $t0, $t1" (sets [(8, 0xFF00FF00#32), (9, 0x0FF00FF0#32)] .reset)))
    (fun t => t.x 10 == 0x000F000F#32) = true := by decide
/-- V2.1.15. -/
theorem test_slt : nextIs (step (slot "slt $t2, $t0, $t1" (sets [(8, 0x80000000#32), (9, 0x7FFFFFFF#32)] .reset)))
    (fun t => t.x 10 == 1#32) = true := by decide
/-- V2.1.12. -/
theorem test_sltu : nextIs (step (slot "sltu $t2, $t0, $t1" (sets [(8, 0xFFFFFFFF#32), (9, 1#32)] .reset)))
    (fun t => t.x 10 == 0#32) = true := by decide
/-- V2.1.33: an invalid source reads 0. -/
theorem test_invalid_source : nextIs (step (slot "add $t2, $bogus, $t1" (sets [(8, 0xFFFFFFFF#32), (9, 1#32)] .reset)))
    (fun t => t.x 10 == 1#32 && t.diags == [.operandError "$bogus".toList]) = true := by decide
/-- V2.1.34: the write is dropped. -/
theorem test_invalid_destination : nextIs (step (slot "add $bogus, $t0, $t1" (sets [(8, 0xFFFFFFFF#32), (9, 1#32)] .reset)))
    (fun t => t.regs == (sets [(8, 0xFFFFFFFF#32), (9, 1#32)] .reset).regs && t.diags == [.operandError "$bogus".toList]) = true := by decide
/-- V2.1.18. -/
theorem test_addi : nextIs (step (slot "addi $t0, $t0, 32767" (sets [(8, 0x7FFFFFFF#32)] .reset)))
    (fun t => t.x 8 == 0x80007FFE#32) = true := by decide
/-- V2.1.20. -/
theorem test_addi_out_of_range : refusedAs (step (slot "addi $t0, $t0, 32768" .reset)) .immediateOutOfRange = true := by decide
/-- V2.1.19. -/
theorem test_addiu : nextIs (step (slot "addiu $t0, $t0, -32768" (sets [(8, 0x00008000#32)] .reset)))
    (fun t => t.x 8 == 0#32) = true := by decide
/-- V2.1.21. -/
theorem test_andi : nextIs (step (slot "andi $t1, $t0, 0xFF" (sets [(8, 0x12345678#32)] .reset)))
    (fun t => t.x 9 == 0x78#32) = true := by decide
/-- V2.1.22. -/
theorem test_ori : nextIs (step (slot "ori $t1, $t0, 0xFFFF" (sets [(8, 0x12340000#32)] .reset)))
    (fun t => t.x 9 == 0x1234FFFF#32) = true := by decide
/-- V2.1.23. -/
theorem test_xori : nextIs (step (slot "xori $t1, $t0, 0xFFFF" (sets [(8, 0x0000FFFF#32)] .reset)))
    (fun t => t.x 9 == 0#32 && t.x 8 == 0xFFFF#32) = true := by decide
/-- V2.1.25. -/
theorem test_slti : nextIs (step (slot "slti $t1, $t0, -1" (sets [(8, 0xFFFFFFFE#32)] .reset)))
    (fun t => t.x 9 == 1#32) = true := by decide
/-- V2.1.27. -/
theorem test_sltiu : nextIs (step (slot "sltiu $t1, $t0, -1" (sets [(8, 5#32)] .reset)))
    (fun t => t.x 9 == 1#32) = true := by decide
/-- V2.1.31. -/
theorem test_lui : nextIs (step (slot "lui $t0, 65535" .reset))
    (fun t => t.x 8 == 0xFFFF0000#32) = true := by decide
/-- V2.2.1. -/
theorem test_mult : nextIs (step (slot "mult $t0, $t1" (sets [(8, 0xFFFFFFFA#32), (9, 4#32)] .reset)))
    (fun t => t.hi == 0xFFFFFFFF#32 && t.lo == 0xFFFFFFE8#32) = true := by decide
/-- V2.2.4. -/
theorem test_multu : nextIs (step (slot "multu $t0, $t1" (sets [(8, 0xFFFFFFFF#32), (9, 0xFFFFFFFF#32)] .reset)))
    (fun t => t.hi == 0xFFFFFFFE#32 && t.lo == 1#32) = true := by decide
/-- V2.2.9. -/
theorem test_div : nextIs (step (slot "div $t0, $t1" (sets [(8, 0xFFFFFFF9#32), (9, 2#32)] .reset)))
    (fun t => t.lo == 0xFFFFFFFD#32 && t.hi == 0xFFFFFFFF#32) = true := by decide
/-- V2.2.14. -/
theorem test_div_overflow : faultIs (step (slot "div $t0, $t1" (sets [(8, 0x80000000#32), (9, 0xFFFFFFFF#32)] .reset))) (.divideOverflow) = true := by decide
/-- V2.2.15. -/
theorem test_divu : nextIs (step (slot "divu $t0, $t1" (sets [(8, 0x80000000#32), (9, 0xFFFFFFFF#32)] .reset)))
    (fun t => t.lo == 0#32 && t.hi == 0x80000000#32) = true := by decide
/-- V2.2.13: HI and LO keep their values, nothing is logged. -/
theorem test_divu_by_zero : nextIs (step (slot "divu $t0, $t1" (sets [(8, 7#32)] (State.reset.setHiLo 0x1234#32 0x5678#32))))
    (fun t => t.hi == 0x1234#32 && t.lo == 0x5678#32 && t.diags == []) = true := by decide
/-- V2.2.19. -/
theorem test_mfhi : nextIs (step (slot "mfhi $t1" (State.reset.setHiLo 0xFFFFFFFE#32 5#32)))
    (fun t => t.x 9 == 0xFFFFFFFE#32) = true := by decide
/-- V2.2.20. -/
theorem test_mflo : nextIs (step (slot "mflo $t0" (State.reset.setHiLo 5#32 0xFFFFFFE8#32)))
    (fun t => t.x 8 == 0xFFFFFFE8#32) = true := by decide
/-- V2.3.3. -/
theorem test_sll : nextIs (step (slot "sll $t1, $t0, 31" (sets [(8, 0x80000001#32)] .reset)))
    (fun t => t.x 9 == 0x80000000#32) = true := by decide
/-- V2.3.13. -/
theorem test_sll_out_of_range : refusedAs (step (slot "sll $t1, $t0, 32" .reset)) .immediateOutOfRange = true := by decide
/-- V2.3.6. -/
theorem test_srl : nextIs (step (slot "srl $t1, $t0, 31" (sets [(8, 0x80000001#32)] .reset)))
    (fun t => t.x 9 == 1#32) = true := by decide
/-- V2.3.8. -/
theorem test_sra : nextIs (step (slot "sra $t1, $t0, 1" (sets [(8, 0x80000001#32)] .reset)))
    (fun t => t.x 9 == 0xC0000000#32) = true := by decide
/-- V2.4.9: unaligned. -/
theorem test_lw_unaligned : nextIs (step (slot "lw $t1, 1($t0)" (sets [(8, 0x10010000#32)] (bytesAt 0x10010000#32 [0x78#8, 0x56#8, 0x34#8, 0x92#8] .reset))))
    (fun t => t.x 9 == 0x00923456#32) = true := by decide
/-- V2.4.18: wraps at the top of memory. -/
theorem test_lw_wraps : nextIs (step (slot "lw $t1, 0($t0)" (sets [(8, 0xFFFFFFFE#32)] (bytesAt 0xFFFFFFFE#32 [1#8, 2#8, 3#8, 4#8] .reset))))
    (fun t => t.x 9 == 0x04030201#32) = true := by decide
/-- V2.4.4. -/
theorem test_lh : nextIs (step (slot "lh $t1, 2($t0)" (sets [(8, 0x10010000#32)] (bytesAt 0x10010000#32 [0x78#8, 0x56#8, 0x34#8, 0x92#8] .reset))))
    (fun t => t.x 9 == 0xFFFF9234#32) = true := by decide
/-- V2.4.5. -/
theorem test_lhu : nextIs (step (slot "lhu $t1, 2($t0)" (sets [(8, 0x10010000#32)] (bytesAt 0x10010000#32 [0x78#8, 0x56#8, 0x34#8, 0x92#8] .reset))))
    (fun t => t.x 9 == 0x00009234#32) = true := by decide
/-- V2.4.6. -/
theorem test_lb : nextIs (step (slot "lb $t1, 3($t0)" (sets [(8, 0x10010000#32)] (bytesAt 0x10010000#32 [0x78#8, 0x56#8, 0x34#8, 0x92#8] .reset))))
    (fun t => t.x 9 == 0xFFFFFF92#32) = true := by decide
/-- V2.4.7. -/
theorem test_lbu : nextIs (step (slot "lbu $t1, 3($t0)" (sets [(8, 0x10010000#32)] (bytesAt 0x10010000#32 [0x78#8, 0x56#8, 0x34#8, 0x92#8] .reset))))
    (fun t => t.x 9 == 0x92#32) = true := by decide
/-- V2.4.17. -/
theorem test_sw_wraps : nextIs (step (slot "sw $t1, 0($t0)" (sets [(8, 0xFFFFFFFE#32), (9, 0xAABBCCDD#32)] .reset)))
    (fun t => t.mem == [(0, 0xBB#8), (1, 0xAA#8), (0xFFFFFFFE, 0xDD#8), (0xFFFFFFFF, 0xCC#8)]) = true := by decide
/-- V2.4.25: stores 0, over bytes that were written. -/
theorem test_sw_invalid_register : nextIs (step (slot "sw $bogus, 0($t0)" (sets [(8, 0x10010000#32)] (bytesAt 0x10010000#32 [0x78#8, 0x56#8, 0x34#8, 0x92#8] .reset))))
    (fun t => t.mem == [] && t.diags == [.operandError "$bogus".toList]) = true := by decide
/-- V2.4.14. -/
theorem test_sh : nextIs (step (slot "sh $t1, 2($t0)" (sets [(8, 0x10010000#32), (9, 0x12345678#32)] .reset)))
    (fun t => bytesFrom t 0x10010000#32 4 == [0#8, 0#8, 0x78#8, 0x56#8]) = true := by decide
/-- V2.4.15. -/
theorem test_sb : nextIs (step (slot "sb $t1, 1($t0)" (sets [(8, 0x10010000#32), (9, 0x12345678#32)] .reset)))
    (fun t => bytesFrom t 0x10010000#32 4 == [0#8, 0x78#8, 0#8, 0#8]) = true := by decide
/-- V2.5.2: a branch to itself. -/
theorem test_beq_offset : nextIs (step (slotAt 0x00400024#32 "beq $t0, $t1, -1" (sets [(8, 5#32), (9, 5#32)] .reset)))
    (fun t => t.pc == 0x00400024#32) = true := by decide
/-- V2.5.9: the fallback to pc0. -/
theorem test_beq_unresolved : nextIs (step (slotAt 0x00400024#32 "beq $zero, $zero, nosuch" .reset))
    (fun t => t.pc == 0x00400024#32 && t.diags == [.referenceError "nosuch".toList]) = true := by decide
/-- V2.5.6: hexadecimal is unsigned. -/
theorem test_bne_hex_offset : nextIs (step (slotAt 0x00400024#32 "bne $t0, $t1, 0xFFFF" (sets [(8, 5#32), (9, 6#32)] .reset)))
    (fun t => t.pc == 0x00440024#32) = true := by decide
/-- V2.5.10. -/
theorem test_bne_not_taken : nextIs (step (slotAt 0x00400024#32 "bne $zero, $zero, nosuch" .reset))
    (fun t => t.pc == 0x00400028#32) = true := by decide
/-- V2.5, signed comparisons, row 2. -/
theorem test_blt_equal : nextIs (step (slotAt 0x00400024#32 "blt $t0,$t1,2" (sets [(8, 5#32), (9, 5#32)] .reset)))
    (fun t => t.pc == 0x00400028#32) = true := by decide
/-- V2.5, signed comparisons, row 3. -/
theorem test_blt_signed : nextIs (step (slotAt 0x00400024#32 "blt $t0,$t1,2" (sets [(8, 0x7FFFFFFF#32), (9, 0x80000000#32)] .reset)))
    (fun t => t.pc == 0x00400028#32) = true := by decide
/-- V2.5, signed comparisons, row 2. -/
theorem test_ble_equal : nextIs (step (slotAt 0x00400024#32 "ble $t0,$t1,2" (sets [(8, 5#32), (9, 5#32)] .reset)))
    (fun t => t.pc == 0x00400030#32) = true := by decide
/-- V2.5, signed comparisons, row 3. -/
theorem test_ble_signed : nextIs (step (slotAt 0x00400024#32 "ble $t0,$t1,2" (sets [(8, 0x7FFFFFFF#32), (9, 0x80000000#32)] .reset)))
    (fun t => t.pc == 0x00400028#32) = true := by decide
/-- V2.5, signed comparisons, row 2. -/
theorem test_bgt_equal : nextIs (step (slotAt 0x00400024#32 "bgt $t0,$t1,2" (sets [(8, 5#32), (9, 5#32)] .reset)))
    (fun t => t.pc == 0x00400028#32) = true := by decide
/-- V2.5, signed comparisons, row 3. -/
theorem test_bgt_signed : nextIs (step (slotAt 0x00400024#32 "bgt $t0,$t1,2" (sets [(8, 0x7FFFFFFF#32), (9, 0x80000000#32)] .reset)))
    (fun t => t.pc == 0x00400030#32) = true := by decide
/-- V2.5, signed comparisons, row 2. -/
theorem test_bge_equal : nextIs (step (slotAt 0x00400024#32 "bge $t0,$t1,2" (sets [(8, 5#32), (9, 5#32)] .reset)))
    (fun t => t.pc == 0x00400030#32) = true := by decide
/-- V2.5, signed comparisons, row 3. -/
theorem test_bge_signed : nextIs (step (slotAt 0x00400024#32 "bge $t0,$t1,2" (sets [(8, 0x7FFFFFFF#32), (9, 0x80000000#32)] .reset)))
    (fun t => t.pc == 0x00400030#32) = true := by decide
/-- V2.5, comparisons with zero, row 1. -/
theorem test_bltz_negative : nextIs (step (slotAt 0x00400024#32 "bltz $t0,2" (sets [(8, 0xFFFFFFFF#32)] .reset)))
    (fun t => t.pc == 0x00400030#32) = true := by decide
/-- V2.5, comparisons with zero, row 2. -/
theorem test_bltz_zero : nextIs (step (slotAt 0x00400024#32 "bltz $t0,2" .reset))
    (fun t => t.pc == 0x00400028#32) = true := by decide
/-- V2.5, comparisons with zero, row 1. -/
theorem test_blez_negative : nextIs (step (slotAt 0x00400024#32 "blez $t0,2" (sets [(8, 0xFFFFFFFF#32)] .reset)))
    (fun t => t.pc == 0x00400030#32) = true := by decide
/-- V2.5, comparisons with zero, row 2. -/
theorem test_blez_zero : nextIs (step (slotAt 0x00400024#32 "blez $t0,2" .reset))
    (fun t => t.pc == 0x00400030#32) = true := by decide
/-- V2.5, comparisons with zero, row 1. -/
theorem test_bgtz_negative : nextIs (step (slotAt 0x00400024#32 "bgtz $t0,2" (sets [(8, 0xFFFFFFFF#32)] .reset)))
    (fun t => t.pc == 0x00400028#32) = true := by decide
/-- V2.5, comparisons with zero, row 2. -/
theorem test_bgtz_zero : nextIs (step (slotAt 0x00400024#32 "bgtz $t0,2" .reset))
    (fun t => t.pc == 0x00400028#32) = true := by decide
/-- V2.5, comparisons with zero, row 1. -/
theorem test_bgez_negative : nextIs (step (slotAt 0x00400024#32 "bgez $t0,2" (sets [(8, 0xFFFFFFFF#32)] .reset)))
    (fun t => t.pc == 0x00400028#32) = true := by decide
/-- V2.5, comparisons with zero, row 2. -/
theorem test_bgez_zero : nextIs (step (slotAt 0x00400024#32 "bgez $t0,2" .reset))
    (fun t => t.pc == 0x00400030#32) = true := by decide
/-- V2.6.5: the top 4 bits of pc0. -/
theorem test_j_region : nextIs (step (slotAt 0x90000000#32 "j 0x100003" .reset))
    (fun t => t.pc == 0x9040000C#32) = true := by decide
/-- V2.6.9. -/
theorem test_j_unresolved : nextIs (step (slotAt 0x00400024#32 "j nosuch" .reset))
    (fun t => t.pc == 0x00400024#32 && t.diags == [.referenceError "nosuch".toList]) = true := by decide
/-- V2.6.7. -/
theorem test_jal_label : nextIs (step (slotAt 0x00400008#32 "jal f" (labelled "f" 0x00400014#32 .reset)))
    (fun t => t.pc == 0x00400014#32 && t.x 31 == 0x0040000C#32) = true := by decide
/-- V2.6.11: the link wraps. -/
theorem test_jal_wraps : nextIs (step (slotAt 0xFFFFFFFC#32 "jal 0x100005" .reset))
    (fun t => t.pc == 0xF0400014#32 && t.x 31 == 0#32) = true := by decide
/-- V2.6.13: no alignment check. -/
theorem test_jr : nextIs (step (slotAt 0x00400024#32 "jr $t0" (sets [(8, 0x00400002#32)] .reset)))
    (fun t => t.pc == 0x00400002#32) = true := by decide
/-- V2.6.15. -/
theorem test_jr_invalid : refusedAs (step (slotAt 0x00400024#32 "jr $bogus" .reset)) .invalidRegisterInControlTransfer = true := by decide
/-- S5: the upper and lower halves. -/
theorem test_li_synthesis : nextIs (step (slot "li $t0, -32769" .reset))
    (fun t => t.x 8 == 0xFFFF7FFF#32) = true := by decide
/-- V2.7.8. -/
theorem test_li_unresolved : faultIs (step (slot "li $t0, nosuch" .reset)) (.numericConversion "nosuch".toList) = true := by decide
/-- V2.7.10. -/
theorem test_la_label : nextIs (step (slot "la $a0, msg" (labelled "msg" 0x10010000#32 .reset)))
    (fun t => t.x 4 == 0x10010000#32) = true := by decide
/-- V2.7.13: its own address. -/
theorem test_la_unresolved : nextIs (step (slotAt 0x00400024#32 "la $a0, nosuch" .reset))
    (fun t => t.x 4 == 0x00400024#32 && t.pc == 0x00400028#32 && t.diags == [.referenceError "nosuch".toList]) = true := by decide
/-- V2.7.16. -/
theorem test_move : nextIs (step (slot "move $t1, $bogus" (sets [(9, 7#32)] .reset)))
    (fun t => t.x 9 == 0#32 && t.diags == [.operandError "$bogus".toList]) = true := by decide
/-- V2.7.17. -/
theorem test_clear : nextIs (step (slot "clear $t2" (sets [(10, 99#32)] .reset)))
    (fun t => t.x 10 == 0#32) = true := by decide
/-- V2.7.20. -/
theorem test_not : nextIs (step (slot "not $t1, $t0" (sets [(8, 0x0000FFFF#32)] .reset)))
    (fun t => t.x 9 == 0xFFFF0000#32) = true := by decide
/-- V2.8.20. -/
theorem test_nop : nextIs (step (slot "nop" .reset))
    (fun t => t == { slot "nop" State.reset with pc := 0x00400004#32, eng := .running }) = true := by decide
/-- V2.8.3. -/
theorem test_print_integer : nextIs (step (slot "syscall" (sets [(2, 1#32), (4, 0x80000000#32)] .reset)))
    (fun t => t.conOut == asciiBytes "-2147483648".toList) = true := by decide
/-- V2.8.5. -/
theorem test_print_string : nextIs (step (slot "syscall" (sets [(2, 4#32), (4, 0x10010000#32)] (bytesAt 0x10010000#32 [0x68#8, 0x69#8] .reset))))
    (fun t => t.conOut == asciiBytes "hi".toList) = true := by decide
/-- V2.8.7. -/
theorem test_read_integer : nextIs (step (slot "syscall" (sets [(2, 5#32)] (State.reset.answerInt (.value 0xFFFFFFFD#32)))))
    (fun t => t.x 2 == 0xFFFFFFFD#32 && t.conIn.ints == []) = true := by decide
/-- V2.8.8: the line is cut, a zero byte ends it, the byte after it stays. -/
theorem test_read_string : nextIs (step (slot "syscall" (sets [(2, 8#32), (4, 0x10010000#32), (5, 4#32)] ((bytesAt 0x10010004#32 [0xEE#8] .reset).answerLine (.value [0x68#8, 0x65#8, 0x6C#8, 0x6C#8, 0x6F#8])))))
    (fun t => bytesFrom t 0x10010000#32 5 == [0x68#8, 0x65#8, 0x6C#8, 0#8, 0xEE#8]) = true := by decide
/-- V2.8.11. -/
theorem test_read_string_length : faultIs (step (slot "syscall" (sets [(2, 8#32), (4, 0x10010000#32)] .reset))) (.readStringLength) = true := by decide
/-- V2.8.12, with H = 0x30000000. -/
theorem test_allocate : nextIs (step (slot "syscall" (sets [(2, 9#32), (4, 3#32)] (State.resetWith { Config.default with heapBase := 0x30000000#32 }))))
    (fun t => t.x 2 == 0x30000000#32 && t.heapPtr == 0x30000003#32) = true := by decide
/-- V2.8.14. -/
theorem test_exit : nextIs (step (slot "syscall" (sets [(2, 10#32), (4, 7#32)] .reset)))
    (fun t => t.eng == .halted && t.x 4 == 7#32 && t.diags == []) = true := by decide
/-- V2.8.15. -/
theorem test_print_character : nextIs (step (slot "syscall" (sets [(2, 11#32), (4, 0x00000141#32)] .reset)))
    (fun t => t.conOut == [0x41#8]) = true := by decide
/-- V2.8.16. -/
theorem test_read_character : nextIs (step (slot "syscall" (sets [(2, 12#32)] (State.reset.answerChar (.value 0x41#8)))))
    (fun t => t.x 2 == 0x41#32) = true := by decide
/-- 47_system.md R246: nothing changes until the console answers. -/
theorem test_read_blocks : nextIs (step (slot "syscall" (sets [(2, 5#32)] .reset)))
    (fun t => t.pc == 0x00400000#32 && t.x 2 == 5#32 && t.eng == .ready) = true := by decide
/-- V2.8.18. -/
theorem test_unsupported_service : nextIs (step (slot "syscall" (sets [(2, 0xFFFFFFFF#32)] .reset)))
    (fun t => t.diags == [.unsupportedSyscall 0xFFFFFFFF#32] && t.pc == 0x00400004#32) = true := by decide
/-- V2.8.22. -/
theorem test_unknown_opcode : nextIs (step (slot "frobnicate $t0, 1" (sets [(8, 3#32)] .reset)))
    (fun t => t.diags == [.unknownOpcode "frobnicate".toList] && t.pc == 0x00400004#32 && t.x 8 == 3#32) = true := by decide
/-- V2.1.40. -/
theorem test_ill_formed : refusedAs (step (slot "add $t2, $t0" .reset)) .illFormed = true := by decide
/-- V2.8.25: nothing loaded. The engine halts, is told once, and then does nothing. -/
theorem test_no_instruction :
    nextIs (step State.reset) (fun t =>
      t.eng == .halted && t.pc == 0x00400000#32 && t.diags == [.noInstruction 0x00400000#32] &&
        nextIs (step t) (fun u => u == t)) = true := by decide

/-- 30_encoding.md R91: the alternatives of `IMM_WIDE`. -/
theorem test_imm_wide :
    fieldValue .full32 .signed16 65535 = .ok 0xFFFF#32 ∧ fieldValue .truncate16 .signed16 65535 = .ok 0xFFFFFFFF#32 ∧
    fieldValue .truncate16 .logical16 (-1) = .ok 0xFFFF#32 ∧ fieldValue .truncate16 .shamt 33 = .ok 1#32 ∧
    fieldValue .full32 .shamt 32 = .refused .immediateOutOfRange := by decide

/-- 70_reset_and_hazards.md R300: the host's reset replaces the owned state and leaves the console. -/
theorem test_host_reset :
    ((sets [(8, 1#32)] (State.reset.emit [0x41#8])).hostReset.x 8 == 0#32 &&
      (State.reset.emit [0x41#8]).hostReset.conOut == [0x41#8]) = true := by decide

/-! The loader. -/

/-- L1: layout without alignment. -/
theorem test_load_data :
    loads [".data", "a: .byte 1, 2, 0xFF", "b: .word 0x11223344, a", "c: .space 3", "d: .ascii \"A\\n\"",
        "e: .asciiz \"b c\"", "f: .word -1"]
      (fun s n m => n == 0 && m == 6 && labelLookup s.labels "f".toList == some 0x10010014#32 &&
        bytesFrom s 0x10010000#32 24 ==
          [0x01#8, 0x02#8, 0xFF#8, 0x44#8, 0x33#8, 0x22#8, 0x11#8, 0x00#8, 0x00#8, 0x01#8, 0x10#8, 0#8, 0#8, 0#8,
           0x41#8, 0x0A#8, 0x62#8, 0x20#8, 0x63#8, 0x00#8, 0xFF#8, 0xFF#8, 0xFF#8, 0xFF#8]) = true := by decide

/-- L2 and L3: load errors. -/
theorem test_load_errors :
    loadFails [".data", "w: .word later", "later: .word 1"] = true ∧ loadFails [".data", "w: .word 12x"] = true := by
  decide

/-- L4: an unterminated string stores nothing. -/
theorem test_load_open_string :
    loads [".data", "s: .asciiz \"oops", "t: .byte 7"]
      (fun s _ _ => labelLookup s.labels "t".toList == some 0x10010000#32 && s.mem == [(0x10010000, 7#8)]) = true := by
  decide

/-- L5: comments, blank lines, a label alone, alternating sections, `.globl`. -/
theorem test_load_text :
    loads ["  # only a comment", "", "start:   # label alone", "  nop   # one", ".data", "v: .word 5", ".text",
        "end: j start", ".globl start"]
      (fun s n m => n == 2 && m == 3 && s.slots == [["nop".toList], ["j".toList, "start".toList]] &&
        labelLookup s.labels "end".toList == some 0x00400004#32 && s.pc == 0x00400000#32) = true := by decide

/-- 30_encoding.md R99, R100: what follows the first `:` goes on, a second `:` in it too: an unknown opcode, a string. -/
theorem test_load_second_colon :
    loads ["a: b: nop", ".data", "s: .ascii \"x:y\""]
      (fun s n m => n == 1 && m == 2 && s.slots == [["b:".toList, "nop".toList]] &&
        bytesFrom s 0x10010000#32 3 == [0x78#8, 0x3A#8, 0x79#8]) = true := by decide

/-- L6 and L7, and D26's `.globl` in the data section: refused at load. -/
theorem test_load_refusals :
    loadRefused [".data", "x: .half 1"] .unknownDirective = true ∧
    loadRefused [".data", ".globl x"] .unknownDirective = true ∧
    loadRefused ["a: nop", "a: nop"] .duplicateLabel = true := by decide

/-- L8: the low 8 bits. -/
theorem test_load_bytes :
    loads [".data", ".byte 256, -1, 0x1FF"] (fun s _ _ => bytesFrom s 0x10010000#32 3 == [0#8, 0xFF#8, 0xFF#8]) = true := by
  decide

/-! Fetching a placed slot (log entry 2). -/

/-- The first step after reset runs the placed instruction: `nop`, in the host's numbering. -/
theorem test_fetch_word :
    nextIs (step (State.reset.withFetchWord 24 0x706F6E)) (fun t => t.pc == 0x00400004#32 && t.diags == []) = true := by
  decide

/-! Witnesses: concrete data that meet the hypotheses of each statement, clause by clause. -/

theorem witness_ResetLeavesTheTableValues :
    (∃ t n m, (State.resetWith Config.default).load (source ["nop"]) = .loaded t n m) ∧
    (∃ t n m, (State.resetWith { Config.default with textBase := 0x80000000#32 }).load [] = .loaded t n m) :=
  ⟨⟨_, _, _, rfl⟩, ⟨_, _, _, rfl⟩⟩

theorem witness_StepRunsTheDecodedInstruction :
    State.reset.noInstruction.eng = .halted ∧
    (State.reset.eng ≠ .halted ∧ State.reset.phase ≠ .failed ∧ NoSlotAtPc State.reset) ∧
    let s := slot "sw $t1, 4($sp)" State.reset
    s.eng ≠ .halted ∧ s.phase ≠ .failed ∧ SlotAtPc s (tokenize "sw $t1, 4($sp)".toList) ∧
      decode s.cfg.admitTierC (tokenize "sw $t1, 4($sp)".toList) = .instr (.sw (.valid 9) (some (.num 4)) (.valid 29)) ∧
      Instr.wf (.sw (.valid 9) (some (.num 4)) (.valid 29)) = true ∧
      let u := slot "clear $8" State.reset
      u.eng ≠ .halted ∧ u.phase ≠ .failed ∧ SlotAtPc u ["clear".toList, "$8".toList] ∧
        decode u.cfg.admitTierC ["clear".toList, "$8".toList] = .illFormed :=
  ⟨by decide, ⟨by decide, by decide, fetch_of_noSlotAtPc.mp (by decide)⟩, by decide, by decide, ⟨0, by decide⟩, by decide,
    by decide, by decide, by decide, ⟨0, by decide⟩, by decide⟩

/-- The second of two slots, at a `TEXT_BASE` of its own; the addresses beside it hold another slot or none. -/
theorem witness_StepRunsTheDecodedInstruction_second :
    let s := { State.resetWith { Config.default with textBase := 0x80000000#32 } with
      slots := [["nop".toList], ["syscall".toList]], phase := .loaded }
    SlotAtPc (s.goTo 0x80000004#32) ["syscall".toList] ∧ SlotAtPc (s.goTo 0x80000000#32) ["nop".toList] ∧
    NoSlotAtPc (s.goTo 0x80000005#32) ∧ NoSlotAtPc (s.goTo 0x80000008#32) :=
  ⟨⟨1, by decide⟩, ⟨0, by decide⟩, fetch_of_noSlotAtPc.mp (by decide), fetch_of_noSlotAtPc.mp (by decide)⟩

/-- Nothing loaded; past the last slot; between two slots; below `TEXT_BASE`. -/
theorem witness_NoInstructionHaltsAndIsReportedOnce :
    ∀ a ∈ [0x00400000#32, 0x00400004#32, 0x00400002#32, 0x003FFFFC#32],
      let s := (if a = 0x00400000#32 then State.reset else slot "nop" State.reset).goTo a
      s.eng ≠ .halted ∧ s.phase ≠ .failed ∧ NoSlotAtPc s := by
  simp only [← fetch_of_noSlotAtPc, List.forall_mem_cons]
  exact ⟨by decide, by decide, by decide, by decide, by simp⟩

theorem witness_UnknownOpcodeLogsAndContinues :
    (∀ k : Kind, k.spelling = "frob".toList →
      k.tier = .C ∧ (slot "frob $t0" State.reset).cfg.admitTierC = false) ∧
    SlotAtPc (slot "frob $t0" State.reset) ["frob".toList, "$t0".toList] ∧
    (∀ k : Kind, k.spelling = "lw".toList →
      k.tier = .C ∧ (State.resetWith { Config.default with admitTierC := false }).cfg.admitTierC = false) := by
  refine ⟨fun k h => absurd h ?_, ⟨0, by decide⟩, fun k h => ?_⟩
  · cases k <;> decide
  · obtain rfl : k = .lw := by
      revert h
      cases k <;> decide
    decide

theorem witness_IllFormedExactlyWhenOperandsDoNotFit :
    ¬Kind.nop.format.fits ["1".toList] ∧ ¬Kind.clear.format.fits [] ∧ ¬Kind.clear.format.fits ["$8".toList] ∧
    ¬Kind.j.format.fits ["4(".toList] ∧ Kind.nop.format.fits [] ∧
    Kind.lw.format.fits ["$t1".toList, "4".toList, "$sp".toList] ∧ Kind.lw.format.fits ["$t1".toList, "$t0".toList] ∧
    Kind.beq.format.fits ["$t1".toList, "$bogus".toList, "loop".toList] := by
  refine ⟨?_, ?_, ?_, ?_, ?_, ?_, ?_, ?_⟩ <;> simp [Kind.format, Format.fits, Format.positions] <;> decide

theorem witness_LoadErrorRefusesStepsUntilReset :
    State.reset.load (source [".data", ".word x"]) = .error { State.reset with phase := .failed } "x".toList := by
  decide

/-- Both ways to halt. -/
theorem witness_OnlyExitAndNoInstructionHalt :
    (State.reset.eng ≠ .halted ∧ ∃ t, step State.reset = .next t ∧ t.eng = .halted) ∧
    ∃ t, step (slot "syscall" (sets [(2, 10#32)] State.reset)) = .next t ∧ t.eng = .halted :=
  ⟨⟨by decide, _, rfl, rfl⟩, _, rfl, rfl⟩

theorem witness_StepKeepsProgramAndLabels : ∃ t, step (slot "nop" State.reset) = .next t := ⟨_, rfl⟩

theorem witness_StepKeepsInvariant :
    (slot "sb $sp, ($t0)" State.reset).inv ∧ ∃ t, step (slot "sb $sp, ($t0)" State.reset) = .next t :=
  ⟨by decide, _, rfl⟩

theorem witness_LoadAndResetEstablishInvariant :
    State.reset.inv ∧ ∃ t n m, State.reset.load (source [".data", "a: .byte 7"]) = .loaded t n m :=
  ⟨by decide, _, _, _, rfl⟩

theorem witness_DecodeOfEncodeIsTheInstruction :
    Instr.wf (.li (.invalid "$foo".toList) (.num 4294967295)) = true ∧
    Instr.wf (.lw (.valid 31) none (.valid 0)) = true ∧
    Instr.wf (.jal (.wide "2147483648".toList)) = true ∧ Instr.wf .nop = true := by decide

theorem witness_DecodeYieldsWellFormedInstructions :
    decode true ["clear".toList, "32".toList] = .instr (.clear (.invalid "32".toList)) := by decide

theorem witness_TierCIsUnknownWhenNotAdmitted : Kind.lw.tier = .C ∧ Kind.add.tier = .N := by decide

/-- The ends of the register numbers, and the numbers next to them; a leading zero and a minus sign. -/
theorem witness_DesignatorsResolve :
    (("zero".toList, 0) ∈ registerTable ∧ ("ra".toList, 31) ∈ registerTable) ∧
    (IsDecimalToken 0 "-0".toList ∧ (0 : Int) = (0 : Fin 32).val) ∧
    (IsDecimalToken 31 "031".toList ∧ (31 : Int) = (31 : Fin 32).val) ∧
    (IsDecimalToken (-1) "-1".toList ∧ ((-1 : Int) < 0 ∨ 31 < (-1 : Int))) ∧
    (IsDecimalToken 32 "32".toList ∧ ((32 : Int) < 0 ∨ (31 : Int) < 32)) :=
  ⟨by decide, ⟨⟨[0], by decide⟩, by decide⟩, ⟨⟨[0, 3, 1], by decide⟩, by decide⟩, ⟨⟨[1], by decide⟩, by decide⟩,
    ⟨[3, 2], by decide⟩, by decide⟩

/-- 10_state.md R24(d)'s `$foo`, and a name in upper case: neither a name nor a decimal string, with or without `$`. -/
theorem witness_DesignatorsResolve_other : ∀ tok ∈ ["$foo".toList, "$T0".toList, "foo".toList],
    (∀ p ∈ registerTable, tok ≠ '$' :: p.1 ∧ tok ≠ p.1) ∧ (∀ n, ¬IsDecimalToken n tok) ∧
      ∀ n name, tok = '$' :: name → ¬IsDecimalToken n name := by
  intro tok h
  simp only [List.mem_cons, List.not_mem_nil, or_false] at h
  rcases h with rfl | rfl | rfl <;>
    refine ⟨by decide, not_isDecimalToken_cons (by decide) (by decide), fun n name hn => ?_⟩ <;> cases hn <;>
    exact not_isDecimalToken_cons (by decide) (by decide) n

/-- Leading zeros, a minus sign, both prefixes, both cases, the ends of the ranges and the numbers next to them. -/
theorem witness_NumeralsReadAsTheirValue :
    IsDecimalToken 7 "007".toList ∧ IsDecimalToken (-10) "-10".toList ∧ IsDecimalToken 2147483648 "2147483648".toList ∧
    IsHexToken 4294967295 "0xffFFffFF".toList ∧ IsHexToken 4294967296 "0X100000000".toList :=
  ⟨⟨[0, 0, 7], by decide⟩, ⟨[1, 0], by decide⟩, ⟨[2, 1, 4, 7, 4, 8, 3, 6, 4, 8], by decide⟩,
    ⟨[15, 15, 15, 15, 15, 15, 15, 15], "ffFFffFF".toList, by decide, by simp [IsHexDigit], by decide, .inl rfl⟩,
    ⟨[1, 0, 0, 0, 0, 0, 0, 0, 0], "100000000".toList, by decide, by simp [IsHexDigit], by decide, .inr rfl⟩⟩

/-- A word, and a negative hexadecimal numeral, which R87 does not count as a number. -/
theorem witness_NumeralsReadAsTheirValue_symbols : ∀ tok ∈ ["loop".toList, "-0x1".toList],
    (∀ n, ¬IsDecimalToken n tok) ∧ ∀ n, ¬IsHexToken n tok := by
  intro tok h
  have hd : decimal? tok = none ∧ hex? tok = none := by
    revert tok
    decide
  refine ⟨fun n hn => ?_, fun n hn => ?_⟩
  · rw [decimal?_iff.mpr hn] at hd
    exact Option.some_ne_none _ hd.1
  · rw [hex?_iff.mpr ⟨n, rfl, hn⟩] at hd
    exact Option.some_ne_none _ hd.2

theorem witness_ImmediatesResolve :
    labelLookup (labelled "f" 0xFFFFFFFF#32 State.reset).labels "f".toList = some 0xFFFFFFFF#32 ∧
    labelLookup State.reset.labels "f".toList = none := by decide

/-- The ends of each range, and the numbers next to them. -/
theorem witness_ImmediateFieldsFollowImmWide :
    ((-32768 : Int) ≤ -32768 ∧ (-32768 : Int) ≤ 32767) ∧ ((-32768 : Int) ≤ 32767 ∧ (32767 : Int) ≤ 32767) ∧
    ¬((-32768 : Int) ≤ -32769 ∧ (-32769 : Int) ≤ 32767) ∧ ¬((-32768 : Int) ≤ 32768 ∧ (32768 : Int) ≤ 32767) ∧
    ((0 : Int) ≤ 0 ∧ (0 : Int) ≤ 65535) ∧ ((0 : Int) ≤ 65535 ∧ (65535 : Int) ≤ 65535) ∧
    ¬((0 : Int) ≤ -1 ∧ (-1 : Int) ≤ 65535) ∧ ¬((0 : Int) ≤ 65536 ∧ (65536 : Int) ≤ 65535) ∧
    ((0 : Int) ≤ 31 ∧ (31 : Int) ≤ 31) ∧ ¬((0 : Int) ≤ -1 ∧ (-1 : Int) ≤ 31) ∧ ¬((0 : Int) ≤ 32 ∧ (32 : Int) ≤ 31) := by
  decide

/-- Outside each range under each setting of `IMM_WIDE`. -/
theorem witness_ImmediateFieldsFollowImmWide_outside :
    let full := State.resetWith { Config.default with immWide := .full32 }
    let cut := State.resetWith { Config.default with immWide := .truncate16 }
    (full.resolveImm (.num 32768) = .ok 32768 ∧ ImmField.signed16.inRange 32768 = false ∧
      wideOperand full.cfg.immWide .signed16 32768 = some 32768 ∧
      wideOperand cut.cfg.immWide .signed16 32768 = some (-32768) ∧
      wideOperand State.reset.cfg.immWide .signed16 32768 = none) ∧
    (ImmField.logical16.inRange (-1) = false ∧ wideOperand full.cfg.immWide .logical16 (-1) = some 4294967295 ∧
      wideOperand cut.cfg.immWide .logical16 (-1) = some 65535) ∧
    (ImmField.shamt.inRange 33 = false ∧ wideOperand full.cfg.immWide .shamt 33 = none ∧
      wideOperand cut.cfg.immWide .shamt 33 = some 1) := by decide

theorem witness_RegisterAccessThroughDesignators : (1 : Fin 32) ≠ 0 ∧ (31 : Fin 32) ≠ 0 := by decide

/-- A memory with bytes in it, at both ends. -/
theorem witness_AccessorsMoveTheBytesOfR55 :
    Memory.wf (bytesAt 0xFFFFFFFF#32 [1#8, 2#8] State.reset).mem = true ∧ (0x12345679#32 : Word) ≠ 0x12345678#32 := by
  decide

theorem witness_StoredWordReadsBackByParts :
    Memory.wf (bytesAt 0xFFFFFFFF#32 [1#8, 2#8] State.reset).mem = true := by decide

theorem witness_OnlyStoresAndReadStringWriteMemory :
    nextIs (exec (.sb (.valid 29) none (.valid 0)) State.reset) (fun t => t.mem != State.reset.mem) = true ∧
    nextIs (exec .syscall ((sets [(2, 8#32), (5, 2#32)] State.reset).answerLine (.value [1#8])))
      (fun t => t.mem != State.reset.mem) = true := by decide

theorem witness_OnlyMultiplyAndDivideWriteHiLo :
    nextIs (exec (.multu (.valid 29) (.valid 29)) State.reset) (fun t => t.hi != State.reset.hi) = true := by decide

theorem witness_OnlyNamedRegistersChange :
    nextIs (exec (.move (.valid 1) (.valid 29)) State.reset) (fun t => t.x 1 != State.reset.x 1) = true ∧
    nextIs (exec .syscall (sets [(2, 9#32)] State.reset)) (fun t => t.x 2 != 9#32) = true := by decide

/-- The signed range: both ends, the numbers outside them, and an operand that does not resolve. -/
theorem witness_SignedImmediateInstructions :
    State.reset.resolveImm (.num (-32768)) = .ok (-32768) ∧ State.reset.resolveImm (.num 32767) = .ok 32767 ∧
    State.reset.resolveImm (.num (-32769)) = .ok (-32769) ∧ State.reset.resolveImm (.num 32768) = .ok 32768 ∧
    State.reset.cfg.immWide = .refuse ∧
    State.reset.resolveImm (.sym "nosuch".toList) = .fault (.numericConversion "nosuch".toList) := by decide

/-- The logical range, likewise. -/
theorem witness_LogicalImmediateInstructions :
    State.reset.resolveImm (.num 0) = .ok 0 ∧ State.reset.resolveImm (.num 65535) = .ok 65535 ∧
    State.reset.resolveImm (.num (-1)) = .ok (-1) ∧ State.reset.resolveImm (.num 65536) = .ok 65536 ∧
    State.reset.cfg.immWide = .refuse ∧
    State.reset.resolveImm (.wide "4294967296".toList) = .fault (.numericConversion "4294967296".toList) := by decide

/-- The three cases of R163, each with the others' conditions false. -/
theorem witness_SignedDivideTruncates :
    let s := sets [(8, 0x80000000#32), (9, 0xFFFFFFFF#32), (10, 0x80000001#32)] State.reset
    s32 (s.readReg (.valid 0)) = 0 ∧
    (s32 (s.readReg (.valid 8)) = -(2 ^ 31) ∧ s32 (s.readReg (.valid 9)) = -1 ∧ s.cfg.divOverflow = .fault) ∧
    (s32 (s.readReg (.valid 9)) ≠ 0 ∧
      ¬(s32 (s.readReg (.valid 10)) = -(2 ^ 31) ∧ s32 (s.readReg (.valid 9)) = -1)) := by decide

theorem witness_UnsignedDivideGivesQuotientAndRemainder :
    (State.reset.readReg (.valid 8)).toNat = 0 ∧ (State.reset.readReg (.valid 29)).toNat ≠ 0 := by decide

/-- The amounts 0 and 31, those next to them, and the setting under which they are refused still. -/
theorem witness_ShiftsScaleByPowersOfTwo :
    State.reset.resolveImm (.num 0) = .ok 0 ∧ State.reset.resolveImm (.num 31) = .ok 31 ∧
    State.reset.resolveImm (.num 32) = .ok 32 ∧ State.reset.resolveImm (.num (-1)) = .ok (-1) ∧
    (State.resetWith { Config.default with immWide := .full32 }).resolveImm (.num 32) = .ok 32 ∧
    (State.resetWith { Config.default with immWide := .full32 }).cfg.immWide = .full32 ∧
    State.reset.resolveImm (.sym "nosuch".toList) = .fault (.numericConversion "nosuch".toList) := by decide

theorem witness_EffectiveAddressIsBasePlusOffset :
    State.reset.resolveImm (.num (-32768)) = .ok (-32768) ∧ State.reset.resolveImm (.num 32767) = .ok 32767 ∧
    State.reset.resolveImm (.num 32768) = .ok 32768 ∧ State.reset.cfg.immWide = .refuse ∧
    (let s := State.resetWith { Config.default with immWide := .truncate16 }
     s.resolveImm (.num 32768) = .ok 32768 ∧ wideOperand s.cfg.immWide .signed16 32768 = some (-32768)) ∧
    State.reset.resolveImm (.sym "nosuch".toList) = .fault (.numericConversion "nosuch".toList) := by decide

/-- Each way an effective address can come out, for the loads and the stores. -/
theorem witness_LoadsReadAndExtend :
    State.reset.effAddr none (.valid 29) = .ok 0x7FFFFFFC#32 ∧
    State.reset.effAddr (some (.num (-4))) (.valid 0) = .ok 0xFFFFFFFC#32 ∧
    State.reset.effAddr (some (.sym "nosuch".toList)) (.valid 0) = .fault (.numericConversion "nosuch".toList) ∧
    State.reset.effAddr (some (.num 32768)) (.valid 0) = .refused .immediateOutOfRange := by decide

theorem witness_StoresWriteExactlyTheirBytes :
    Memory.wf State.reset.mem = true ∧ State.reset.effAddr (some (.num (-1))) (.valid 0) = .ok 0xFFFFFFFF#32 ∧
    State.reset.effAddr (some (.wide "2147483648".toList)) (.valid 0) =
      .fault (.numericConversion "2147483648".toList) ∧
    State.reset.effAddr (some (.num (-32769))) (.valid 0) = .refused .immediateOutOfRange := by decide

/-- Every condition holds somewhere and fails somewhere; every kind of target. -/
theorem witness_TwoRegisterBranches :
    let s := labelled "f" 0x00400014#32 (sets [(8, 0x80000000#32), (9, 0x7FFFFFFF#32)] State.reset)
    (s.x 8 = s.x 8 ∧ ¬s.x 8 = s.x 9) ∧ (s.x 8 ≠ s.x 9 ∧ ¬s.x 8 ≠ s.x 8) ∧
    (s32 (s.x 8) < s32 (s.x 9) ∧ ¬s32 (s.x 8) < s32 (s.x 8)) ∧ (s32 (s.x 8) ≤ s32 (s.x 8) ∧ ¬s32 (s.x 9) ≤ s32 (s.x 8)) ∧
    branchGoal s (.num (-1)) = some (0x00400000#32, []) ∧
    branchGoal s (.sym "f".toList) = some (0x00400014#32, []) ∧
    branchGoal s (.sym "nosuch".toList) = some (0x00400000#32, [.referenceError "nosuch".toList]) ∧
    branchGoal s (.wide "4294967296".toList) = none := by decide

theorem witness_CompareWithZeroBranches :
    let s := sets [(8, 0x80000000#32), (9, 0x7FFFFFFF#32)] State.reset
    (s.x 8).msb = true ∧ (s.x 9).msb = false ∧ s.x 0 = 0#32 ∧ s.x 9 ≠ 0#32 ∧
    branchGoal s (.num 0) = some (0x00400004#32, []) ∧ branchGoal s (.wide "4294967296".toList) = none := by decide

/-- An invalid designator first, and second after a valid one. -/
theorem witness_InvalidRegisterInControlTransferIsRefused :
    (RegOp.invalid [] = .invalid [] ∧ RegOp.valid 3 = .valid 3 ∨ RegOp.invalid [] = .valid 3 ∧ RegOp.valid 3 = .invalid []) ∧
    (RegOp.valid 3 = .invalid [] ∧ RegOp.invalid [] = .valid 3 ∨ RegOp.valid 3 = .valid 3 ∧ RegOp.invalid [] = .invalid []) := by
  decide

/-- Also for `JumpAndLinkSavesTheNextSlot`: a raw target, a label, a miss, a number out of range. -/
theorem witness_JumpsGoToTheirTarget :
    let s := labelled "f" 0x00400014#32 (slotAt 0x90000000#32 "nop" State.reset)
    jumpGoal s (.num 0x100003) = some (0x9040000C#32, []) ∧ jumpGoal s (.num (-1)) = some (0x9FFFFFFC#32, []) ∧
    jumpGoal s (.sym "f".toList) = some (0x00400014#32, []) ∧
    jumpGoal s (.sym "nosuch".toList) = some (0x90000000#32, [.referenceError "nosuch".toList]) ∧
    jumpGoal s (.wide "4294967296".toList) = none := by decide

theorem witness_LoadImmediateGivesThePattern :
    State.reset.resolveImm (.num 0x80000000) = .ok 0x80000000 ∧
    State.reset.resolveImm (.sym "nosuch".toList) = .fault (.numericConversion "nosuch".toList) := by decide

theorem witness_LoadAddressResolvesItsTarget :
    let s := labelled "f" 0x00400014#32 State.reset
    addressGoal s (.num (-4)) = some (0xFFFFFFFC#32, []) ∧ addressGoal s (.sym "f".toList) = some (0x00400014#32, []) ∧
    addressGoal s (.sym "nosuch".toList) = some (0x00400000#32, [.referenceError "nosuch".toList]) ∧
    addressGoal s (.wide "4294967296".toList) = none := by decide

/-- The service numbers, also for `AllocateBumpsTheHeapPointer` and `ExitHaltsTheEngine`. -/
theorem witness_PrintIntegerAndCharacter :
    (sets [(2, 1#32)] State.reset).x 2 = 1#32 ∧ (sets [(2, 11#32)] State.reset).x 2 = 11#32 ∧
    (sets [(2, 9#32)] State.reset).x 2 = 9#32 ∧ (sets [(2, 10#32)] State.reset).x 2 = 10#32 := by decide

/-- A string that wraps at the top of memory, and the empty string. -/
theorem witness_PrintStringStopsAtTheZeroByte :
    (let s := bytesAt 0xFFFFFFFF#32 [0x68#8, 0x69#8] (sets [(2, 4#32), (4, 0xFFFFFFFF#32)] State.reset)
     s.x 2 = 4#32 ∧
      (∀ k (h : k < [0x68#8, 0x69#8].length),
        s.readByte (s.x 4 + BitVec.ofNat 32 k) = [0x68#8, 0x69#8][k] ∧ [0x68#8, 0x69#8][k] ≠ 0#8) ∧
      s.readByte (s.x 4 + BitVec.ofNat 32 [0x68#8, 0x69#8].length) = 0#8) ∧
    (sets [(2, 4#32)] State.reset).readByte ((sets [(2, 4#32)] State.reset).x 4 + BitVec.ofNat 32 0) = 0#8 := by
  refine ⟨⟨by decide, fun k h => ?_, by decide⟩, by decide⟩
  have hk : k = 0 ∨ k = 1 := by
    simp only [List.length_cons, List.length_nil] at h
    omega
  rcases hk with rfl | rfl <;> (revert h; decide)

theorem witness_ReadIntegerAndCharacter :
    ((sets [(2, 5#32)] State.reset).answerInt (.value 0xFFFFFFFD#32)).x 2 = 5#32 ∧
    ((sets [(2, 5#32)] State.reset).answerInt (.value 0xFFFFFFFD#32)).conIn.ints = [.value 0xFFFFFFFD#32] ∧
    ((sets [(2, 12#32)] State.reset).answerChar (.value 0x41#8)).x 2 = 12#32 ∧
    ((sets [(2, 12#32)] State.reset).answerChar (.value 0x41#8)).conIn.chars = [.value 0x41#8] := by decide

/-- The least and the greatest `maxLen`. -/
theorem witness_ReadStringStoresALine :
    let s := (sets [(2, 8#32), (5, 1#32)] State.reset).answerLine (.value [0x61#8])
    let s' := (sets [(2, 8#32), (5, 0x7FFFFFFF#32)] State.reset).answerLine (.value [])
    (Memory.wf s.mem = true ∧ s.x 2 = 8#32 ∧ 1 ≤ s32 (s.x 5) ∧ s.conIn.lines = [.value [0x61#8]]) ∧
    (Memory.wf s'.mem = true ∧ s'.x 2 = 8#32 ∧ 1 ≤ s32 (s'.x 5) ∧ s'.conIn.lines = [.value []]) := by decide

/-- Numbers beside the services', and a negative one. -/
theorem witness_UnsupportedSyscallLogsAndContinues :
    [0#32, 2#32, 3#32, 6#32, 7#32, 13#32, 0xFFFFFFFF#32].all (fun n =>
      let v := (sets [(2, n)] State.reset).x 2
      v != 1#32 && v != 4#32 && v != 5#32 && v != 8#32 && v != 9#32 && v != 10#32 && v != 11#32 && v != 12#32) = true := by
  decide

theorem witness_UnansweredAndFailedReads :
    let s := sets [(2, 8#32), (5, 1#32)] State.reset
    ((sets [(2, 5#32)] s).x 2 = 5#32 ∧ s.conIn.ints = []) ∧ ((sets [(2, 12#32)] s).x 2 = 12#32 ∧ s.conIn.chars = []) ∧
    (s.x 2 = 8#32 ∧ 1 ≤ s32 (s.x 5) ∧ s.conIn.lines = []) ∧
    (s.answerInt .endOfInput).conIn.ints = [.endOfInput] ∧ (s.answerInt .malformed).conIn.ints = [.malformed] ∧
    (s.answerChar .endOfInput).conIn.chars = [.endOfInput] ∧ (s.answerLine .endOfInput).conIn.lines = [.endOfInput] ∧
    s32 ((sets [(5, 0#32)] s).x 5) < 1 ∧ s32 ((sets [(5, 0x80000000#32)] s).x 5) < 1 := by decide

theorem witness_LoadSetsUpTheProgram :
    ¬((slot "nop" State.reset).phase = .fresh ∧ (slot "nop" State.reset).eng = .ready) ∧
    (∃ t, State.reset.load (source ["a: nop"]) = .loaded t 1 1) ∧
    (State.reset.phase = .fresh ∧ State.reset.eng = .ready ∧ (source [".data", ".word x"]).all isSourceChar = true ∧
      (Loader.start State.reset.cfg).pass State.reset.cfg (linesFrom [] (source [".data", ".word x"])) =
        .error "x".toList) := ⟨by decide, ⟨_, rfl⟩, by decide⟩

/-- A pass that succeeds, with a slot, a label and bytes; each kind of line, the last two with no token and with none of
the four words. -/
theorem witness_LoadSetsUpTheProgram_pass :
    let text := source ["nop", ".data", "a: .byte 1"]
    (State.reset.phase = .fresh ∧ State.reset.eng = .ready ∧ text.all isSourceChar = true ∧
      (Loader.start State.reset.cfg).pass State.reset.cfg (linesFrom [] text) =
        .ok { sect := .data, cursor := 0x10010001#32, slots := [["nop".toList]],
              labels := [("a".toList, 0x10010000#32)], mem := [(0x10010000, 1#8)] }) ∧
    (∃ l', (Loader.start State.reset.cfg).line State.reset.cfg "nop".toList = .ok l') ∧
    cleanLine " # only".toList = [] ∧
    (cleanLine " .text # t".toList ≠ [] ∧ (tokenize (cleanLine " .text # t".toList)).head? = some ".text".toList) ∧
    (cleanLine ".data".toList ≠ [] ∧ (tokenize (cleanLine ".data".toList)).head? = some ".data".toList) ∧
    (cleanLine ".globl f".toList ≠ [] ∧ (tokenize (cleanLine ".globl f".toList)).head? = some ".globl".toList) ∧
    (cleanLine ".global".toList ≠ [] ∧ (tokenize (cleanLine ".global".toList)).head? = some ".global".toList) ∧
    (cleanLine ",".toList ≠ [] ∧ (tokenize (cleanLine ",".toList)).head? = none) ∧
    (cleanLine "a: nop".toList ≠ [] ∧ (tokenize (cleanLine "a: nop".toList)).head? = some "a:".toList) :=
  ⟨by decide, ⟨_, rfl⟩, by decide⟩

/-- No value, a number and a label, one value; a name not defined and a number out of range after a value. -/
theorem witness_DataDirectivesFillMemory :
    let l : Loader := { Loader.start Config.default with sect := .data, labels := [("a".toList, 0x10010000#32)] }
    Memory.wf l.mem = true ∧ ["-1".toList, "a".toList].all tokenClosed = true ∧
    List.Forall₂ (LoadsValue l) [] [] ∧
    List.Forall₂ (LoadsValue l) ["-1".toList, "a".toList] [-1, 0x10010000] ∧
    List.Forall₂ (LoadsValue l) ["0xFFFFFFFF".toList] [4294967295] ∧
    FailsToLoad l "later".toList ∧ FailsToLoad l "0x100000000".toList ∧
    l.line Config.default ".word a, later".toList = .error "later".toList := by
  refine ⟨by decide, by decide, .nil, .cons (.inl (by decide)) (.cons (.inr ⟨"a".toList, 0x10010000#32, by decide⟩) .nil),
    .cons (.inl (by decide)) .nil, .inr (by decide), .inl (by decide), by decide⟩

/-- In either section, alone on its line and not; the last free slot. -/
theorem witness_LabelsNameTheRunningAddress :
    (∃ l, (Loader.start Config.default).addLabel Config.default "a".toList = .ok l) ∧
    (∃ l, ({ Loader.start Config.default with sect := .data }).addLabel Config.default "a".toList = .ok l) ∧
    ':' ∉ "a".toList ∧ trim " ".toList = [] ∧ trim " nop".toList ≠ [] ∧
    ((Loader.start Config.default).sect = .text ∧ (Loader.start Config.default).slots.length < Config.default.slotLimit) ∧
    (let cfg := { Config.default with isCapacity := some 1 }
     (Loader.start cfg).slots.length < cfg.slotLimit ∧ ':' ∉ ".word 1".toList) :=
  ⟨⟨_, rfl⟩, ⟨_, rfl⟩, by decide⟩

/-- No string, one quote (R103's quote-matching failure, example L4); the empty string; escapes with text around the
quotes and a quote inside; a backslash before another character. -/
theorem witness_StringDirectivesStoreTheirText :
    Memory.wf (Loader.start Config.default).mem = true ∧ ["\"oops".toList].all tokenClosed = true ∧
    ([' '].intercalate []).count '"' < 2 ∧ ([' '].intercalate ["\"oops".toList, "x".toList]).count '"' < 2 ∧
    ([' '].intercalate ["\"\"".toList] = [] ++ '"' :: ([] ++ '"' :: []) ∧ StoredText [] [] ∧
      (([] : List Byte) ++ [0#8]).length ≤ 2 ^ 32) ∧
    ([' '].intercalate ["x\"a\\n\"b".toList, "\\x\"".toList] = ['x'] ++ '"' :: ("a\\n\"b \\x".toList ++ '"' :: []) ∧
      '"' ∉ ['x'] ∧ StoredText "a\\n\"b \\x".toList [0x61#8, 0x0A#8, 0x22#8, 0x62#8, 0x20#8, 0x5C#8, 0x78#8]) := by
  refine ⟨by decide, by decide, by decide, by decide, ⟨by decide, .nil, by decide⟩, by decide, by decide, ?_⟩
  exact .verbatim (by decide) (.newline (.verbatim (by decide) (.verbatim (by decide) (.verbatim (by decide)
    (.verbatim (by decide) (.verbatim (by decide) .nil))))))



end Sys2Proof.Tests
end

section
/-! PROOFS. Register access through designators (10_state.md R22, R25). -/

namespace Sys2Proof.Machine

/-- A write to register 0 is the identity on the whole state (10_state.md R22). -/
@[simp] theorem State.writeReg_valid_zero (s : State) (v : Word) : s.writeReg (.valid 0) v = s := rfl

/-- A write to any other register is seen by that register alone (10_state.md R22). -/
theorem State.x_writeReg_valid {i : Fin 32} (hi : i ≠ 0) (s : State) (v : Word) (j : Fin 32) :
    (s.writeReg (.valid i) v).x j = if j = i then v else s.x j := by
  rw [State.x_writeReg]
  by_cases hj : j = i
  · subst hj
    simp [hi]
  · have hne : RegOp.valid i ≠ .valid j := fun h => hj (RegOp.valid.inj h).symm
    simp [hj, hne]

/-- Logging leaves every register (00_scope.md R14). -/
theorem sameRegs_log (s : State) (d : Diag) : SameRegs s (s.log d) := State.x_log s d

/-- Settles O21: register 0 by the two branches of R22, every other register by `State.x_writeReg_valid`, and an
invalid designator by the record it logs (R25). -/
theorem registerAccessThroughDesignators : Obligations.RegisterAccessThroughDesignators := by
  intro s
  refine ⟨?readValid, State.x_zero s, ?readInvalid, State.writeReg_valid_zero s, ?writeValid, ?writeInvalid, ?record⟩
  case readValid => exact fun i => ⟨rfl, rfl⟩
  case readInvalid => exact fun tok => ⟨rfl, rfl⟩
  case writeValid => exact fun i v hi => State.x_writeReg_valid hi s v
  case writeInvalid => exact fun tok v => rfl
  case record => exact fun d => ⟨State.log_diags s d, sameRegs_log s d⟩

end Sys2Proof.Machine
end

section
/-! PROOFS. Data memory accesses of 1, 2 and 4 bytes (20_memory.md R52 to R56). -/

namespace Sys2Proof.Machine

/-! Reads: each accessor is `MemRead` of R55. -/

/-- `MemRead` of no bytes (R55). -/
@[simp] theorem memValue_zero (s : State) (a : Word) : memValue s a 0 = 0 := rfl

/-- `MemRead` takes the byte at the address as the least significant one (R55). -/
theorem memValue_succ (s : State) (a : Word) (n : Nat) :
    memValue s a (n + 1) = (s.readByte a).toNat + 256 * memValue s (a + 1#32) n := rfl

/-- The value of a concatenation, the right-hand part low (`++` of 00_scope.md R10). -/
theorem toNat_append_eq_add {m n : Nat} (hi : BitVec m) (lo : BitVec n) :
    (hi ++ lo).toNat = lo.toNat + 2 ^ n * hi.toNat := by
  rw [BitVec.toNat_append, ← Nat.shiftLeft_add_eq_or_of_lt lo.isLt, Nat.shiftLeft_eq, Nat.mul_comm, Nat.add_comm]

/-- The byte accessor reads R55's value (R52). -/
theorem State.toNat_readByte (s : State) (a : Word) : (s.readByte a).toNat = memValue s a 1 := by
  simp [memValue_succ]

/-- The halfword accessor reads R55's value (R53). -/
theorem State.toNat_readHalf (s : State) (a : Word) : (s.readHalf a).toNat = memValue s a 2 := by
  rw [State.readHalf, toNat_append_eq_add, memValue_succ, State.toNat_readByte s (a + 1#32)]
  omega

/-- The word accessor reads R55's value (R54). -/
theorem State.toNat_readWord (s : State) (a : Word) : (s.readWord a).toNat = memValue s a 4 := by
  rw [State.readWord, toNat_append_eq_add, toNat_append_eq_add, State.toNat_readHalf]
  simp only [memValue_succ, memValue_zero, BitVec.add_assoc, BitVec.reduceAdd]
  omega

/-! Writes: each accessor stores the little-endian bytes of its value one after another. -/

/-- The low `n` bytes of `v`, the least significant first (R55). -/
def littleEndianBytes {w : Nat} (n : Nat) (v : BitVec w) : List Byte :=
  (List.range n).map fun k => v.extractLsb' (8 * k) 8

@[simp] theorem length_littleEndianBytes {w : Nat} (n : Nat) (v : BitVec w) : (littleEndianBytes n v).length = n := by
  simp [littleEndianBytes]

@[simp] theorem getElem_littleEndianBytes {w n : Nat} (v : BitVec w) {k : Nat} (hk : k < (littleEndianBytes n v).length) :
    (littleEndianBytes n v)[k] = v.extractLsb' (8 * k) 8 := by
  simp [littleEndianBytes]

/-- The halfword accessor is `MemWrite` of R55 (R53). -/
theorem State.writeHalf_eq_writeBytes (s : State) (a : Word) (v : BitVec 16) :
    s.writeHalf a v = s.writeBytes a (littleEndianBytes 2 v) := rfl

/-- The word accessor is `MemWrite` of R55 (R54). -/
theorem State.writeWord_eq_writeBytes (s : State) (a v : Word) :
    s.writeWord a v = s.writeBytes a (littleEndianBytes 4 v) := by
  simp [State.writeWord, State.writeByte, State.writeBytes, littleEndianBytes, memWriteBytes, List.range_succ,
    BitVec.add_assoc]

/-- `MemWrite` of R55 puts the bytes of its value at its addresses and leaves every other byte. -/
theorem State.readByte_writeBytes_littleEndianBytes {s : State} (h : Memory.wf s.mem = true) (a : Word) {w n : Nat}
    (hn : n ≤ 2 ^ 32) (v : BitVec w) :
    (∀ k < n, (s.writeBytes a (littleEndianBytes n v)).readByte (a + BitVec.ofNat 32 k) = v.extractLsb' (8 * k) 8) ∧
      ∀ b, (∀ k < n, b ≠ a + BitVec.ofNat 32 k) →
        (s.writeBytes a (littleEndianBytes n v)).readByte b = s.readByte b := by
  obtain ⟨written, others⟩ := memRead_memWriteBytes (bs := littleEndianBytes n v) h a (by simpa using hn)
  simp only [length_littleEndianBytes, getElem_littleEndianBytes] at written others
  exact ⟨written, others⟩

/-- Settles O22: the reads by the value of a concatenation, the byte write by `State.readByte_writeByte`, the wider
writes as runs of little-endian bytes. -/
theorem accessorsMoveTheBytesOfR55 : Obligations.AccessorsMoveTheBytesOfR55 := by
  intro s a h
  refine ⟨s.toNat_readByte a, s.toNat_readHalf a, s.toNat_readWord a, ?byte, ?half, ?word⟩
  case byte =>
    intro v
    exact ⟨by rw [State.readByte_writeByte h, if_pos rfl], fun b hb => by rw [State.readByte_writeByte h, if_neg hb]⟩
  case half =>
    intro v
    rw [State.writeHalf_eq_writeBytes]
    exact State.readByte_writeBytes_littleEndianBytes h a (by decide) v
  case word =>
    intro v
    rw [State.writeWord_eq_writeBytes]
    exact State.readByte_writeBytes_littleEndianBytes h a (by decide) v

end Sys2Proof.Machine
end

section
/-! PROOFS. Arithmetic, logical, comparison and immediate instructions (40_arith_logic.md). -/

namespace Sys2Proof.Machine

/-! The words of the model's operations as the integers and naturals of the rules (R149). -/

/-- `u32` of a word's own value is the word (00_scope.md R10). -/
theorem u32_toNat (a : Word) : u32 (a.toNat : Int) = a := by
  rw [u32, BitVec.ofInt_natCast, BitVec.ofNat_toNat, BitVec.setWidth_eq]

/-- Subtraction of words is that of their values modulo 2^32 (R133). -/
theorem sub_eq_u32 (a b : Word) : a - b = u32 ((a.toNat : Int) - b.toNat) := by
  calc a - b = u32 a.toNat + -u32 b.toNat := by rw [u32_toNat, u32_toNat, BitVec.sub_eq_add_neg]
    _ = u32 ((a.toNat : Int) + -(b.toNat : Int)) := by rw [u32, u32, u32, BitVec.ofInt_add, BitVec.ofInt_neg]
    _ = u32 ((a.toNat : Int) - b.toNat) := by rw [Int.sub_eq_add_neg]

/-- Adding an operand value is adding its integer modulo 2^32 (R141). -/
theorem add_u32 (a : Word) (n : Int) : a + u32 n = u32 ((a.toNat : Int) + n) := by
  calc a + u32 n = u32 a.toNat + u32 n := by rw [u32_toNat]
    _ = u32 ((a.toNat : Int) + n) := (BitVec.ofInt_add _ _).symm

/-- The operand value of a natural number is its zero extension (30_encoding.md R91). -/
theorem u32_of_nonneg {n : Int} (h : 0 ≤ n) : u32 n = BitVec.ofNat 32 n.toNat := by
  rw [u32, ← BitVec.ofInt_natCast, Int.toNat_of_nonneg h]

/-- The operand value of a number in the signed range of 32 bits reads back as the number (00_scope.md R10). -/
theorem s32_u32 {n : Int} (hlo : -2 ^ 31 ≤ n) (hhi : n < 2 ^ 31) : s32 (u32 n) = n :=
  BitVec.toInt_ofInt_eq_self (by decide) hlo hhi

/-- A shift by 16 multiplies by 65536, whatever the number (R148). -/
theorem u32_shiftLeft_16 (n : Int) : u32 n <<< 16 = u32 (n * 65536) := by
  rw [BitVec.shiftLeft_eq_mul_twoPow, u32, u32, BitVec.ofInt_mul]
  rfl

/-- The signed comparison's result, exactly 1 or 0 (R139). -/
theorem truthWord_signedLess (a b : Word) :
    truthWord (signedLess a b) = if s32 a < s32 b then 1#32 else 0#32 := by
  simp only [truthWord, signedLess, decide_eq_true_eq]

/-- The unsigned comparison's result, exactly 1 or 0 (R140). -/
theorem truthWord_unsignedLess (a b : Word) :
    truthWord (unsignedLess a b) = if a.toNat < b.toNat then 1#32 else 0#32 := by
  simp only [truthWord, unsignedLess, decide_eq_true_eq]

/-! Format R3. -/

/-- An instruction that runs `binary f` completes and writes `v`, where `v` is what `f` makes of its sources (R130). -/
theorem writesReg_of_binary {i : Instr} {rd rs rt : RegOp} {s : State} {v : Word} (f : Word → Word → Word)
    (he : exec i s = binary f rd rs rt s) (hv : f (s.readReg rs) (s.readReg rt) = v) :
    ∃ t, exec i s = .next t ∧ WritesReg rd v [rs, rt] s t := by
  rw [he, ← hv]
  exact binary_spec f rd rs rt s

/-- Settles O27: all four run `binary`, and word addition and subtraction are those of the values modulo 2^32. -/
theorem addAndSubtractWrap : Obligations.AddAndSubtractWrap := by
  intro rd rs rt s
  have hadd := BitVec.add_def (s.readReg rs) (s.readReg rt)
  have hsub := sub_eq_u32 (s.readReg rs) (s.readReg rt)
  exact ⟨writesReg_of_binary (· + ·) rfl hadd, writesReg_of_binary (· + ·) rfl hadd,
    writesReg_of_binary (· - ·) rfl hsub, writesReg_of_binary (· - ·) rfl hsub⟩

/-- Settles O28: all four run `binary` with the very operation of their rule. -/
theorem bitwiseInstructionsWriteTheirResult : Obligations.BitwiseInstructionsWriteTheirResult := by
  intro rd rs rt s
  exact ⟨writesReg_of_binary (· &&& ·) rfl rfl, writesReg_of_binary (· ||| ·) rfl rfl,
    writesReg_of_binary (· ^^^ ·) rfl rfl, writesReg_of_binary (fun a b => ~~~(a ||| b)) rfl rfl⟩

/-- Settles O29: both run `binary`, and a comparison's word is 1 or 0 by the order it decides. -/
theorem comparisonsWriteOneOrZero : Obligations.ComparisonsWriteOneOrZero := by
  intro rd rs rt s
  exact ⟨writesReg_of_binary (fun a b => truthWord (signedLess a b)) rfl (truthWord_signedLess _ _),
    writesReg_of_binary (fun a b => truthWord (unsignedLess a b)) rfl (truthWord_unsignedLess _ _)⟩

/-! Formats I3 and LU. -/

/-- An instruction that runs `immediate f` in a field of range `lo..hi` writes `result n`, where that is what `f` makes
of its source and every `n` in range (R130; 30_encoding.md R91). -/
theorem rangedImmediate_of_immediate {i : Instr} {field : ImmField} {lo hi : Int} {rt rs : RegOp} {imm : ValOp}
    {s : State} {result : Int → Word} (f : Word → Word → Word)
    (hr : ∀ n, field.inRange n = (decide (lo ≤ n) && decide (n ≤ hi))) (he : exec i s = immediate field f rt rs imm s)
    (hf : ∀ n, lo ≤ n → n ≤ hi → f (s.readReg rs) (u32 n) = result n) :
    RangedImmediate lo hi imm i s fun n t => WritesReg rt (result n) [rs] s t := by
  refine rangedImmediate_of hr he fun n hlo hhi => ⟨_, rfl, ?_⟩
  rw [hf n hlo hhi]
  exact writesReg_of rt (result n) (s.noteReg_eq rs)

/-- Settles O30: all four run `immediate` in the signed field; the operand value reads back as the number for the
signed order. -/
theorem signedImmediateInstructions : Obligations.SignedImmediateInstructions := by
  intro rt rs imm s
  have hrange : ∀ n, ImmField.signed16.inRange n = (decide (-32768 ≤ n) && decide (n ≤ 32767)) := fun _ => rfl
  refine ⟨rangedImmediate_of_immediate (· + ·) hrange rfl ?addi,
    rangedImmediate_of_immediate (· + ·) hrange rfl ?addiu,
    rangedImmediate_of_immediate (fun a v => truthWord (signedLess a v)) hrange rfl ?slti,
    rangedImmediate_of_immediate (fun a v => truthWord (unsignedLess a v)) hrange rfl ?sltiu⟩
  case addi => exact fun n _ _ => add_u32 _ n
  case addiu => exact fun n _ _ => add_u32 _ n
  case slti =>
    intro n hlo hhi
    rw [truthWord_signedLess, s32_u32 (by omega) (by omega)]
  case sltiu => exact fun n _ _ => truthWord_unsignedLess _ (u32 n)

/-- Settles O31: the first three run `immediate` in the logical field, where the operand value is the zero extension;
`lui` reads no register and shifts its operand by 16. -/
theorem logicalImmediateInstructions : Obligations.LogicalImmediateInstructions := by
  intro rt rs imm s
  have hrange : ∀ n, ImmField.logical16.inRange n = (decide (0 ≤ n) && decide (n ≤ 65535)) := fun _ => rfl
  refine ⟨rangedImmediate_of_immediate (· &&& ·) hrange rfl ?andi,
    rangedImmediate_of_immediate (· ||| ·) hrange rfl ?ori, rangedImmediate_of_immediate (· ^^^ ·) hrange rfl ?xori,
    rangedImmediate_of hrange rfl ?lui⟩
  case andi => exact fun n hn _ => congrArg (s.readReg rs &&& ·) (u32_of_nonneg hn)
  case ori => exact fun n hn _ => congrArg (s.readReg rs ||| ·) (u32_of_nonneg hn)
  case xori => exact fun n hn _ => congrArg (s.readReg rs ^^^ ·) (u32_of_nonneg hn)
  case lui =>
    intro n _ _
    refine ⟨_, rfl, ?_⟩
    rw [u32_shiftLeft_16]
    exact writesReg_of rt _ s.no_reads

end Sys2Proof.Machine
end

section
/-! PROOFS. Multiply, unsigned divide and the moves from HI and LO (41_muldiv.md). -/

namespace Sys2Proof.Machine

/-! Format MD, multiply. -/

/-- The halves that a multiplication puts in HI and LO are the whole product (R161, R162). -/
theorem extractLsb'_append_halves (p : BitVec 64) : p.extractLsb' 32 32 ++ p.extractLsb' 0 32 = p := by
  rw [BitVec.extractLsb'_append_extractLsb'_eq_extractLsb' (by decide)]
  exact BitVec.extractLsb'_eq_self

/-- `multiply` always completes, with the product's pattern in `HI ++ LO` (R161, R162). -/
theorem multiply_spec (product : Word → Word → BitVec 64) (rs rt : RegOp) (s : State) :
    ∃ t, multiply product rs rt s = .next t ∧ WritesHiLo t.hi t.lo [rs, rt] s t ∧
      t.hi ++ t.lo = product (s.readReg rs) (s.readReg rt) :=
  ⟨_, rfl, writesHiLo_of s _ _ rs rt, extractLsb'_append_halves _⟩

/-- The signed product of two words fits in 64 bits, its greatest value being 2^62 (R161). -/
theorem toInt_ofInt_s32_mul_s32 (a b : Word) : (BitVec.ofInt 64 (s32 a * s32 b)).toInt = s32 a * s32 b := by
  have hlo : -2 ^ 62 ≤ s32 a * s32 b := BitVec.le_toInt_mul_toInt
  have hhi : s32 a * s32 b ≤ 2 ^ 62 := BitVec.toInt_mul_toInt_le
  exact BitVec.toInt_ofInt_eq_self (by decide) (by omega) (by omega)

/-- The unsigned product of two words fits in 64 bits (R162). -/
theorem toNat_ofNat_toNat_mul_toNat (a b : Word) : (BitVec.ofNat 64 (a.toNat * b.toNat)).toNat = a.toNat * b.toNat := by
  rw [BitVec.toNat_ofNat]
  exact Nat.mod_eq_of_lt BitVec.toNat_mul_toNat_lt

/-- Settles O32: both run `multiply`, and neither exact product leaves 64 bits. -/
theorem multiplyGivesTheExactProduct : Obligations.MultiplyGivesTheExactProduct := by
  intro rs rt s
  constructor
  case left =>
    obtain ⟨t, he, hw, hp⟩ := multiply_spec (fun a b => BitVec.ofInt 64 (s32 a * s32 b)) rs rt s
    exact ⟨t, he, hw, by rw [hp, toInt_ofInt_s32_mul_s32]⟩
  case right =>
    obtain ⟨t, he, hw, hp⟩ := multiply_spec (fun a b => BitVec.ofNat 64 (a.toNat * b.toNat)) rs rt s
    exact ⟨t, he, hw, by rw [hp, toNat_ofNat_toNat_mul_toNat]⟩

/-! Format MD, unsigned divide. -/

/-- A quotient of words is a word (R164). -/
theorem toNat_ofNat_toNat_div (a : Word) (b : Nat) : (BitVec.ofNat 32 (a.toNat / b)).toNat = a.toNat / b := by
  rw [BitVec.toNat_ofNat]
  exact Nat.mod_eq_of_lt (Nat.lt_of_le_of_lt (Nat.div_le_self _ _) a.isLt)

/-- A remainder of words is a word (R164). -/
theorem toNat_ofNat_toNat_mod (a : Word) (b : Nat) : (BitVec.ofNat 32 (a.toNat % b)).toNat = a.toNat % b := by
  rw [BitVec.toNat_ofNat]
  exact Nat.mod_eq_of_lt (Nat.lt_of_le_of_lt (Nat.mod_le _ _) a.isLt)

/-- `divu` with a zero divisor only logs its reads and goes on (R164). -/
theorem execDivu_zero {rs rt : RegOp} {s : State} (h : (s.readReg rt).toNat = 0) :
    execDivu rs rt s = .next ((s.noteReg rs).noteReg rt).advance := if_pos h

/-- `divu` with any other divisor puts the remainder in HI and the quotient in LO (R164). -/
theorem execDivu_nonzero {rs rt : RegOp} {s : State} (h : (s.readReg rt).toNat ≠ 0) :
    execDivu rs rt s = .next ((((s.noteReg rs).noteReg rt).setHiLo
      (BitVec.ofNat 32 ((s.readReg rs).toNat % (s.readReg rt).toNat))
      (BitVec.ofNat 32 ((s.readReg rs).toNat / (s.readReg rt).toNat))).advance) := if_neg h

/-- Settles O34: by the two branches of R164; neither result loses bits as a word. -/
theorem unsignedDivideGivesQuotientAndRemainder : Obligations.UnsignedDivideGivesQuotientAndRemainder := by
  intro rs rt s
  constructor
  case left => exact fun hzero => ⟨_, execDivu_zero hzero, keepsHiLo_of s rs rt⟩
  case right =>
    exact fun hne => ⟨_, execDivu_nonzero hne, writesHiLo_of s _ _ rs rt, toNat_ofNat_toNat_div _ _,
      toNat_ofNat_toNat_mod _ _⟩

/-! Format MF. -/

/-- Settles O35: a register write after no reads, of HI and of LO. -/
theorem movesFromHiAndLo : Obligations.MovesFromHiAndLo := by
  intro rd s
  exact ⟨⟨_, rfl, writesReg_of rd s.hi s.no_reads⟩, ⟨_, rfl, writesReg_of rd s.lo s.no_reads⟩⟩

end Sys2Proof.Machine
end

section
/-! PROOFS. Shift instructions (42_shift.md). -/

namespace Sys2Proof.Machine

/-! The model's shifts as scaling by a power of two (R170). -/

/-- A left shift multiplies by a power of two modulo 2^32 (R171). -/
theorem shiftLeft_eq_u32_mul (a : Word) (k : Nat) : a <<< k = u32 ((a.toNat : Int) * 2 ^ k) := by
  calc a <<< k = BitVec.ofNat 32 (a.toNat * 2 ^ k) := by rw [← Nat.shiftLeft_eq]; rfl
    _ = u32 ((a.toNat * 2 ^ k : Nat) : Int) := (BitVec.ofInt_natCast 32 _).symm
    _ = u32 ((a.toNat : Int) * 2 ^ k) := by push_cast; rfl

/-- A logical right shift is the floor division of the unsigned value (R172). -/
theorem ushiftRight_eq_ofNat_div (a : Word) (k : Nat) : a >>> k = BitVec.ofNat 32 (a.toNat / 2 ^ k) := by
  apply BitVec.eq_of_toNat_eq
  rw [BitVec.toNat_ushiftRight, Nat.shiftRight_eq_div_pow, toNat_ofNat_toNat_div]

/-- An arithmetic right shift is the floor division of the signed value (R173). -/
theorem sshiftRight_eq_u32_fdiv (a : Word) (k : Nat) : a.sshiftRight k = u32 (Int.fdiv (s32 a) (2 ^ k)) := by
  rw [BitVec.sshiftRight_eq, Int.shiftRight_eq_div_pow, Int.fdiv_eq_ediv_of_nonneg _ (by positivity)]
  push_cast
  rfl

/-! Format SH. -/

/-- The amount that a shift reads from an operand value in 0..31 (30_encoding.md R91). -/
theorem toNat_u32_of_shamt {n : Int} (hlo : 0 ≤ n) (hhi : n ≤ 31) : (u32 n).toNat = n.toNat := by
  rw [u32_of_nonneg hlo, BitVec.toNat_ofNat]
  omega

/-- A shift amount outside 0..31 is refused under `full32`, having no bits beyond its field (30_encoding.md R91). -/
theorem State.immValue_shamt_full32 {s : State} {shamt : ValOp} {n : Int} (h : s.resolveImm shamt = .ok n)
    (hr : ¬(0 ≤ n ∧ n ≤ 31)) (hw : s.cfg.immWide = .full32) :
    s.immValue .shamt shamt = .refused .immediateOutOfRange := by
  have hout : ImmField.shamt.inRange n = false := by
    rw [ImmField.inRange, ← Bool.decide_and]
    exact decide_eq_false hr
  have hnone : wideOperand s.cfg.immWide .shamt n = none := by rw [hw]; rfl
  rw [State.immValue, h]
  exact fieldValue_of_no_wideOperand hout hnone

section
variable {i : Instr} {f : Word → Nat → Word} {rd rt : RegOp} {shamt : ValOp} {s : State}

/-- An instruction that runs `shift f` writes `result n`, where that is what `f` makes of its source and the amount `n`
(R170). -/
theorem rangedImmediate_of_shift {result : Int → Word} (he : exec i s = shift f rd rt shamt s)
    (hf : ∀ n : Int, f (s.readReg rt) n.toNat = result n) :
    RangedImmediate 0 31 shamt i s fun n t => WritesReg rd (result n) [rt] s t := by
  refine rangedImmediate_of (f := .shamt) (fun _ => rfl) he fun n hlo hhi => ⟨_, rfl, ?_⟩
  rw [toNat_u32_of_shamt hlo hhi, hf n]
  exact writesReg_of rd (result n) (s.noteReg_eq rt)

/-- An instruction that runs `shift f` is refused as its amount is (R170). -/
theorem refused_of_shift {r : Refusal} (he : exec i s = shift f rd rt shamt s)
    (hv : s.immValue .shamt shamt = .refused r) : exec i s = .refused r := by
  rw [he, shift, hv]
  rfl

end

/-- Settles O36: all three run `shift`, and each shift of words is the scaling by a power of two that its rule states;
under `full32` the amount itself is refused. -/
theorem shiftsScaleByPowersOfTwo : Obligations.ShiftsScaleByPowersOfTwo := by
  intro rd rt shamt s
  refine ⟨rangedImmediate_of_shift rfl ?sll, rangedImmediate_of_shift rfl ?srl, rangedImmediate_of_shift rfl ?sra,
    ?full32⟩
  case sll => exact fun n => shiftLeft_eq_u32_mul _ n.toNat
  case srl => exact fun n => ushiftRight_eq_ofNat_div _ n.toNat
  case sra => exact fun n => sshiftRight_eq_u32_fdiv _ n.toNat
  case full32 =>
    intro n hn hr hw
    have hv := State.immValue_shamt_full32 hn hr hw
    exact ⟨refused_of_shift rfl hv, refused_of_shift rfl hv, refused_of_shift rfl hv⟩

end Sys2Proof.Machine
end

section
/-! PROOFS. Load and store instructions (43_loadstore.md). -/

namespace Sys2Proof.Machine

/-! What a load reads, by value (R182 to R186). -/

/-- The signed reading of a bit vector's own value is its two's-complement value (00_scope.md R10). -/
theorem signedOf_toNat {n : Nat} (v : BitVec n) : signedOf n v.toNat = v.toInt := by
  rw [BitVec.toInt_eq_msb_cond, BitVec.msb_eq_decide, signedOf]
  by_cases h : v.toNat < 2 ^ (n - 1)
  · simp [h, Nat.not_le.mpr h]
  · simp [h, Nat.not_lt.mp h]

/-- Sign extension to a word writes the signed reading of the value (R183, R185). -/
theorem signExtend_eq_u32_signedOf {n : Nat} (v : BitVec n) : v.signExtend 32 = u32 (signedOf n v.toNat) := by
  rw [signedOf_toNat]
  rfl

/-- The word at an address as R55's value (R182). -/
theorem State.readWord_eq_ofNat_memValue (s : State) (a : Word) :
    s.readWord a = BitVec.ofNat 32 (memValue s a 4) := by
  rw [← State.toNat_readWord, BitVec.ofNat_toNat, BitVec.setWidth_eq]

/-- The halfword at an address, sign-extended (R183). -/
theorem State.signExtend_readHalf (s : State) (a : Word) :
    (s.readHalf a).signExtend 32 = u32 (signedOf 16 (memValue s a 2)) := by
  rw [signExtend_eq_u32_signedOf, State.toNat_readHalf]

/-- The halfword at an address, zero-extended (R184). -/
theorem State.setWidth_readHalf (s : State) (a : Word) :
    (s.readHalf a).setWidth 32 = BitVec.ofNat 32 (memValue s a 2) := by
  rw [← BitVec.ofNat_toNat, State.toNat_readHalf]

/-- The byte at an address, sign-extended (R185). -/
theorem State.signExtend_readByte (s : State) (a : Word) :
    (s.readByte a).signExtend 32 = u32 (signedOf 8 (memValue s a 1)) := by
  rw [signExtend_eq_u32_signedOf, State.toNat_readByte]

/-- The byte at an address, zero-extended (R186). -/
theorem State.setWidth_readByte (s : State) (a : Word) :
    (s.readByte a).setWidth 32 = BitVec.ofNat 32 (memValue s a 1) := by
  rw [← BitVec.ofNat_toNat, State.toNat_readByte]

/-- A load writes `value s a`, where that is what its accessor reads (R181). -/
theorem atAddress_of_load_eq {get value : State → Word → Word} {rt base : RegOp} {off : Option ValOp} {i : Instr}
    {s : State} (he : exec i s = load get rt off base s) (hv : ∀ (u : State) (a : Word), get u a = value u a) :
    AtAddress off base i s fun a t => WritesReg rt (value s a) [base] s t := by
  simp only [← hv]
  exact atAddress_of_load he

/-- Settles O38: all five run `load`, and what each accessor reads is R55's value under the extension of its rule. -/
theorem loadsReadAndExtend : Obligations.LoadsReadAndExtend := by
  intro rt off base s
  exact ⟨atAddress_of_load_eq rfl State.readWord_eq_ofNat_memValue,
    atAddress_of_load_eq rfl State.signExtend_readHalf, atAddress_of_load_eq rfl State.setWidth_readHalf,
    atAddress_of_load_eq rfl State.signExtend_readByte, atAddress_of_load_eq rfl State.setWidth_readByte⟩

/-! What a store writes: the little-endian bytes of its register (R187 to R189). -/

/-- The low `n` bytes of a value are those of its low part, where that holds them (R188). -/
theorem littleEndianBytes_setWidth {w m n : Nat} (hn : 8 * n ≤ m) (v : BitVec w) :
    littleEndianBytes n (v.setWidth m) = littleEndianBytes n v := by
  refine List.map_congr_left fun k hk => ?_
  have hk : k < n := List.mem_range.mp hk
  exact BitVec.extractLsb'_setWidth_of_le (by omega)

/-- The byte accessor stores the lowest byte (R189). -/
theorem State.writeByte_setWidth_eq_writeBytes (s : State) (a v : Word) :
    s.writeByte a (v.setWidth 8) = s.writeBytes a (littleEndianBytes 1 v) := by
  have hv : v.setWidth 8 = v.extractLsb' (8 * 0) 8 := BitVec.setWidth_eq_extractLsb' (by decide)
  rw [hv]
  rfl

/-- The halfword accessor stores the two lowest bytes (R188). -/
theorem State.writeHalf_setWidth_eq_writeBytes (s : State) (a v : Word) :
    s.writeHalf a (v.setWidth 16) = s.writeBytes a (littleEndianBytes 2 v) := by
  rw [State.writeHalf_eq_writeBytes, littleEndianBytes_setWidth (by decide)]

/-- After reads that leave the records of `reads` and change nothing else, the low `n` bytes of `v` stored and the pc's
advance (R181). -/
theorem writesMem_of {s : State} (h : Memory.wf s.mem = true) (a : Word) {n : Nat} (hn : n ≤ 2 ^ 32) (v : Word)
    (reads : List RegOp) :
    WritesMem a n v reads s
      (({ s with diags := s.diags ++ operandErrors reads }).writeBytes a (littleEndianBytes n v)).advance := by
  obtain ⟨written, others⟩ := State.readByte_writeBytes_littleEndianBytes h a hn v
  exact ⟨rfl, written, others, Logged.of_eq rfl, fun _ => rfl, ⟨rfl, rfl⟩,
    restSame_of rfl rfl rfl rfl rfl rfl rfl rfl rfl⟩

/-- A store writes the low `n` bytes of its register, where its accessor stores those (R181). -/
theorem atAddress_of_store_littleEndianBytes {put : State → Word → Word → State} {n : Nat} {rt base : RegOp}
    {off : Option ValOp} {i : Instr} {s : State} (h : Memory.wf s.mem = true) (hn : n ≤ 2 ^ 32)
    (he : exec i s = store put rt off base s)
    (hp : ∀ (u : State) (a v : Word), put u a v = u.writeBytes a (littleEndianBytes n v)) :
    AtAddress off base i s fun a t => WritesMem a n (s.readReg rt) [base, rt] s t := by
  refine atAddress_of_store he fun a => ?_
  rw [hp]
  exact writesMem_of h a hn _ _

/-- Settles O39: all three run `store`, and each accessor stores the low bytes of the register in R55's order. -/
theorem storesWriteExactlyTheirBytes : Obligations.StoresWriteExactlyTheirBytes := by
  intro rt off base s h
  exact ⟨atAddress_of_store_littleEndianBytes h (by decide) rfl State.writeWord_eq_writeBytes,
    atAddress_of_store_littleEndianBytes h (by decide) rfl State.writeHalf_setWidth_eq_writeBytes,
    atAddress_of_store_littleEndianBytes h (by decide) rfl State.writeByte_setWidth_eq_writeBytes⟩

end Sys2Proof.Machine
end

section
/-! PROOFS. Jumps, call and return (45_jump.md). -/

namespace Sys2Proof.Machine

/-! The raw target (R221). -/

/-- The top 4 bits of a word, by value. -/
theorem toNat_and_top4 (a : Word) : (a &&& 0xF0000000#32).toNat = a.toNat / 2 ^ 28 * 2 ^ 28 := by
  have hmask : a &&& 0xF0000000#32 = (a >>> 28) <<< 28 := by
    ext k hk
    interval_cases k <;> simp
  have hlt : a.toNat / 2 ^ 28 * 2 ^ 28 < 2 ^ 32 := Nat.lt_of_le_of_lt (Nat.div_mul_le_self _ _) a.isLt
  rw [hmask, BitVec.toNat_shiftLeft, BitVec.toNat_ushiftRight, Nat.shiftRight_eq_div_pow, Nat.shiftLeft_eq,
    Nat.mod_eq_of_lt hlt]

/-- The low 26 bits of a word, times 4, by value. -/
theorem toNat_and_low26_shiftLeft_two (u : Word) : ((u &&& 0x03FFFFFF#32) <<< 2).toNat = u.toNat % 2 ^ 26 * 4 := by
  have hmask : (u &&& 0x03FFFFFF#32).toNat = u.toNat % 2 ^ 26 := Nat.and_two_pow_sub_one_eq_mod u.toNat 26
  rw [BitVec.toNat_shiftLeft, hmask, Nat.shiftLeft_eq]
  omega

/-- The raw target as a number: the two parts of R221 share no bit, so their disjunction is their sum. -/
theorem jumpAddress_raw (pc0 : Word) (n : Int) :
    jumpAddress pc0 (.raw n) = BitVec.ofNat 32 (pc0.toNat / 2 ^ 28 * 2 ^ 28 + (u32 n).toNat % 2 ^ 26 * 4) := by
  have hlow : (u32 n).toNat % 2 ^ 26 * 4 < 2 ^ 28 := by omega
  have hsum : pc0.toNat / 2 ^ 28 * 2 ^ 28 + (u32 n).toNat % 2 ^ 26 * 4 < 2 ^ 32 := by
    have := pc0.isLt
    omega
  apply BitVec.eq_of_toNat_eq
  calc (jumpAddress pc0 (.raw n)).toNat
      = pc0.toNat / 2 ^ 28 * 2 ^ 28 ||| (u32 n).toNat % 2 ^ 26 * 4 := by
        rw [jumpAddress, BitVec.toNat_or, toNat_and_top4, toNat_and_low26_shiftLeft_two]
    _ = pc0.toNat / 2 ^ 28 * 2 ^ 28 + (u32 n).toNat % 2 ^ 26 * 4 := by
        rw [Nat.mul_comm (pc0.toNat / 2 ^ 28), Nat.two_pow_add_eq_or_of_lt hlow]
    _ = (BitVec.ofNat 32 (pc0.toNat / 2 ^ 28 * 2 ^ 28 + (u32 n).toNat % 2 ^ 26 * 4)).toNat := by
        rw [BitVec.toNat_ofNat, Nat.mod_eq_of_lt hsum]

/-! Any target. -/

/-- `jumpGoal` takes a raw target where `jumpAddress` does. -/
theorem jumpGoal_eq_goalOf (s : State) (target : ValOp) :
    jumpGoal s target = goalOf (fun n => jumpAddress s.pc (.raw n)) s target := by
  simp only [jumpGoal, jumpAddress_raw]

/-- A target with a goal resolves, and the jump from `t` goes to that goal's address with its records and changes
nothing else of `t`. -/
theorem jumpTo_next {target : ValOp} {s : State} {a : Word} {l : List Diag} (t : State)
    (h : jumpGoal s target = some (a, l)) : ∃ u, jumpTo target s t = .next u ∧ JumpsTo a l t u := by
  rw [jumpGoal_eq_goalOf] at h
  obtain ⟨g, hr, hg⟩ | ⟨_, _, _, hnone⟩ := s.resolveTarget_goal (fun n => jumpAddress s.pc (.raw n)) target
  · obtain ⟨rfl, rfl⟩ := Prod.mk.inj (Option.some.inj (hg.symm.trans h))
    refine ⟨_, by rw [jumpTo, hr]; rfl, ?_⟩
    cases g <;> exact jumpsTo_of t _ _
  · exact nomatch hnone.symm.trans h

/-- A number out of range faults with its token (R88 to R90). -/
theorem jumpTo_wide (tok : Token) (s t : State) : jumpTo (.wide tok) s t = .fault (.numericConversion tok) := rfl

/-- Settles O43: `jr` goes to its register's value, and `j` is the jump from the state itself. -/
theorem jumpsGoToTheirTarget : Obligations.JumpsGoToTheirTarget := by
  intro target s
  refine ⟨fun i => ⟨_, rfl, jumpsTo_of s (.label (s.x i)) (s.x i)⟩, fun a l h => jumpTo_next s h, ?_⟩
  rintro tok rfl
  exact jumpTo_wide tok s s

/-- Settles O44: `jal` is the jump from the state whose register 31 holds the link, and which is `s` in all but its
registers. -/
theorem jumpAndLinkSavesTheNextSlot : Obligations.JumpAndLinkSavesTheNextSlot := by
  intro target s
  constructor
  case left =>
    intro a l h
    obtain ⟨t, he, hpc, hlog, hregs, hhilo, hmem, hrest⟩ := jumpTo_next (s.setX 31 s.nextSlot) h
    refine ⟨t, he, hpc, hlog, fun i => ?_, hhilo, hmem, hrest⟩
    rw [hregs, State.x_setX, State.nextSlot_eq]
    by_cases hi : i = 31
    · simp [hi]
    · simp [hi, Ne.symm hi]
  case right =>
    rintro tok rfl
    exact jumpTo_wide tok s (s.setX 31 s.nextSlot)

end Sys2Proof.Machine
end

section
/-! PROOFS. Pseudo-instructions (46_pseudo.md). -/

namespace Sys2Proof.Machine

/-! `li` (R231). -/

/-- The upper/lower synthesis puts a word's two halves back together (R231). -/
theorem upperLower_eq_self (v : Word) :
    ((v.extractLsb' 16 16).setWidth 32 <<< 16) ||| (v.extractLsb' 0 16).setWidth 32 = v := by
  calc ((v.extractLsb' 16 16).setWidth 32 <<< 16) ||| (v.extractLsb' 0 16).setWidth 32
      = v.extractLsb' 16 16 ++ v.extractLsb' 0 16 := by
        rw [BitVec.append_def, BitVec.shiftLeftZeroExtend_eq, BitVec.setWidth'_eq]
    _ = v := by
        rw [BitVec.extractLsb'_append_extractLsb'_eq_extractLsb' (by decide)]
        exact BitVec.extractLsb'_eq_self

/-- Both paths of `li` give the immediate's 32-bit pattern (R231). -/
theorem liValue_eq_u32 (n : Int) : liValue n = u32 n := by
  rw [liValue]
  split
  case isTrue => rfl
  case isFalse => exact upperLower_eq_self (u32 n)

/-- `li` on an immediate that resolves is the write of its pattern (R231). -/
theorem execLi_of_resolved {rd : RegOp} {imm : ValOp} {s : State} {n : Int} (h : s.resolveImm imm = .ok n) :
    execLi rd imm s = .next ((s.writeReg rd (u32 n)).advance) := by
  rw [execLi, h, ← liValue_eq_u32]
  rfl

/-- `li` ends as its immediate's resolution does (R231; 30_encoding.md R89). -/
theorem execLi_of_fault {rd : RegOp} {imm : ValOp} {s : State} {e : Fault} (h : s.resolveImm imm = .fault e) :
    execLi rd imm s = .fault e := by
  rw [execLi, h]
  rfl

/-- Settles O45: both paths by `liValue_eq_u32`, then a register write after no reads. -/
theorem loadImmediateGivesThePattern : Obligations.LoadImmediateGivesThePattern := by
  refine ⟨liValue_eq_u32, fun rd imm s => ⟨fun n hn => ?resolves, fun tok htok => ?faults⟩⟩
  case resolves => exact ⟨_, execLi_of_resolved hn, writesReg_of rd (u32 n) s.no_reads⟩
  case faults => exact execLi_of_fault htok

/-! `la` (R232). -/

/-- The address that `la` loads is the one its target's goal names (R232). -/
theorem loadedAddress_eq_goalOfTarget (pc0 : Word) (g : Target) :
    loadedAddress pc0 g = (goalOfTarget pc0 u32 g).1 := by cases g <;> rfl

/-- A target leaves the records its goal names and changes nothing else (30_encoding.md R90). -/
theorem State.noteTarget_eq_goalOfTarget (s : State) (raw : Int → Word) (g : Target) :
    s.noteTarget g = { s with diags := s.diags ++ (goalOfTarget s.pc raw g).2 } := by
  cases g <;> simp [State.noteTarget, State.log, goalOfTarget]

/-- `la` on a target with a goal logs the goal's records and writes its address (R232). -/
theorem execLa_of_goal {rd : RegOp} {target : ValOp} {s : State} {a : Word} {l : List Diag}
    (h : addressGoal s target = some (a, l)) :
    execLa rd target s = .next ((({ s with diags := s.diags ++ l } : State).writeReg rd a).advance) := by
  obtain ⟨g, hr, hg⟩ | ⟨_, _, _, hnone⟩ := s.resolveTarget_goal u32 target
  · have hgoal : goalOfTarget s.pc u32 g = (a, l) := Option.some.inj (hg.symm.trans h)
    rw [execLa, hr, Got.andThen, loadedAddress_eq_goalOfTarget, s.noteTarget_eq_goalOfTarget u32 g, hgoal]
  · exact nomatch hnone.symm.trans h

/-- Records before a step's own are logged with them (60_exceptions.md R284). -/
theorem Logged.prepend {l m : List Diag} {s t : State} (h : Logged m { s with diags := s.diags ++ l } t) :
    Logged (l ++ m) s t := by
  obtain ⟨new, hdiags, hperm⟩ := h
  exact ⟨l ++ new, by rw [hdiags, List.append_assoc], hperm.append_left l⟩

/-- Settles O46: a register write after no reads, from the state with the target's records, which is `s` in all
else. -/
theorem loadAddressResolvesItsTarget : Obligations.LoadAddressResolvesItsTarget := by
  intro rd target s
  constructor
  case left =>
    intro a l h
    obtain ⟨hpc, hregs, hlog, hframe⟩ := writesReg_of rd a ({ s with diags := s.diags ++ l } : State).no_reads
    exact ⟨_, execLa_of_goal h, hpc, hregs, hlog.prepend, hframe⟩
  case right =>
    rintro tok rfl
    rfl

/-! `move`, `clear`, `not` (R233 to R235). -/

/-- The bitwise complement by value (R235). -/
theorem not_eq_ofNat_sub (v : Word) : ~~~v = BitVec.ofNat 32 (2 ^ 32 - 1 - v.toNat) := by
  rw [← BitVec.toNat_not, BitVec.ofNat_toNat, BitVec.setWidth_eq]

/-- Settles O47: each is a register write after the reads of its source, if it has one. -/
theorem moveClearAndNot : Obligations.MoveClearAndNot := by
  intro rd rs s
  refine ⟨⟨_, rfl, ?move⟩, ⟨_, rfl, ?clear⟩, ⟨_, rfl, ?not⟩⟩
  case move => exact writesReg_of rd (s.readReg rs) (s.noteReg_eq rs)
  case clear => exact writesReg_of rd 0#32 s.no_reads
  case not =>
    rw [← not_eq_ofNat_sub]
    exact writesReg_of rd _ (s.noteReg_eq rs)

end Sys2Proof.Machine
end

section
/-! PROOFS. Exit and no-operation (47_system.md). -/

namespace Sys2Proof.Machine

/-! Exit (R249). -/

/-- `syscall` with 10 in `$v0` exits (R240). -/
theorem exec_syscall_of_exit {s : State} (h : s.x 2 = 10#32) : exec .syscall s = .next s.exit := by
  change execSyscall s = _
  simp [execSyscall, h, serviceExit]

/-- A halted engine stays as it is (60_exceptions.md R281). -/
theorem step_of_halted {s : State} (h : s.eng = .halted) : step s = .next s := by
  rw [step, if_pos h]

/-- Settles O53: the service is `State.exit`, which touches only the engine, the `pc` and the counter its free value comes
from, and leaves the engine halted, so that the next step is idle. -/
theorem exitHaltsTheEngine : Obligations.ExitHaltsTheEngine := by
  intro s h
  have hregs : SameRegs s s.exit := State.x_congr s.exit_regs
  have hmem : SameMemory s s.exit := sameMemory_of_mem s.exit_mem
  have hprogram : SameProgram s s.exit := ⟨s.exit_cfg, s.exit_slots, s.exit_labels, s.exit_phase⟩
  exact ⟨s.exit, exec_syscall_of_exit h, s.exit_eng, hregs, ⟨s.exit_hi, s.exit_lo⟩, hmem, s.exit_heapPtr,
    ⟨s.exit_conOut, s.exit_conIn⟩, hprogram, s.exit_diags, step_of_halted s.exit_eng⟩

/-! No-operation (R254). -/

/-- The pc's advance changes the `pc` and leaves the engine `Running`, and nothing else (10_state.md R30, R31). -/
theorem advancesOnly_advance (s : State) : AdvancesOnly s s.advance :=
  ⟨s.advance_pc, s.advance_diags, s.x_advance, ⟨s.advance_hi, s.advance_lo⟩, sameMemory_of_mem s.advance_mem,
    restSame_of s.advance_eng s.advance_cfg s.advance_heapPtr s.advance_slots s.advance_labels s.advance_phase
      s.advance_conOut s.advance_conIn s.advance_freeCount⟩

/-- Settles O56: `nop` is the pc's advance. -/
theorem nopOnlyAdvances : Obligations.NopOnlyAdvances :=
  fun s => ⟨s.advance, rfl, advancesOnly_advance s⟩

end Sys2Proof.Machine
end

section
/-! PROOFS. What an instruction can change, said once for all 55, and what every step keeps (10_state.md R26 to R28,
20_memory.md R70, 70_reset_and_hazards.md R306, R311). -/

namespace Sys2Proof.Machine

/-! The system call's dispatch (47_system.md R240, R241), one equation per service. -/

theorem exec_syscall_of_printInt {s : State} (h : s.x 2 = 1#32) : exec .syscall s = servicePrintInt s := by
  change execSyscall s = _
  simp [execSyscall, h]

theorem exec_syscall_of_printString {s : State} (h : s.x 2 = 4#32) : exec .syscall s = servicePrintString s := by
  change execSyscall s = _
  simp [execSyscall, h]

theorem exec_syscall_of_readInt {s : State} (h : s.x 2 = 5#32) : exec .syscall s = serviceReadInt s := by
  change execSyscall s = _
  simp [execSyscall, h]

theorem exec_syscall_of_readString {s : State} (h : s.x 2 = 8#32) : exec .syscall s = serviceReadString s := by
  change execSyscall s = _
  simp [execSyscall, h]

theorem exec_syscall_of_allocate {s : State} (h : s.x 2 = 9#32) : exec .syscall s = serviceAllocate s := by
  change execSyscall s = _
  simp [execSyscall, h]

theorem exec_syscall_of_printChar {s : State} (h : s.x 2 = 11#32) : exec .syscall s = servicePrintChar s := by
  change execSyscall s = _
  simp [execSyscall, h]

theorem exec_syscall_of_readChar {s : State} (h : s.x 2 = 12#32) : exec .syscall s = serviceReadChar s := by
  change execSyscall s = _
  simp [execSyscall, h]

theorem exec_syscall_of_unsupported {s : State} (h1 : s.x 2 ≠ 1#32) (h4 : s.x 2 ≠ 4#32) (h5 : s.x 2 ≠ 5#32)
    (h8 : s.x 2 ≠ 8#32) (h9 : s.x 2 ≠ 9#32) (h10 : s.x 2 ≠ 10#32) (h11 : s.x 2 ≠ 11#32) (h12 : s.x 2 ≠ 12#32) :
    exec .syscall s = serviceUnsupported s := by
  change execSyscall s = _
  simp [execSyscall, h1, h4, h5, h8, h9, h10, h11, h12]

/-! The elements that most updates leave alone. -/

/-- `u` has the program, HI, LO, registers and memory of `s`. -/
structure Undisturbed (s u : State) : Prop where
  program : SameProgram s u
  hiLo : SameHiLo s u
  regs : u.regs = s.regs
  mem : u.mem = s.mem

theorem Undisturbed.refl (s : State) : Undisturbed s s := ⟨⟨rfl, rfl, rfl, rfl⟩, ⟨rfl, rfl⟩, rfl, rfl⟩

/-- So has every state that differs from `s` in the heap pointer, the console and the diagnostics alone. -/
theorem undisturbed_of {s u : State} {hp : Word} {out : List Byte} {inp : ConsoleIn} {ds : List Diag}
    (h : u = { s with heapPtr := hp, conOut := out, conIn := inp, diags := ds }) : Undisturbed s u := by
  subst h
  exact ⟨⟨rfl, rfl, rfl, rfl⟩, ⟨rfl, rfl⟩, rfl, rfl⟩

theorem undisturbed_noteReg (s : State) (d : RegOp) : Undisturbed s (s.noteReg d) := undisturbed_of (s.noteReg_eq d)

theorem undisturbed_noteReg_noteReg (s : State) (d e : RegOp) : Undisturbed s ((s.noteReg d).noteReg e) :=
  undisturbed_of (s.noteReg_noteReg_eq d e)

theorem undisturbed_noteTarget (s : State) (g : Target) : Undisturbed s (s.noteTarget g) := by
  obtain ⟨l, hl⟩ := s.noteTarget_eq g
  exact undisturbed_of hl

/-- The register file after a write depends on the register file before it alone. -/
theorem State.writeReg_regs_congr {s u : State} (h : u.regs = s.regs) (d : RegOp) (v : Word) :
    (u.writeReg d v).regs = (s.writeReg d v).regs := by
  cases d with
  | valid i => by_cases hi : i = 0 <;> simp [State.writeReg, State.setX, hi, h]
  | invalid tok => exact h

/-! What each element's change says of the instruction. -/

/-- `i` may write the register position `d` (10_state.md R27). -/
def MayWrite (i : Instr) (s : State) (d : RegOp) : Prop :=
  d ∈ i.destinations ∧ (i = .syscall → s.x 2 = 5#32 ∨ s.x 2 = 9#32 ∨ s.x 2 = 12#32)

/-- `i` may write memory (20_memory.md R70). -/
def MayStore (i : Instr) (s : State) : Prop :=
  i.kind = .sw ∨ i.kind = .sh ∨ i.kind = .sb ∨ (i = .syscall ∧ s.x 2 = 8#32)

/-- `i` may write HI and LO (10_state.md R28). -/
def MayWriteHiLo (i : Instr) : Prop := i.kind = .mult ∨ i.kind = .multu ∨ i.kind = .div ∨ i.kind = .divu

/-- What instruction `i` can have done between `s` and `t`: the program stays, only exit halts, and registers, memory,
HI and LO stay or are written as the instruction may. -/
structure Effect (i : Instr) (s t : State) : Prop where
  program : SameProgram s t
  halts : t.eng = .halted → s.eng = .halted ∨ (i = .syscall ∧ s.x 2 = 10#32)
  regs : t.regs = s.regs ∨ ∃ d v, MayWrite i s d ∧ t.regs = (s.writeReg d v).regs
  mem : t.mem = s.mem ∨ MayStore i s ∧ ∃ a bs, t.mem = memWriteBytes s.mem a bs
  hiLo : SameHiLo s t ∨ MayWriteHiLo i

/-- An instruction other than `syscall` may write its one destination. -/
theorem mayWrite_destination {i : Instr} {d : RegOp} {s : State} (hd : i.destinations = [d]) (hi : i ≠ .syscall) :
    MayWrite i s d := ⟨by simp [hd], fun h => absurd h hi⟩

section
variable {i : Instr} {s u t : State}

/-- A blocked read. -/
theorem Effect.refl (i : Instr) (s : State) : Effect i s s :=
  ⟨(Undisturbed.refl s).program, .inl, .inl rfl, .inl rfl, .inl ⟨rfl, rfl⟩⟩

/-- Only the pc moves. -/
theorem effect_goTo (hu : Undisturbed s u) (a : Word) : Effect i s (u.goTo a) :=
  ⟨hu.program, by simp, .inl hu.regs, .inl hu.mem, .inl hu.hiLo⟩

/-- A register is written and the pc moves. -/
theorem effect_writeReg_goTo {d : RegOp} (hu : Undisturbed s u) (hd : MayWrite i s d) (v a : Word) :
    Effect i s ((u.writeReg d v).goTo a) := by
  obtain ⟨⟨hcfg, hslots, hlabels, hphase⟩, ⟨hhi, hlo⟩, hregs, hmem⟩ := hu
  exact ⟨by simp [SameProgram, *], by simp, .inr ⟨d, v, hd, State.writeReg_regs_congr hregs d v⟩, .inl (by simp [hmem]),
    .inl (by simp [SameHiLo, *])⟩

/-- HI and LO are written and the pc moves. -/
theorem effect_setHiLo_goTo (hu : Undisturbed s u) (hi : MayWriteHiLo i) (h l a : Word) :
    Effect i s ((u.setHiLo h l).goTo a) :=
  ⟨hu.program, by simp, .inl hu.regs, .inl hu.mem, .inr hi⟩

/-- Bytes are stored and the pc moves. -/
theorem effect_writeBytes_goTo (hu : Undisturbed s u) (hi : MayStore i s) (b : Word) (bs : List Byte) (a : Word) :
    Effect i s ((u.writeBytes b bs).goTo a) :=
  ⟨hu.program, by simp, .inl hu.regs,
    .inr ⟨hi, b, bs, congrArg (memWriteBytes · b bs) hu.mem⟩, .inl hu.hiLo⟩

/-! The evaluators' common shapes. -/

theorem effect_of_binary {f : Word → Word → Word} {rd rs rt : RegOp} (hd : MayWrite i s rd)
    (h : binary f rd rs rt s = .next t) : Effect i s t := by
  cases h
  exact effect_writeReg_goTo (undisturbed_noteReg_noteReg s rs rt) hd _ _

theorem effect_of_immediate {field : ImmField} {f : Word → Word → Word} {rt rs : RegOp} {imm : ValOp}
    (hd : MayWrite i s rt) (h : immediate field f rt rs imm s = .next t) : Effect i s t := by
  obtain ⟨v, -, hv⟩ := Got.andThen_next h
  cases hv
  exact effect_writeReg_goTo (undisturbed_noteReg s rs) hd _ _

theorem effect_of_lui {rt : RegOp} {imm : ValOp} (hd : MayWrite i s rt) (h : execLui rt imm s = .next t) :
    Effect i s t := by
  obtain ⟨v, -, hv⟩ := Got.andThen_next h
  cases hv
  exact effect_writeReg_goTo (Undisturbed.refl s) hd _ _

theorem effect_of_shift {f : Word → Nat → Word} {rd rt : RegOp} {shamt : ValOp} (hd : MayWrite i s rd)
    (h : shift f rd rt shamt s = .next t) : Effect i s t := by
  obtain ⟨v, -, hv⟩ := Got.andThen_next h
  cases hv
  exact effect_writeReg_goTo (undisturbed_noteReg s rt) hd _ _

theorem effect_of_load {get : State → Word → Word} {rt base : RegOp} {off : Option ValOp} (hd : MayWrite i s rt)
    (h : load get rt off base s = .next t) : Effect i s t := by
  obtain ⟨a, -, ha⟩ := Got.andThen_next h
  cases ha
  exact effect_writeReg_goTo (undisturbed_noteReg s base) hd _ _

/-- A store through an accessor that stores some bytes of its value at its address. -/
theorem effect_of_store {put : State → Word → Word → State} {bytes : Word → List Byte} {rt base : RegOp}
    {off : Option ValOp} (hput : ∀ (u : State) (a v : Word), put u a v = u.writeBytes a (bytes v)) (hi : MayStore i s)
    (h : store put rt off base s = .next t) : Effect i s t := by
  obtain ⟨a, -, ha⟩ := Got.andThen_next h
  rw [hput] at ha
  cases ha
  exact effect_writeBytes_goTo (undisturbed_noteReg_noteReg s base rt) hi _ _ _

theorem effect_of_multiply {product : Word → Word → BitVec 64} {rs rt : RegOp} (hi : MayWriteHiLo i)
    (h : multiply product rs rt s = .next t) : Effect i s t := by
  cases h
  exact effect_setHiLo_goTo (undisturbed_noteReg_noteReg s rs rt) hi _ _ _

theorem effect_of_div {rs rt : RegOp} (hi : MayWriteHiLo i) (h : execDiv rs rt s = .next t) : Effect i s t := by
  have hu := undisturbed_noteReg_noteReg s rs rt
  simp only [execDiv, divideOverflow] at h
  split at h
  case isTrue => cases h; exact effect_goTo hu _
  split at h
  case isFalse => cases h; exact effect_setHiLo_goTo hu hi _ _ _
  split at h
  · cases h
  · cases h; exact effect_setHiLo_goTo hu hi _ _ _

theorem effect_of_divu {rs rt : RegOp} (hi : MayWriteHiLo i) (h : execDivu rs rt s = .next t) : Effect i s t := by
  have hu := undisturbed_noteReg_noteReg s rs rt
  by_cases hz : (s.readReg rt).toNat = 0
  · cases (execDivu_zero hz).symm.trans h
    exact effect_goTo hu _
  · cases (execDivu_nonzero hz).symm.trans h
    exact effect_setHiLo_goTo hu hi _ _ _

theorem effect_of_branch {taken : Bool} {target : ValOp} (h : branch taken target s = .next t) : Effect i s t := by
  unfold branch at h
  split at h
  · obtain ⟨g, -, hg⟩ := Got.andThen_next h
    cases hg
    exact effect_goTo (undisturbed_noteTarget s g) _
  · cases h
    exact effect_goTo (Undisturbed.refl s) _

theorem effect_of_branch2 {cond : Word → Word → Bool} {rs rt : RegOp} {target : ValOp}
    (h : branch2 cond rs rt target s = .next t) : Effect i s t := by
  unfold branch2 at h
  split at h
  · exact effect_of_branch h
  · cases h
  · cases h

theorem effect_of_branch1 {cond : Word → Bool} {rs : RegOp} {target : ValOp}
    (h : branch1 cond rs target s = .next t) : Effect i s t := by
  unfold branch1 at h
  split at h
  · exact effect_of_branch h
  · cases h

theorem effect_of_j {target : ValOp} (h : execJ target s = .next t) : Effect i s t := by
  obtain ⟨g, -, hg⟩ := Got.andThen_next h
  cases hg
  exact effect_goTo (undisturbed_noteTarget s g) _

/-- The link is a register write, and the target's records come after it. -/
theorem effect_of_jal {target : ValOp} (hd : MayWrite i s (.valid 31)) (h : execJal target s = .next t) :
    Effect i s t := by
  obtain ⟨g, -, hg⟩ := Got.andThen_next h
  cases hg
  exact ⟨by simp [SameProgram], by simp, .inr ⟨.valid 31, s.nextSlot, hd, by simp [State.writeReg]⟩, .inl (by simp),
    .inl (by simp [SameHiLo])⟩

theorem effect_of_jr {rs : RegOp} (h : execJr rs s = .next t) : Effect i s t := by
  cases rs with
  | valid k => cases h; exact effect_goTo (Undisturbed.refl s) _
  | invalid tok => cases h

theorem effect_of_li {rd : RegOp} {imm : ValOp} (hd : MayWrite i s rd) (h : execLi rd imm s = .next t) :
    Effect i s t := by
  obtain ⟨n, -, hn⟩ := Got.andThen_next h
  cases hn
  exact effect_writeReg_goTo (Undisturbed.refl s) hd _ _

theorem effect_of_la {rd : RegOp} {target : ValOp} (hd : MayWrite i s rd) (h : execLa rd target s = .next t) :
    Effect i s t := by
  obtain ⟨g, -, hg⟩ := Got.andThen_next h
  cases hg
  exact effect_writeReg_goTo (undisturbed_noteTarget s g) hd _ _

end

/-! The services of `syscall`. -/

section
variable {s t : State}

theorem effect_of_printString (h : servicePrintString s = .next t) : Effect .syscall s t := by
  unfold servicePrintString at h
  split at h
  · cases h; exact effect_goTo (undisturbed_of rfl) _
  · cases h

theorem effect_of_readInt (hn : s.x 2 = 5#32) (h : serviceReadInt s = .next t) : Effect .syscall s t := by
  unfold serviceReadInt at h
  split at h
  · cases h; exact Effect.refl _ s
  · cases h
    exact effect_writeReg_goTo (d := .valid 2) (undisturbed_of rfl) ⟨List.mem_singleton_self _, fun _ => .inl hn⟩ _ _
  · cases h
  · cases h

theorem effect_of_readString (hn : s.x 2 = 8#32) (h : serviceReadString s = .next t) : Effect .syscall s t := by
  simp only [serviceReadString] at h
  split at h
  · cases h
  split at h
  · cases h; exact Effect.refl _ s
  · cases h
    exact effect_writeBytes_goTo (undisturbed_of rfl) (.inr (.inr (.inr ⟨rfl, hn⟩))) _ _ _
  · cases h

theorem effect_of_readChar (hn : s.x 2 = 12#32) (h : serviceReadChar s = .next t) : Effect .syscall s t := by
  unfold serviceReadChar at h
  split at h
  · cases h; exact Effect.refl _ s
  · cases h
    exact effect_writeReg_goTo (d := .valid 2) (undisturbed_of rfl)
      ⟨List.mem_singleton_self _, fun _ => .inr (.inr hn)⟩ _ _
  · cases h

theorem effect_of_allocate (hn : s.x 2 = 9#32) (h : serviceAllocate s = .next t) : Effect .syscall s t := by
  cases h
  exact effect_writeReg_goTo (d := .valid 2) (undisturbed_of rfl)
    ⟨List.mem_singleton_self _, fun _ => .inr (.inl hn)⟩ _ _

theorem effect_of_exit (hn : s.x 2 = 10#32) : Effect .syscall s s.exit :=
  ⟨⟨rfl, rfl, rfl, rfl⟩, fun _ => .inr ⟨rfl, hn⟩, .inl rfl, .inl rfl, .inl ⟨rfl, rfl⟩⟩

theorem effect_of_syscall (h : execSyscall s = .next t) : Effect .syscall s t := by
  simp only [execSyscall] at h
  split_ifs at h with h1 h4 h5 h8 h9 h10 h11 h12
  · cases h; exact effect_goTo (undisturbed_of rfl) _
  · exact effect_of_printString h
  · exact effect_of_readInt h5 h
  · exact effect_of_readString h8 h
  · exact effect_of_allocate h9 h
  · cases h; exact effect_of_exit h10
  · cases h; exact effect_goTo (undisturbed_of rfl) _
  · exact effect_of_readChar h12 h
  · cases h; exact effect_goTo (undisturbed_of rfl) _

/-- Every instruction that answers a next state did no more than `Effect` says. -/
theorem effect_of_exec {i : Instr} (h : exec i s = .next t) : Effect i s t := by
  cases i with
  | add _ _ _ | addu _ _ _ | sub _ _ _ | subu _ _ _ | and _ _ _ | or _ _ _ | xor _ _ _ | nor _ _ _ | slt _ _ _
  | sltu _ _ _ =>
    dsimp only [exec] at h
    exact effect_of_binary (mayWrite_destination rfl nofun) h
  | addi _ _ _ | addiu _ _ _ | andi _ _ _ | ori _ _ _ | xori _ _ _ | slti _ _ _ | sltiu _ _ _ =>
    dsimp only [exec] at h
    exact effect_of_immediate (mayWrite_destination rfl nofun) h
  | lui _ _ =>
    dsimp only [exec] at h
    exact effect_of_lui (mayWrite_destination rfl nofun) h
  | mult _ _ =>
    dsimp only [exec] at h
    exact effect_of_multiply (.inl rfl) h
  | multu _ _ =>
    dsimp only [exec] at h
    exact effect_of_multiply (.inr (.inl rfl)) h
  | div _ _ =>
    dsimp only [exec] at h
    exact effect_of_div (.inr (.inr (.inl rfl))) h
  | divu _ _ =>
    dsimp only [exec] at h
    exact effect_of_divu (.inr (.inr (.inr rfl))) h
  | mfhi _ | mflo _ | clear _ =>
    cases h
    refine effect_writeReg_goTo (Undisturbed.refl s) ?_ _ _
    exact mayWrite_destination rfl nofun
  | move _ rs | not _ rs =>
    cases h
    refine effect_writeReg_goTo (undisturbed_noteReg s rs) ?_ _ _
    exact mayWrite_destination rfl nofun
  | sll _ _ _ | srl _ _ _ | sra _ _ _ =>
    dsimp only [exec] at h
    exact effect_of_shift (mayWrite_destination rfl nofun) h
  | lw _ _ _ | lh _ _ _ | lhu _ _ _ | lb _ _ _ | lbu _ _ _ =>
    dsimp only [exec] at h
    exact effect_of_load (mayWrite_destination rfl nofun) h
  | sw _ _ _ =>
    dsimp only [exec] at h
    exact effect_of_store State.writeWord_eq_writeBytes (.inl rfl) h
  | sh _ _ _ =>
    dsimp only [exec] at h
    exact effect_of_store State.writeHalf_setWidth_eq_writeBytes (.inr (.inl rfl)) h
  | sb _ _ _ =>
    dsimp only [exec] at h
    exact effect_of_store State.writeByte_setWidth_eq_writeBytes (.inr (.inr (.inl rfl))) h
  | beq _ _ _ | bne _ _ _ | blt _ _ _ | ble _ _ _ | bgt _ _ _ | bge _ _ _ => exact effect_of_branch2 h
  | bltz _ _ | blez _ _ | bgtz _ _ | bgez _ _ => exact effect_of_branch1 h
  | j _ => exact effect_of_j h
  | jal _ =>
    dsimp only [exec] at h
    exact effect_of_jal (mayWrite_destination rfl nofun) h
  | jr _ => exact effect_of_jr h
  | li _ _ =>
    dsimp only [exec] at h
    exact effect_of_li (mayWrite_destination rfl nofun) h
  | la _ _ =>
    dsimp only [exec] at h
    exact effect_of_la (mayWrite_destination rfl nofun) h
  | syscall => exact effect_of_syscall h
  | nop => cases h; exact effect_goTo (Undisturbed.refl s) _

end

/-! What the effect says of each element. -/

/-- Settles O24: memory is one element of `Effect`. -/
theorem onlyStoresAndReadStringWriteMemory : Obligations.OnlyStoresAndReadStringWriteMemory := by
  intro i s t h hne
  obtain hmem | ⟨hstore, -⟩ := (effect_of_exec h).mem
  · exact absurd hmem hne
  · exact hstore

/-- Settles O25: HI and LO are one element of `Effect`. -/
theorem onlyMultiplyAndDivideWriteHiLo : Obligations.OnlyMultiplyAndDivideWriteHiLo :=
  fun _ _ _ h hne => (effect_of_exec h).hiLo.resolve_left hne

/-- Settles O26: the register file is that of one register write, which `State.x_writeReg` says is seen by its
destination alone and never by register 0. -/
theorem onlyNamedRegistersChange : Obligations.OnlyNamedRegistersChange := by
  intro i s t h k hne
  obtain hregs | ⟨d, v, ⟨hd, hsys⟩, hregs⟩ := (effect_of_exec h).regs
  · exact absurd (State.x_congr hregs k) hne
  · rw [State.x_congr hregs k, State.x_writeReg] at hne
    obtain ⟨rfl, hk⟩ : d = .valid k ∧ k ≠ 0 := by
      by_contra hc
      exact hne (if_neg hc)
    exact ⟨hd, hk, hsys⟩

/-! What every step keeps. -/

/-- An instruction keeps the invariant. -/
theorem Effect.inv {i : Instr} {s t : State} (h : Effect i s t) (hs : s.inv) : t.inv := by
  obtain ⟨hwf, hzero, hfresh⟩ := hs
  obtain ⟨-, hslots, hlabels, hphase⟩ := h.program
  refine ⟨?memory, ?registerZero, ?program⟩
  case memory =>
    obtain hmem | ⟨-, a, bs, hmem⟩ := h.mem
    · rwa [hmem]
    · rw [hmem]
      exact memWriteBytes_wf hwf a bs
  case registerZero =>
    obtain hregs | ⟨d, v, -, hregs⟩ := h.regs
    · simpa only [hregs] using hzero
    · simpa only [hregs] using State.writeReg_reg0 hzero d v
  case program => rwa [hslots, hlabels, hphase]

/-- Settles O11: an executed instruction by `Effect.inv`; the other steps leave registers, memory and program. -/
theorem stepKeepsInvariant : Obligations.StepKeepsInvariant := by
  intro s t hs h
  obtain ⟨-, rfl⟩ | ⟨-, -, ⟨-, rfl⟩ | ⟨toks, -, ⟨i, -, he⟩ | ⟨mnemonic, -, rfl⟩⟩⟩ := step_next_cases h
  · exact hs
  · exact hs
  · exact (effect_of_exec he).inv hs
  · exact hs

/-- Settles O9: an executed instruction by `Effect`; the other steps leave the program by definition. -/
theorem stepKeepsProgramAndLabels : Obligations.StepKeepsProgramAndLabels := by
  intro s t h
  obtain ⟨-, rfl⟩ | ⟨-, -, ⟨-, rfl⟩ | ⟨toks, -, ⟨i, -, he⟩ | ⟨mnemonic, -, rfl⟩⟩⟩ := step_next_cases h
  · exact ⟨rfl, rfl, rfl, rfl⟩
  · exact ⟨rfl, rfl, rfl, rfl⟩
  · exact (effect_of_exec he).program
  · exact ⟨rfl, rfl, rfl, rfl⟩

/-- Settles O8: an executed instruction halts only by exit, and an unknown opcode leaves the engine `Running`. -/
theorem onlyExitAndNoInstructionHalt : Obligations.OnlyExitAndNoInstructionHalt := by
  intro s t hrun h hhalt
  obtain ⟨heng, -⟩ | ⟨-, -, ⟨hnone, -⟩ | ⟨toks, hfetch, ⟨i, hdec, he⟩ | ⟨mnemonic, -, rfl⟩⟩⟩ := step_next_cases h
  · exact absurd heng hrun
  · exact .inl (fetch_of_noSlotAtPc.mp hnone)
  · obtain ⟨rfl, hexit⟩ := ((effect_of_exec he).halts hhalt).resolve_left hrun
    exact .inr ⟨toks, fetch_of_slotAtPc.mp hfetch, hdec, hexit⟩
  · exact nomatch hhalt

end Sys2Proof.Machine
end

section
/-! PROOFS. The decoder and the encoder (30_encoding.md R83 to R94; 10_state.md R23, R24). -/

namespace Sys2Proof

open Sys2Proof.Machine

/-! Register designators (10_state.md R24). -/

/-- R24(b): a decimal string is the register of its value, or an invalid designator outside 0..31. -/
theorem regResolve_of_decimal {tok : Token} {n : Int} (h : decimal? tok = some n) :
    regResolve tok = if h : 0 ≤ n ∧ n ≤ 31 then some (.valid ⟨n.toNat, by omega⟩) else some (.invalid tok) := by
  simp only [regResolve, h]

/-- R24(a): `$` before a register's name. -/
theorem regResolve_dollar_name {name : Token} {i : Fin 32} (hdec : decimal? name = none) (h : regIndex name = some i) :
    regResolve ('$' :: name) = some (.valid i) := by
  simp [regResolve, decimal?_dollar, hdec, h]

/-- R24(c): `$` before a decimal string. -/
theorem regResolve_dollar_decimal {name : Token} {n : Int} (h : decimal? name = some n) :
    regResolve ('$' :: name) = none := by
  simp [regResolve, decimal?_dollar, h]

/-- R24(d): `$` before anything else. -/
theorem regResolve_dollar_other {name : Token} (hdec : decimal? name = none) (h : regIndex name = none) :
    regResolve ('$' :: name) = some (.invalid ('$' :: name)) := by
  simp [regResolve, decimal?_dollar, hdec, h]

/-- R24(c), (d): a token that is no decimal string and does not begin with `$`. -/
theorem regResolve_bare {tok : Token} (hdec : decimal? tok = none) (hdollar : ∀ name, tok ≠ '$' :: name) :
    regResolve tok = if (regIndex tok).isSome then none else some (.invalid tok) := by
  simp only [regResolve, hdec]

theorem decimal?_eq_none_iff {tok : Token} : decimal? tok = none ↔ ∀ n, ¬IsDecimalToken n tok := by
  simp only [← decimal?_iff, Option.eq_none_iff_forall_ne_some, ne_eq]

theorem regIndex_eq_none_iff {tok : Token} : regIndex tok = none ↔ ∀ p ∈ registerTable, tok ≠ p.1 := by
  simp only [Option.eq_none_iff_forall_ne_some, ne_eq, regIndex_eq_some_iff]
  exact ⟨fun h p hp ht => h p.2 (ht ▸ hp), fun h i hi => h _ hi rfl⟩

/-- No register name is a decimal string or begins with `$` (10_state.md R23). -/
theorem registerTable_names : ∀ p ∈ registerTable, decimal? p.1 = none ∧ p.1.head? ≠ some '$' := by decide

/-- Settles O17: R24's clauses, over the table by `regIndex_eq_some_iff` and over decimal strings by `decimal?_iff`. -/
theorem designatorsResolve : Obligations.DesignatorsResolve := by
  refine ⟨?named, ?inside, ?outside, ?dollarDecimal, ?bareName, ?other⟩
  case named =>
    intro p hp
    exact regResolve_dollar_name (registerTable_names p hp).1 ((regIndex_eq_some_iff p.1 p.2).mpr hp)
  case inside =>
    rintro tok n i hn rfl
    rw [regResolve_of_decimal (decimal?_iff.mpr hn), dif_pos (by omega)]
    rfl
  case outside =>
    intro tok n hn hout
    rw [regResolve_of_decimal (decimal?_iff.mpr hn), dif_neg (by omega)]
  case dollarDecimal => exact fun tok n hn => regResolve_dollar_decimal (decimal?_iff.mpr hn)
  case bareName =>
    intro p hp
    obtain ⟨hdec, hhead⟩ := registerTable_names p hp
    rw [regResolve_bare hdec fun name h => hhead (by rw [h]; rfl), (regIndex_eq_some_iff p.1 p.2).mpr hp]
    rfl
  case other =>
    intro tok hname hdec hdollar
    by_cases hd : ∃ name, tok = '$' :: name
    · obtain ⟨name, rfl⟩ := hd
      have hindex : regIndex name = none := regIndex_eq_none_iff.mpr fun p hp h => (hname p hp).1 (by rw [h])
      exact regResolve_dollar_other (decimal?_eq_none_iff.mpr fun n => hdollar n name rfl) hindex
    · have hindex : regIndex tok = none := regIndex_eq_none_iff.mpr fun p hp => (hname p hp).2
      rw [regResolve_bare (decimal?_eq_none_iff.mpr hdec) fun name h => hd ⟨name, h⟩, hindex]
      rfl

/-! Values (30_encoding.md R87, R88). -/

theorem hex?_eq_none_iff {tok : Token} : hex? tok = none ↔ ∀ n, ¬IsHexToken n tok := by
  simp only [Option.eq_none_iff_forall_ne_some, ne_eq, hex?_iff]
  exact ⟨fun h n hn => h n ⟨n, rfl, hn⟩, fun h n ⟨m, _, hm⟩ => h m hm⟩

theorem valueOf_of_decimal {tok : Token} {n : Int} (h : decimal? tok = some n) :
    valueOf tok = if -(2 ^ 31) ≤ n ∧ n ≤ 2 ^ 31 - 1 then .num n else .wide tok := by
  simp only [valueOf, h]

theorem valueOf_of_hex {tok : Token} {n : Int} (hdec : decimal? tok = none) (h : hex? tok = some n) :
    valueOf tok = if n ≤ 2 ^ 32 - 1 then .num n else .wide tok := by
  simp only [valueOf, hdec, h]

theorem valueOf_of_neither {tok : Token} (hdec : decimal? tok = none) (hhex : hex? tok = none) :
    valueOf tok = .sym tok := by
  simp only [valueOf, hdec, hhex]

/-- Settles O18: `decimal?` and `hex?` read exactly the spellings of R87, and no spelling is both. -/
theorem numeralsReadAsTheirValue : Obligations.NumeralsReadAsTheirValue := by
  refine ⟨?decimal, ?hex, ?symbol⟩
  case decimal => exact fun tok n hn => valueOf_of_decimal (decimal?_iff.mpr hn)
  case hex =>
    intro tok n hn
    rw [valueOf_of_hex (decimal?_of_isHexToken hn) (hex?_iff.mpr ⟨n, rfl, hn⟩)]
    by_cases h : n ≤ 2 ^ 32 - 1
    · rw [if_pos h, if_pos (by omega)]
    · rw [if_neg h, if_neg (by omega)]
  case symbol =>
    exact fun tok hdec hhex => valueOf_of_neither (decimal?_eq_none_iff.mpr hdec) (hex?_eq_none_iff.mpr hhex)

/-! What the decoder reads at a position is well-formed. -/

/-- The only designator `RegResolve` finds invalid in a token is that token (10_state.md R24). -/
theorem regResolve_invalid {tok tok' : Token} (h : regResolve tok = some (.invalid tok')) : tok' = tok := by
  unfold regResolve at h
  split at h
  · split at h
    · cases h
    · cases h; rfl
  split at h
  · split at h
    · cases h
    split at h
    · cases h
    · cases h; rfl
  · split at h
    · cases h
    · cases h; rfl

/-- A register position read from a closed token is well-formed. -/
theorem RegOp.wf_of_resolve {tok : Token} {d : RegOp} (hc : tokenClosed tok = true) (h : regResolve tok = some d) :
    d.wf = true := by
  cases d with
  | valid i => rfl
  | invalid tok' =>
    obtain rfl := regResolve_invalid h
    simp [RegOp.wf, hc, h]

/-- A value position read from a closed token is well-formed. -/
theorem ValOp.wf_valueOf {tok : Token} (hc : tokenClosed tok = true) : (valueOf tok).wf = true := by
  cases hdec : decimal? tok with
  | some n =>
    have hv := valueOf_of_decimal hdec
    split at hv
    · rw [hv, ValOp.wf, ← Bool.decide_and]
      exact decide_eq_true (by omega)
    · simp [hv, ValOp.wf, hc]
  | none =>
    cases hhex : hex? tok with
    | some n =>
      have hv := valueOf_of_hex hdec hhex
      obtain ⟨m, rfl, -⟩ := hex?_iff.mp hhex
      split at hv
      · rw [hv, ValOp.wf, ← Bool.decide_and]
        exact decide_eq_true (by omega)
      · simp [hv, ValOp.wf, hc]
    | none =>
      have hv := valueOf_of_neither hdec hhex
      simp [hv, ValOp.wf, hc]

end Sys2Proof
end

section
/-! PROOFS. Operand lists read and written by format (30_encoding.md R85, R92), and the decoder over them. -/

namespace Sys2Proof

open Sys2Proof.Machine

/-! Reading an operand list, position by position. -/

/-- What a position of a pattern asks of its token (30_encoding.md R85, R92). -/
def PositionFits (isReg : Bool) (tok : Token) : Prop := isReg = true → regResolve tok ≠ none

/-- A register, then the rest. -/
def takeReg (next : RegOp → List Token → Option Instr) : List Token → Option Instr
  | [] => none
  | a :: ops => (regResolve a).bind fun x => next x ops

/-- An immediate or target, then the rest. -/
def takeVal (next : ValOp → List Token → Option Instr) : List Token → Option Instr
  | [] => none
  | v :: ops => next (valueOf v) ops

/-- `read` answers exactly on the operand lists of `patterns`, always an instruction of opcode `k`, and a well-formed one
if the tokens are closed and the operands read before them were well-formed (`before`). -/
structure ReadsAs (k : Kind) (patterns : List (List Bool)) (before : Prop) (read : List Token → Option Instr) :
    Prop where
  fits : ∀ ops, (∃ i, read ops = some i) ↔ ∃ ps ∈ patterns, List.Forall₂ PositionFits ps ops
  kind : ∀ ops i, read ops = some i → i.kind = k
  wf : ∀ ops i, read ops = some i → ops.all tokenClosed = true → before → i.wf = true

section
variable {k : Kind} {ps qs : List Bool} {before : Prop}

theorem ReadsAs.none {i : Instr} (hk : i.kind = k) (hw : before → i.wf = true) : ReadsAs k [[]] before (readNone i) := by
  have inv : ∀ ops j, readNone i ops = some j ↔ ops = [] ∧ i = j := by
    rintro (_ | ⟨a, ops⟩) j <;> simp [readNone]
  refine ⟨fun ops => by simp [inv], fun ops j h => ?_, fun ops j h _ hb => ?_⟩
  · obtain ⟨-, rfl⟩ := (inv ops j).mp h
    exact hk
  · obtain ⟨-, rfl⟩ := (inv ops j).mp h
    exact hw hb

theorem ReadsAs.reg {next : RegOp → List Token → Option Instr}
    (h : ∀ x, ReadsAs k [ps] (before ∧ x.wf = true) (next x)) : ReadsAs k [true :: ps] before (takeReg next) := by
  have inv : ∀ ops i, takeReg next ops = some i ↔
      ∃ a rest, ops = a :: rest ∧ ∃ x, regResolve a = some x ∧ next x rest = some i := by
    rintro (_ | ⟨a, rest⟩) i <;> simp [takeReg, Option.bind_eq_some_iff]
  refine ⟨fun ops => ⟨?_, ?_⟩, fun ops i hi => ?_, fun ops i hi hc hb => ?_⟩
  · rintro ⟨i, hi⟩
    obtain ⟨a, rest, rfl, x, ha, hx⟩ := (inv ops i).mp hi
    obtain ⟨qs, hqs, hrest⟩ := ((h x).fits rest).mp ⟨i, hx⟩
    rw [List.mem_singleton] at hqs
    exact ⟨_, List.mem_singleton_self _, .cons (by simp [PositionFits, ha]) (hqs ▸ hrest)⟩
  · rintro ⟨qs, hqs, hops⟩
    rw [List.mem_singleton] at hqs
    subst hqs
    obtain _ | ⟨ha, hrest⟩ := hops
    obtain ⟨x, hx⟩ := Option.ne_none_iff_exists'.mp (ha rfl)
    obtain ⟨i, hi⟩ := ((h x).fits _).mpr ⟨ps, List.mem_singleton_self _, hrest⟩
    exact ⟨i, (inv _ i).mpr ⟨_, _, rfl, x, hx, hi⟩⟩
  · obtain ⟨a, rest, rfl, x, -, hx⟩ := (inv ops i).mp hi
    exact (h x).kind rest i hx
  · obtain ⟨a, rest, rfl, x, ha, hx⟩ := (inv ops i).mp hi
    obtain ⟨hca, hcrest⟩ : tokenClosed a = true ∧ rest.all tokenClosed = true := by simpa using hc
    exact (h x).wf rest i hx hcrest ⟨hb, RegOp.wf_of_resolve hca ha⟩

theorem ReadsAs.val {next : ValOp → List Token → Option Instr}
    (h : ∀ v, ReadsAs k [ps] (before ∧ v.wf = true) (next v)) : ReadsAs k [false :: ps] before (takeVal next) := by
  have inv : ∀ ops i, takeVal next ops = some i ↔ ∃ v rest, ops = v :: rest ∧ next (valueOf v) rest = some i := by
    rintro (_ | ⟨v, rest⟩) i <;> simp [takeVal]
  refine ⟨fun ops => ⟨?_, ?_⟩, fun ops i hi => ?_, fun ops i hi hc hb => ?_⟩
  · rintro ⟨i, hi⟩
    obtain ⟨v, rest, rfl, hv⟩ := (inv ops i).mp hi
    obtain ⟨qs, hqs, hrest⟩ := ((h _).fits rest).mp ⟨i, hv⟩
    rw [List.mem_singleton] at hqs
    exact ⟨_, List.mem_singleton_self _, .cons nofun (hqs ▸ hrest)⟩
  · rintro ⟨qs, hqs, hops⟩
    rw [List.mem_singleton] at hqs
    subst hqs
    obtain _ | ⟨-, hrest⟩ := hops
    obtain ⟨i, hi⟩ := ((h _).fits _).mpr ⟨ps, List.mem_singleton_self _, hrest⟩
    exact ⟨i, (inv _ i).mpr ⟨_, _, rfl, hi⟩⟩
  · obtain ⟨v, rest, rfl, hv⟩ := (inv ops i).mp hi
    exact (h _).kind rest i hv
  · obtain ⟨v, rest, rfl, hv⟩ := (inv ops i).mp hi
    obtain ⟨hcv, hcrest⟩ : tokenClosed v = true ∧ rest.all tokenClosed = true := by simpa using hc
    exact (h _).wf rest i hv hcrest ⟨hb, ValOp.wf_valueOf hcv⟩

/-- Two forms of one format, tried one after the other. -/
theorem ReadsAs.or {read read' : List Token → Option Instr} (h : ReadsAs k [ps] before read)
    (h' : ReadsAs k [qs] before read') : ReadsAs k [ps, qs] before fun ops => (read ops).or (read' ops) := by
  refine ⟨fun ops => ?_, fun ops i hi => ?_, fun ops i hi hc hb => ?_⟩
  · have hf := h.fits ops
    have hf' := h'.fits ops
    simp only [List.mem_cons, List.not_mem_nil, or_false, exists_eq_or_imp, exists_eq_left] at hf hf' ⊢
    rw [← hf, ← hf']
    cases read ops <;> simp
  · obtain hr | ⟨-, hr⟩ := Option.or_eq_some_iff.mp hi
    · exact h.kind ops i hr
    · exact h'.kind ops i hr
  · obtain hr | ⟨-, hr⟩ := Option.or_eq_some_iff.mp hi
    · exact h.wf ops i hr hc hb
    · exact h'.wf ops i hr hc hb

/-! The model's readers take their positions one after another. -/

theorem readR_eq (mk : RegOp → Instr) : readR mk = takeReg fun x => readNone (mk x) := by
  funext ops
  rcases ops with _ | ⟨a, _ | ⟨b, ops⟩⟩ <;> simp [readR, takeReg, readNone, Option.map_eq_bind]

theorem readRR_eq (mk : RegOp → RegOp → Instr) :
    readRR mk = takeReg fun x => takeReg fun y => readNone (mk x y) := by
  funext ops
  rcases ops with _ | ⟨a, _ | ⟨b, _ | ⟨c, ops⟩⟩⟩ <;> simp [readRR, takeReg, readNone, Option.map_eq_bind]

theorem readR3_eq (mk : RegOp → RegOp → RegOp → Instr) :
    readR3 mk = takeReg fun x => takeReg fun y => takeReg fun z => readNone (mk x y z) := by
  funext ops
  rcases ops with _ | ⟨a, _ | ⟨b, _ | ⟨c, _ | ⟨d, ops⟩⟩⟩⟩ <;> simp [readR3, takeReg, readNone, Option.map_eq_bind]

theorem readV_eq (mk : ValOp → Instr) : readV mk = takeVal fun v => readNone (mk v) := by
  funext ops
  rcases ops with _ | ⟨v, _ | ⟨b, ops⟩⟩ <;> rfl

theorem readRV_eq (mk : RegOp → ValOp → Instr) :
    readRV mk = takeReg fun x => takeVal fun v => readNone (mk x v) := by
  funext ops
  rcases ops with _ | ⟨a, _ | ⟨v, _ | ⟨c, ops⟩⟩⟩ <;> simp [readRV, takeReg, takeVal, readNone, Option.map_eq_bind]

theorem readRRV_eq (mk : RegOp → RegOp → ValOp → Instr) :
    readRRV mk = takeReg fun x => takeReg fun y => takeVal fun v => readNone (mk x y v) := by
  funext ops
  rcases ops with _ | ⟨a, _ | ⟨b, _ | ⟨v, _ | ⟨d, ops⟩⟩⟩⟩ <;>
    simp [readRRV, takeReg, takeVal, readNone, Option.map_eq_bind]

theorem readMem_eq (mk : RegOp → Option ValOp → RegOp → Instr) :
    readMem mk = fun ops =>
      (takeReg (fun x => takeVal fun v => takeReg fun y => readNone (mk x (some v) y)) ops).or
        (takeReg (fun x => takeReg fun y => readNone (mk x none y)) ops) := by
  funext ops
  rcases ops with _ | ⟨a, _ | ⟨b, _ | ⟨c, _ | ⟨d, ops⟩⟩⟩⟩ <;>
    simp [readMem, takeReg, takeVal, readNone, Option.map_eq_bind]

end

/-! Every opcode reads its format. -/

section
variable {k : Kind}

theorem readsAs_readR {mk : RegOp → Instr} (hk : ∀ x, (mk x).kind = k) (hw : ∀ x, (mk x).wf = x.wf) :
    ReadsAs k [[true]] True (readR mk) := by
  rw [readR_eq]
  exact .reg fun x => .none (hk x) fun ⟨_, hx⟩ => (hw x).trans hx

theorem readsAs_readRR {mk : RegOp → RegOp → Instr} (hk : ∀ x y, (mk x y).kind = k)
    (hw : ∀ x y, (mk x y).wf = (x.wf && y.wf)) : ReadsAs k [[true, true]] True (readRR mk) := by
  rw [readRR_eq]
  exact .reg fun x => .reg fun y => .none (hk x y) fun ⟨⟨_, hx⟩, hy⟩ => by simp [hw, hx, hy]

theorem readsAs_readR3 {mk : RegOp → RegOp → RegOp → Instr} (hk : ∀ x y z, (mk x y z).kind = k)
    (hw : ∀ x y z, (mk x y z).wf = (x.wf && y.wf && z.wf)) : ReadsAs k [[true, true, true]] True (readR3 mk) := by
  rw [readR3_eq]
  exact .reg fun x => .reg fun y => .reg fun z => .none (hk x y z) fun ⟨⟨⟨_, hx⟩, hy⟩, hz⟩ => by simp [hw, hx, hy, hz]

theorem readsAs_readV {mk : ValOp → Instr} (hk : ∀ v, (mk v).kind = k) (hw : ∀ v, (mk v).wf = v.wf) :
    ReadsAs k [[false]] True (readV mk) := by
  rw [readV_eq]
  exact .val fun v => .none (hk v) fun ⟨_, hv⟩ => (hw v).trans hv

theorem readsAs_readRV {mk : RegOp → ValOp → Instr} (hk : ∀ x v, (mk x v).kind = k)
    (hw : ∀ x v, (mk x v).wf = (x.wf && v.wf)) : ReadsAs k [[true, false]] True (readRV mk) := by
  rw [readRV_eq]
  exact .reg fun x => .val fun v => .none (hk x v) fun ⟨⟨_, hx⟩, hv⟩ => by simp [hw, hx, hv]

theorem readsAs_readRRV {mk : RegOp → RegOp → ValOp → Instr} (hk : ∀ x y v, (mk x y v).kind = k)
    (hw : ∀ x y v, (mk x y v).wf = (x.wf && y.wf && v.wf)) : ReadsAs k [[true, true, false]] True (readRRV mk) := by
  rw [readRRV_eq]
  exact .reg fun x => .reg fun y => .val fun v => .none (hk x y v) fun ⟨⟨⟨_, hx⟩, hy⟩, hv⟩ => by simp [hw, hx, hy, hv]

theorem readsAs_readMem {mk : RegOp → Option ValOp → RegOp → Instr} (hk : ∀ x v y, (mk x v y).kind = k)
    (hw : ∀ x v y, (mk x v y).wf = (x.wf && v.all ValOp.wf && y.wf)) :
    ReadsAs k [[true, false, true], [true, true]] True (readMem mk) := by
  rw [readMem_eq]
  refine .or (.reg fun x => .val fun v => .reg fun y => .none (hk x _ y) ?_)
    (.reg fun x => .reg fun y => .none (hk x _ y) ?_)
  · rintro ⟨⟨⟨-, hx⟩, hv⟩, hy⟩
    simp [hw, hx, hv, hy]
  · rintro ⟨⟨-, hx⟩, hy⟩
    simp [hw, hx, hy]

end

/-- Every opcode reads the operand lists of its format (30_encoding.md R85). -/
theorem Kind.readsAs (k : Kind) : ReadsAs k k.format.positions True k.read := by
  cases k with
  | add | addu | sub | subu | and | or | xor | nor | slt | sltu =>
    exact readsAs_readR3 (fun _ _ _ => rfl) fun _ _ _ => rfl
  | addi | addiu | andi | ori | xori | slti | sltiu | sll | srl | sra | beq | bne | blt | ble | bgt | bge =>
    exact readsAs_readRRV (fun _ _ _ => rfl) fun _ _ _ => rfl
  | lui | bltz | blez | bgtz | bgez | li | la => exact readsAs_readRV (fun _ _ => rfl) fun _ _ => rfl
  | mult | multu | div | divu | move | not => exact readsAs_readRR (fun _ _ => rfl) fun _ _ => rfl
  | mfhi | mflo | jr | clear => exact readsAs_readR (fun _ => rfl) fun _ => rfl
  | lw | lh | lhu | lb | lbu | sw | sh | sb => exact readsAs_readMem (fun _ _ _ => rfl) fun _ _ _ => rfl
  | j | jal => exact readsAs_readV (fun _ => rfl) fun _ => rfl
  | syscall | nop => exact .none rfl fun _ => rfl

/-! The decoder. -/

/-- The decoder answers an instruction exactly where dispatch finds an opcode that reads the closed operand tokens
(30_encoding.md R83, R92). -/
theorem decode_eq_instr {tierC : Bool} {toks : List Token} {i : Instr} :
    decode tierC toks = .instr i ↔
      ∃ t0 ops k, toks = t0 :: ops ∧ lookupKind tierC t0 = some k ∧ ops.all tokenClosed = true ∧
        k.read ops = some i := by
  constructor
  · intro h
    unfold decode at h
    split at h
    · cases h
    rename_i t0 ops
    split at h
    · cases h
    rename_i k hk
    split at h
    · rename_i hc
      split at h
      · cases h
        exact ⟨t0, ops, k, rfl, hk, hc, ‹_›⟩
      · cases h
    · cases h
  · rintro ⟨t0, ops, k, rfl, hk, hc, hr⟩
    simp only [decode, hk, hc, hr, if_true]

/-- Settles O14: what an opcode reads from closed tokens is well-formed. -/
theorem decodeYieldsWellFormedInstructions : Obligations.DecodeYieldsWellFormedInstructions := by
  intro tierC toks i h
  obtain ⟨t0, ops, k, -, -, hc, hr⟩ := decode_eq_instr.mp h
  exact k.readsAs.wf ops i hr hc trivial

theorem tokenClosed_iff {tok : Token} : tokenClosed tok = true ↔ '(' ∉ tok := by simp [tokenClosed]

/-- The operand list fits exactly where its tokens are closed and its opcode reads them (30_encoding.md R92). -/
theorem fits_iff {k : Kind} {ops : List Token} :
    k.format.fits ops ↔ ops.all tokenClosed = true ∧ ∃ i, k.read ops = some i := by
  rw [Format.fits, List.all_eq_true, k.readsAs.fits]
  simp only [tokenClosed_iff]
  rfl

/-- In the vocabulary, what is no instruction is ill-formed (30_encoding.md R92, R93). -/
theorem decode_of_kind {tierC : Bool} {t0 : Token} {k : Kind} (hk : lookupKind tierC t0 = some k) (ops : List Token) :
    decode tierC (t0 :: ops) = .illFormed ∨ ∃ i, decode tierC (t0 :: ops) = .instr i := by
  simp only [decode, hk]
  split
  · split
    · exact .inr ⟨_, rfl⟩
    · exact .inl rfl
  · exact .inl rfl

/-- Settles O6: an operand list fits exactly where its opcode reads it. -/
theorem illFormedExactlyWhenOperandsDoNotFit : Obligations.IllFormedExactlyWhenOperandsDoNotFit := by
  intro k ops
  have hk := lookupKind_spelling k
  constructor
  · intro hfit
    refine (decode_of_kind hk ops).resolve_right ?_
    rintro ⟨i, hi⟩
    obtain ⟨t0, ops', k', hcons, hk', hc, hr⟩ := decode_eq_instr.mp hi
    obtain ⟨rfl, rfl⟩ := List.cons.inj hcons
    obtain rfl := Option.some.inj (hk.symm.trans hk')
    exact hfit (fits_iff.mpr ⟨hc, i, hr⟩)
  · intro hfit
    obtain ⟨hc, i, hr⟩ := fits_iff.mp hfit
    exact ⟨i, decode_eq_instr.mpr ⟨_, ops, k, rfl, hk, hc, hr⟩, k.readsAs.kind ops i hr⟩

/-! Tier C (30_encoding.md R84). -/

/-- An admitted opcode is found under its spelling. -/
theorem lookupKind_of_admitted {tierC : Bool} {k : Kind} (h : tierC = true ∨ k.tier = .N) :
    lookupKind tierC k.spelling = some k := by
  have hmem : k ∈ vocabulary := List.mem_of_find?_eq_some (lookupKind_spelling k)
  cases hl : lookupKind tierC k.spelling with
  | none => exact absurd h (by simpa using List.find?_eq_none.mp hl k hmem)
  | some k' => rw [Kind.spelling_inj (lookupKind_some hl).1]

/-- A mnemonic that no admitted opcode has is outside the vocabulary. -/
theorem lookupKind_eq_none {tierC : Bool} {t0 : Token} (h : ∀ k : Kind, k.spelling = t0 → k.tier = .C ∧ tierC = false) :
    lookupKind tierC t0 = none := by
  refine Option.eq_none_iff_forall_ne_some.mpr fun k hk => ?_
  obtain ⟨hspell, htier⟩ := lookupKind_some hk
  obtain ⟨hC, hfalse⟩ := h k hspell
  simp [hC, hfalse] at htier

/-- Outside the vocabulary every operand list is an unknown opcode (30_encoding.md R93). -/
theorem decode_of_lookupKind_none {tierC : Bool} {t0 : Token} (h : lookupKind tierC t0 = none) (ops : List Token) :
    decode tierC (t0 :: ops) = .unknown t0 := by
  simp only [decode, h]

/-- Settles O16: by whether dispatch finds the opcode when only Tier N is admitted. -/
theorem tierCIsUnknownWhenNotAdmitted : Obligations.TierCIsUnknownWhenNotAdmitted := by
  intro k ops
  constructor
  · intro hC
    refine decode_of_lookupKind_none (lookupKind_eq_none fun k' h => ?_) ops
    rw [Kind.spelling_inj h]
    exact ⟨hC, rfl⟩
  · intro hN
    simp only [decode, lookupKind_of_admitted (.inr hN)]

end Sys2Proof
end

section
/-! PROOFS. What the encoder writes, read back (30_encoding.md R83 to R90; 10_state.md R24). -/

namespace Sys2Proof

open Sys2Proof.Machine

/-! One register position. -/

/-- No register's name holds a `(` (10_state.md R23). -/
theorem tokenClosed_regName : ∀ i : Fin 32, tokenClosed ('$' :: regName i) = true := by decide

theorem tokenClosed_regToken {d : RegOp} (h : d.wf = true) : tokenClosed (regToken d) = true := by
  cases d with
  | valid i => exact tokenClosed_regName i
  | invalid tok => exact (Bool.and_eq_true_iff.mp h).1

theorem regResolve_regToken {d : RegOp} (h : d.wf = true) : regResolve (regToken d) = some d := by
  cases d with
  | valid i => exact regResolve_name i
  | invalid tok => exact eq_of_beq (Bool.and_eq_true_iff.mp h).2

/-! One value position. -/

/-- The decimal numeral of an integer reads as the integer (30_encoding.md R87). -/
theorem decimal?_decNumeral (n : Int) : decimal? (decNumeral n) = some n := by
  have hnum := numeral_natNumeral (.inl rfl : 10 = 10 ∨ 10 = 16) n.natAbs
  unfold decNumeral
  split
  · simp only [decimal?, hnum, Option.map_some]
    congr 1
    omega
  · unfold decimal?
    split
    · rename_i cs heq
      have hmem : '-' ∈ natNumeral 10 n.natAbs := by simp [heq]
      exact absurd rfl (natNumeral_chars (.inl rfl) hmem).1
    · simp only [hnum, Option.map_some]
      congr 1
      omega

/-- The hexadecimal token of a natural number is no decimal string and reads as the number (30_encoding.md R87). -/
theorem hex?_natNumeral (n : Nat) :
    decimal? ('0' :: 'x' :: natNumeral 16 n) = none ∧ hex? ('0' :: 'x' :: natNumeral 16 n) = some (n : Int) := by
  have hhex : hex? ('0' :: 'x' :: natNumeral 16 n) = some (n : Int) := by
    simp only [hex?, numeral_natNumeral (.inr rfl : 16 = 10 ∨ 16 = 16), Option.map_some]
  obtain ⟨m, -, hm⟩ := hex?_iff.mp hhex
  exact ⟨decimal?_of_isHexToken hm, hhex⟩

theorem not_mem_decNumeral (n : Int) : '(' ∉ decNumeral n := by
  have hdigits : '(' ∉ natNumeral 10 n.natAbs := fun h => (natNumeral_chars (.inl rfl) h).2.2 rfl
  unfold decNumeral
  split
  · simpa using hdigits
  · exact hdigits

theorem not_mem_hexNumeral (n : Nat) : '(' ∉ '0' :: 'x' :: natNumeral 16 n := by
  have hdigits : '(' ∉ natNumeral 16 n := fun h => (natNumeral_chars (.inr rfl) h).2.2 rfl
  simpa using hdigits

theorem tokenClosed_valueToken {v : ValOp} (h : v.wf = true) : tokenClosed (valueToken v) = true := by
  cases v with
  | num n =>
    rw [tokenClosed_iff, valueToken]
    split
    · exact not_mem_decNumeral n
    · exact not_mem_hexNumeral n.toNat
  | wide tok => exact (Bool.and_eq_true_iff.mp h).1
  | sym name => exact (Bool.and_eq_true_iff.mp h).1

theorem valueOf_valueToken {v : ValOp} (h : v.wf = true) : valueOf (valueToken v) = v := by
  cases v with
  | num n =>
    rw [ValOp.wf, ← Bool.decide_and, decide_eq_true_eq] at h
    rw [valueToken]
    split
    · rw [valueOf_of_decimal (decimal?_decNumeral n), if_pos (by omega)]
    · obtain ⟨hdec, hhex⟩ := hex?_natNumeral n.toNat
      rw [valueOf_of_hex hdec hhex, if_pos (by omega), Int.toNat_of_nonneg (by omega)]
  | wide tok => exact eq_of_beq (Bool.and_eq_true_iff.mp h).2
  | sym name => exact eq_of_beq (Bool.and_eq_true_iff.mp h).2

/-! Operand lists. -/

/-- The operand tokens `ops` are closed, and `read` reads `i` from them. -/
def ReadsBack (read : List Token → Option Instr) (ops : List Token) (i : Instr) : Prop :=
  ops.all tokenClosed = true ∧ read ops = some i

section
variable {x y z : RegOp} {v : ValOp}

theorem readsBack_readR (mk : RegOp → Instr) (h : x.wf = true) : ReadsBack (readR mk) [regToken x] (mk x) := by
  simp [ReadsBack, readR, tokenClosed_regToken, regResolve_regToken, h]

theorem readsBack_readRR (mk : RegOp → RegOp → Instr) (h : (x.wf && y.wf) = true) :
    ReadsBack (readRR mk) [regToken x, regToken y] (mk x y) := by
  rw [Bool.and_eq_true_iff] at h
  simp [ReadsBack, readRR, tokenClosed_regToken, regResolve_regToken, h]

theorem readsBack_readR3 (mk : RegOp → RegOp → RegOp → Instr) (h : (x.wf && y.wf && z.wf) = true) :
    ReadsBack (readR3 mk) [regToken x, regToken y, regToken z] (mk x y z) := by
  rw [Bool.and_eq_true_iff, Bool.and_eq_true_iff] at h
  simp [ReadsBack, readR3, tokenClosed_regToken, regResolve_regToken, h]

theorem readsBack_readV (mk : ValOp → Instr) (h : v.wf = true) : ReadsBack (readV mk) [valueToken v] (mk v) := by
  simp [ReadsBack, readV, tokenClosed_valueToken, valueOf_valueToken, h]

theorem readsBack_readRV (mk : RegOp → ValOp → Instr) (h : (x.wf && v.wf) = true) :
    ReadsBack (readRV mk) [regToken x, valueToken v] (mk x v) := by
  rw [Bool.and_eq_true_iff] at h
  simp [ReadsBack, readRV, tokenClosed_regToken, regResolve_regToken, tokenClosed_valueToken, valueOf_valueToken, h]

theorem readsBack_readRRV (mk : RegOp → RegOp → ValOp → Instr) (h : (x.wf && y.wf && v.wf) = true) :
    ReadsBack (readRRV mk) [regToken x, regToken y, valueToken v] (mk x y v) := by
  rw [Bool.and_eq_true_iff, Bool.and_eq_true_iff] at h
  simp [ReadsBack, readRRV, tokenClosed_regToken, regResolve_regToken, tokenClosed_valueToken, valueOf_valueToken, h]

theorem readsBack_readMem (mk : RegOp → Option ValOp → RegOp → Instr) {off : Option ValOp}
    (h : (x.wf && off.all ValOp.wf && y.wf) = true) :
    ReadsBack (readMem mk) ([regToken x] ++ off.toList.map valueToken ++ [regToken y]) (mk x off y) := by
  rw [Bool.and_eq_true_iff, Bool.and_eq_true_iff] at h
  obtain ⟨⟨hx, hoff⟩, hy⟩ := h
  cases off with
  | none => simp [ReadsBack, readMem, tokenClosed_regToken, regResolve_regToken, hx, hy]
  | some v =>
    have hv : v.wf = true := hoff
    simp [ReadsBack, readMem, tokenClosed_regToken, regResolve_regToken, tokenClosed_valueToken, valueOf_valueToken,
      hx, hv, hy]

end

/-- Every well-formed instruction is read back from its own operand tokens (30_encoding.md R85). -/
theorem Instr.readsBack {i : Instr} (h : i.wf = true) : ReadsBack i.kind.read i.operands i := by
  cases i with
  | add _ _ _ | addu _ _ _ | sub _ _ _ | subu _ _ _ | and _ _ _ | or _ _ _ | xor _ _ _ | nor _ _ _ | slt _ _ _
  | sltu _ _ _ => exact readsBack_readR3 _ h
  | addi _ _ _ | addiu _ _ _ | andi _ _ _ | ori _ _ _ | xori _ _ _ | slti _ _ _ | sltiu _ _ _ | sll _ _ _ | srl _ _ _
  | sra _ _ _ | beq _ _ _ | bne _ _ _ | blt _ _ _ | ble _ _ _ | bgt _ _ _ | bge _ _ _ => exact readsBack_readRRV _ h
  | lui _ _ | bltz _ _ | blez _ _ | bgtz _ _ | bgez _ _ | li _ _ | la _ _ => exact readsBack_readRV _ h
  | mult _ _ | multu _ _ | div _ _ | divu _ _ | move _ _ | not _ _ => exact readsBack_readRR _ h
  | mfhi _ | mflo _ | jr _ | clear _ => exact readsBack_readR _ h
  | lw _ _ _ | lh _ _ _ | lhu _ _ _ | lb _ _ _ | lbu _ _ _ | sw _ _ _ | sh _ _ _ | sb _ _ _ =>
    exact readsBack_readMem _ h
  | j _ | jal _ => exact readsBack_readV _ h
  | syscall | nop => exact ⟨rfl, rfl⟩

/-- Settles O13: dispatch finds the opcode under its spelling, and the opcode reads back its operand tokens. -/
theorem decodeOfEncodeIsTheInstruction : Obligations.DecodeOfEncodeIsTheInstruction := by
  intro i h
  obtain ⟨hc, hr⟩ := i.readsBack h
  exact decode_eq_instr.mpr ⟨i.kind.spelling, i.operands, i.kind, rfl, lookupKind_spelling i.kind, hc, hr⟩

/-- Settles O15: each line is tokenized and decoded by computation. -/
theorem writtenOutSlotsDecode : Obligations.WrittenOutSlotsDecode := by
  unfold Obligations.WrittenOutSlotsDecode
  decide

end Sys2Proof
end

section
/-! PROOFS. Immediates, their fields and the effective address (30_encoding.md R89, R91; 43_loadstore.md R180). -/

namespace Sys2Proof.Machine

/-! Resolution (30_encoding.md R89). -/

/-- Settles O19: the four branches of R89. -/
theorem immediatesResolve : Obligations.ImmediatesResolve := by
  intro s
  refine ⟨fun n => rfl, fun name a h => ?hit, fun name h => ?miss, fun tok => rfl⟩
  case hit => simp only [State.resolveImm, h]
  case miss => simp only [State.resolveImm, h]

/-! Fields (30_encoding.md R91). -/

theorem fieldValue_inRange {wide : ImmWide} {f : ImmField} {n : Int} (h : f.inRange n = true) :
    fieldValue wide f n = .ok (u32 n) := by
  simp [fieldValue, h]

theorem inRange_signed16 {n : Int} : ImmField.signed16.inRange n = true ↔ -32768 ≤ n ∧ n ≤ 32767 := by
  simp [ImmField.inRange]

theorem inRange_logical16 {n : Int} : ImmField.logical16.inRange n = true ↔ 0 ≤ n ∧ n ≤ 65535 := by
  simp [ImmField.inRange]

theorem inRange_shamt {n : Int} : ImmField.shamt.inRange n = true ↔ 0 ≤ n ∧ n ≤ 31 := by
  simp [ImmField.inRange]

/-- The operand value of a natural number below 2^32 is the number itself. -/
theorem toNat_u32 {n : Int} (hlo : 0 ≤ n) (hhi : n < 2 ^ 32) : ((u32 n).toNat : Int) = n := by
  rw [u32, BitVec.toNat_ofInt]
  omega

/-- A number in its field's range stands for itself. -/
theorem ImmField.stands_of_inRange {f : ImmField} {n : Int} (h : f.inRange n = true) : f.stands n := by
  cases f with
  | signed16 => rw [inRange_signed16] at h; exact s32_u32 (by omega) (by omega)
  | logical16 => rw [inRange_logical16] at h; exact ⟨by omega, by omega⟩
  | shamt => rw [inRange_shamt] at h; exact ⟨by omega, by omega⟩

/-- Truncation leaves a number in its field's range as it is. -/
theorem wideOperand_truncate16_of_inRange {f : ImmField} {n : Int} (h : f.inRange n = true) :
    wideOperand .truncate16 f n = some n := by
  cases f with
  | signed16 => rw [inRange_signed16] at h; exact congrArg some (by omega)
  | logical16 => rw [inRange_logical16] at h; exact congrArg some (by omega)
  | shamt => rw [inRange_shamt] at h; exact congrArg some (by omega)

/-- Under `truncate16` every number, in range or not, has the operand value of its truncation. -/
theorem fieldValue_truncate16 {f : ImmField} {n m : Int} (h : wideOperand .truncate16 f n = some m) :
    fieldValue .truncate16 f n = .ok (u32 m) ∧ f.stands m := by
  cases hr : f.inRange n with
  | true =>
    obtain rfl : n = m := Option.some.inj ((wideOperand_truncate16_of_inRange hr).symm.trans h)
    exact ⟨fieldValue_inRange hr, ImmField.stands_of_inRange hr⟩
  | false => exact fieldValue_of_wideOperand hr h

/-- Under `full32` a 16-bit field takes the whole pattern of a number outside it. -/
theorem fieldValue_full32 {f : ImmField} {n : Int} (hr : f.inRange n = false) (hf : f ≠ .shamt) :
    fieldValue .full32 f n = .ok (u32 n) := by
  cases f with
  | signed16 => simp [fieldValue, hr]
  | logical16 => simp [fieldValue, hr]
  | shamt => exact absurd rfl hf

/-- An instruction that runs `immediate f` writes `result m`, where that is what `f` makes of its source and every `m`
that stands for an immediate of the field. -/
theorem wideImmediate_of_immediate {i : Instr} {field : ImmField} {rt rs : RegOp} {imm : ValOp} {s : State}
    {result : Int → Word} (f : Word → Word → Word) (he : exec i s = immediate field f rt rs imm s)
    (hf : ∀ m, field.stands m → f (s.readReg rs) (u32 m) = result m) :
    WideImmediate field imm i s fun m t => WritesReg rt (result m) [rs] s t := by
  refine wideImmediate_of he fun m hm => ⟨_, rfl, ?_⟩
  rw [hf m hm]
  exact writesReg_of rt (result m) (s.noteReg_eq rs)

/-- An instruction that runs `shift f` writes `result m`, where that is what `f` makes of its source and the amount. -/
theorem wideImmediate_of_shift {i : Instr} {rd rt : RegOp} {shamt : ValOp} {s : State} {result : Int → Word}
    (f : Word → Nat → Word) (he : exec i s = shift f rd rt shamt s)
    (hf : ∀ m : Int, f (s.readReg rt) m.toNat = result m) :
    WideImmediate .shamt shamt i s fun m t => WritesReg rd (result m) [rt] s t := by
  refine wideImmediate_of he fun m ⟨hlo, hhi⟩ => ⟨_, rfl, ?_⟩
  rw [toNat_u32_of_shamt hlo (by omega), hf m]
  exact writesReg_of rd (result m) (s.noteReg_eq rt)

/-- Settles O20: in range a number is its own operand value, outside it stands for what `wideOperand` says; every
instruction runs `immediate` or `shift` (`lui` reads no register) on the integer that stands for its operand. -/
theorem immediateFieldsFollowImmWide : Obligations.ImmediateFieldsFollowImmWide := by
  refine ⟨fun n wide => ⟨fun hlo hhi => ⟨fieldValue_inRange (inRange_signed16.mpr ⟨hlo, hhi⟩), ?signed⟩,
    fun hlo hhi => ⟨fieldValue_inRange (inRange_logical16.mpr ⟨hlo, hhi⟩), toNat_u32 hlo (by omega)⟩,
    fun hlo hhi => ⟨fieldValue_inRange (inRange_shamt.mpr ⟨hlo, hhi⟩), toNat_u32 hlo (by omega)⟩,
    fun h => ?signedOut, fun h => ?logicalOut, fun h => ?shamtOut, ?signedLow, ?logicalLow, ?shamtLow⟩,
    fun rt rs imm s => ⟨wideImmediate_of_immediate (· + ·) rfl ?addi, wideImmediate_of_immediate (· + ·) rfl ?addiu,
    wideImmediate_of_immediate (fun a v => truthWord (signedLess a v)) rfl ?slti,
    wideImmediate_of_immediate (fun a v => truthWord (unsignedLess a v)) rfl ?sltiu,
    wideImmediate_of_immediate (· &&& ·) rfl ?andi, wideImmediate_of_immediate (· ||| ·) rfl ?ori,
    wideImmediate_of_immediate (· ^^^ ·) rfl ?xori, wideImmediate_of rfl ?lui,
    wideImmediate_of_shift (· <<< ·) rfl ?sll, wideImmediate_of_shift (· >>> ·) rfl ?srl,
    wideImmediate_of_shift (fun a n => a.sshiftRight n) rfl ?sra⟩⟩
  case signed => exact s32_u32 (by omega) (by omega)
  case signedOut =>
    rw [← inRange_signed16, Bool.not_eq_true] at h
    exact ⟨fieldValue_of_no_wideOperand h rfl, fieldValue_full32 h nofun⟩
  case logicalOut =>
    rw [← inRange_logical16, Bool.not_eq_true] at h
    exact ⟨fieldValue_of_no_wideOperand h rfl, fieldValue_full32 h nofun⟩
  case shamtOut =>
    rw [← inRange_shamt, Bool.not_eq_true] at h
    exact ⟨fieldValue_of_no_wideOperand h rfl, fieldValue_of_no_wideOperand h rfl⟩
  case signedLow => exact ⟨_, fieldValue_truncate16 rfl⟩
  case logicalLow =>
    obtain ⟨hv, hlo, hhi⟩ := fieldValue_truncate16 (f := .logical16) (n := n) rfl
    exact ⟨_, hv, toNat_u32 hlo hhi⟩
  case shamtLow =>
    obtain ⟨hv, hlo, hhi⟩ := fieldValue_truncate16 (f := .shamt) (n := n) rfl
    exact ⟨_, hv, toNat_u32 hlo (by omega)⟩
  case addi => exact fun m _ => add_u32 _ m
  case addiu => exact fun m _ => add_u32 _ m
  case slti =>
    intro m hm
    rw [truthWord_signedLess, show s32 (u32 m) = m from hm]
  case sltiu => exact fun m _ => truthWord_unsignedLess _ (u32 m)
  case andi => exact fun m hm => congrArg (s.readReg rs &&& ·) (u32_of_nonneg hm.1)
  case ori => exact fun m hm => congrArg (s.readReg rs ||| ·) (u32_of_nonneg hm.1)
  case xori => exact fun m hm => congrArg (s.readReg rs ^^^ ·) (u32_of_nonneg hm.1)
  case lui =>
    intro m _
    refine ⟨_, rfl, ?_⟩
    rw [u32_shiftLeft_16]
    exact writesReg_of rt _ s.no_reads
  case sll => exact fun m => shiftLeft_eq_u32_mul _ m.toNat
  case srl => exact fun m => ushiftRight_eq_ofNat_div _ m.toNat
  case sra => exact fun m => sshiftRight_eq_u32_fdiv _ m.toNat

/-! The effective address (43_loadstore.md R180). -/

/-- The address is the base plus the offset's operand value. -/
theorem State.effAddr_of_immValue {s : State} {off : ValOp} {m : Int} (h : s.immValue .signed16 off = .ok (u32 m))
    (base : RegOp) : s.effAddr (some off) base = .ok (u32 ((s.readReg base).toNat + m)) := by
  simp only [State.effAddr, h, add_u32]

/-- Settles O37: the offset's operand value by R91's cases, added to the base. -/
theorem effectiveAddressIsBasePlusOffset : Obligations.EffectiveAddressIsBasePlusOffset := by
  intro s base off
  refine ⟨rfl, fun n hn hlo hhi => ?inRange, fun n hn hout hw => ?refused, fun n m hn hout hm => ?wide,
    fun tok htok => ?fault⟩
  case inRange => exact State.effAddr_of_immValue (State.immValue_inRange hn (inRange_signed16.mpr ⟨hlo, hhi⟩)) base
  case refused =>
    rw [← inRange_signed16, Bool.not_eq_true] at hout
    simp only [State.effAddr, State.immValue_outOfRange hn hout hw]
  case wide =>
    rw [← inRange_signed16, Bool.not_eq_true] at hout
    refine State.effAddr_of_immValue ?_ base
    simp only [State.immValue, hn, (fieldValue_of_wideOperand hout hm).1]
  case fault => simp only [State.effAddr, State.immValue_fault htok]

end Sys2Proof.Machine
end

section
/-! PROOFS. A word store read back by its parts (20_memory.md R58). -/

namespace Sys2Proof.Machine

/-- Settles O23: the four bytes by R55's write, and the wider reads as their concatenations. -/
theorem storedWordReadsBackByParts : Obligations.StoredWordReadsBackByParts := by
  intro s a v h
  obtain ⟨hbytes, -⟩ := State.readByte_writeBytes_littleEndianBytes h a (n := 4) (by decide) v
  rw [← State.writeWord_eq_writeBytes] at hbytes
  have h0 : (s.writeWord a v).readByte a = v.extractLsb' 0 8 := by simpa using hbytes 0 (by decide)
  have h1 : (s.writeWord a v).readByte (a + 1#32) = v.extractLsb' 8 8 := hbytes 1 (by decide)
  have h2 : (s.writeWord a v).readByte (a + 2#32) = v.extractLsb' 16 8 := hbytes 2 (by decide)
  have h3 : (s.writeWord a v).readByte (a + 3#32) = v.extractLsb' 24 8 := hbytes 3 (by decide)
  have low : (s.writeWord a v).readHalf a = v.extractLsb' 0 16 := by
    rw [State.readHalf, h0, h1]
    exact BitVec.extractLsb'_append_extractLsb'_eq_extractLsb' rfl
  have high : (s.writeWord a v).readHalf (a + 2#32) = v.extractLsb' 16 16 := by
    have hadd : a + 2#32 + 1#32 = a + 3#32 := BitVec.add_assoc a 2#32 1#32
    rw [State.readHalf, hadd, h2, h3]
    exact BitVec.extractLsb'_append_extractLsb'_eq_extractLsb' rfl
  refine ⟨h0, h1, h2, h3, low, high, ?word⟩
  case word =>
    have lower : v.extractLsb' 16 8 ++ v.extractLsb' 0 16 = v.extractLsb' 0 24 :=
      BitVec.extractLsb'_append_extractLsb'_eq_extractLsb' rfl
    have whole : v.extractLsb' 24 8 ++ v.extractLsb' 0 24 = v.extractLsb' 0 32 :=
      BitVec.extractLsb'_append_extractLsb'_eq_extractLsb' rfl
    rw [State.readWord, low, h2, h3, lower, whole]
    exact BitVec.extractLsb'_eq_self

end Sys2Proof.Machine
end

section
/-! PROOFS. Signed divide (41_muldiv.md R163). -/

namespace Sys2Proof.Machine

/-- `div` with a zero divisor only logs its reads and goes on. -/
theorem execDiv_zero {rs rt : RegOp} {s : State} (h : s32 (s.readReg rt) = 0) :
    execDiv rs rt s = .next ((s.noteReg rs).noteReg rt).advance := if_pos h

/-- `div` on its one overflow ends as `DIV_OVERFLOW` says. -/
theorem execDiv_overflow {rs rt : RegOp} {s : State} (hs : s32 (s.readReg rs) = -(2 ^ 31))
    (ht : s32 (s.readReg rt) = -1) : execDiv rs rt s = divideOverflow ((s.noteReg rs).noteReg rt) := by
  simp [execDiv, hs, ht]

/-- `div` on every other pair of operands puts the remainder in HI and the quotient in LO. -/
theorem execDiv_nonzero {rs rt : RegOp} {s : State} (h : s32 (s.readReg rt) ≠ 0)
    (hov : ¬(s32 (s.readReg rs) = -(2 ^ 31) ∧ s32 (s.readReg rt) = -1)) :
    execDiv rs rt s = .next ((((s.noteReg rs).noteReg rt).setHiLo
      (u32 ((s32 (s.readReg rs)).tmod (s32 (s.readReg rt))))
      (u32 ((s32 (s.readReg rs)).tdiv (s32 (s.readReg rt))))).advance) := by
  simp only [execDiv, if_neg h, if_neg hov, Int.tmod_def, Int.mul_comm (s32 (s.readReg rt))]

/-- The word of a word's own signed reading is the word (00_scope.md R10). -/
theorem u32_s32 (v : Word) : u32 (s32 v) = v := BitVec.ofInt_toInt

/-- The truncated quotient of two words is a word, but for the one overflow. -/
theorem s32_u32_tdiv {a b : Word} (hov : ¬(s32 a = -(2 ^ 31) ∧ s32 b = -1)) :
    s32 (u32 ((s32 a).tdiv (s32 b))) = (s32 a).tdiv (s32 b) := by
  have hne : a ≠ BitVec.intMin 32 ∨ b ≠ -1#32 := by
    by_contra! hc
    exact hov (by rw [hc.1, hc.2]; decide)
  have hq : (a.sdiv b).toInt = (s32 a).tdiv (s32 b) := BitVec.toInt_sdiv_of_ne_or_ne a b hne
  rw [← hq, u32_s32]

/-- The remainder of two words under truncated division is a word. -/
theorem s32_u32_tmod (a b : Word) : s32 (u32 ((s32 a).tmod (s32 b))) = (s32 a).tmod (s32 b) := by
  have hr : (a.srem b).toInt = (s32 a).tmod (s32 b) := BitVec.toInt_srem a b
  rw [← hr, u32_s32]

/-- The remainder of truncated division is smaller than the divisor. -/
theorem natAbs_tmod_lt (a : Int) {b : Int} (h : b ≠ 0) : (a.tmod b).natAbs < b.natAbs := by
  rw [Int.natAbs_tmod]
  exact Nat.mod_lt _ (Int.natAbs_pos.mpr h)

/-- The remainder of truncated division is 0 or has the dividend's sign. -/
theorem tmod_sign (a b : Int) : a.tmod b = 0 ∨ (a.tmod b < 0 ↔ a < 0) := by
  by_cases h : b ∣ a
  · exact .inl (Int.dvd_iff_tmod_eq_zero.mp h)
  · have hsign := Int.sign_tmod a b
    rw [if_neg h] at hsign
    exact .inr (by rw [← Int.sign_eq_neg_one_iff_neg, hsign, Int.sign_eq_neg_one_iff_neg])

/-- Settles O33: by the three branches of R163; away from the overflow neither the quotient nor the remainder of
truncated division loses bits as a word. -/
theorem signedDivideTruncates : Obligations.SignedDivideTruncates := by
  intro rs rt s
  refine ⟨fun hzero => ?zero, fun hs ht hcfg => ?overflow, fun hne hov => ?quotient⟩
  case zero => exact ⟨_, execDiv_zero hzero, keepsHiLo_of s rs rt⟩
  case overflow =>
    have hcfg : ((s.noteReg rs).noteReg rt).cfg.divOverflow = .fault := by simpa using hcfg
    refine (execDiv_overflow hs ht).trans ?_
    simp only [divideOverflow, hcfg]
  case quotient =>
    refine ⟨_, execDiv_nonzero hne hov, writesHiLo_of s _ _ rs rt, ?_⟩
    simp only [State.advance_hi, State.advance_lo, State.setHiLo_hi, State.setHiLo_lo, s32_u32_tdiv hov, s32_u32_tmod]
    exact ⟨(Int.tdiv_mul_add_tmod _ _).symm, natAbs_tmod_lt _ hne, tmod_sign _ _⟩

end Sys2Proof.Machine
end

section
/-! PROOFS. Conditional branches and invalid designators in control transfers (44_branch.md, 45_jump.md R226). -/

namespace Sys2Proof.Machine

/-! The signed order with zero, by bit 31. -/

/-- A word is negative exactly when its bit 31 is set (R209). -/
theorem s32_neg_iff (v : Word) : s32 v < 0 ↔ v.msb = true := by
  rw [BitVec.msb_eq_toInt, decide_eq_true_eq]

/-- A word is 0 exactly when its signed reading is (R210). -/
theorem s32_eq_zero_iff (v : Word) : s32 v = 0 ↔ v = 0#32 := by
  rw [← BitVec.toInt_inj]
  rfl

/-- Settles O40: every condition is decided by the order its rule names. -/
theorem twoRegisterBranches : Obligations.TwoRegisterBranches := by
  intro i j target s
  exact ⟨branchesIf_of (c := condEq (s.x i) (s.x j)) rfl decide_eq_true_iff,
    branchesIf_of (c := condNe (s.x i) (s.x j)) rfl decide_eq_true_iff,
    branchesIf_of (c := condLt (s.x i) (s.x j)) rfl decide_eq_true_iff,
    branchesIf_of (c := condLe (s.x i) (s.x j)) rfl decide_eq_true_iff,
    branchesIf_of (c := condGt (s.x i) (s.x j)) rfl decide_eq_true_iff,
    branchesIf_of (c := condGe (s.x i) (s.x j)) rfl decide_eq_true_iff⟩

/-- Settles O41: every condition is decided by the signed order with zero, which is bit 31 and being zero. -/
theorem compareWithZeroBranches : Obligations.CompareWithZeroBranches := by
  intro i target s
  have hneg := s32_neg_iff (s.x i)
  have hzero := s32_eq_zero_iff (s.x i)
  refine ⟨branchesIf_of (c := condLtz (s.x i)) rfl ?ltz, branchesIf_of (c := condLez (s.x i)) rfl ?lez,
    branchesIf_of (c := condGtz (s.x i)) rfl ?gtz, branchesIf_of (c := condGez (s.x i)) rfl ?gez⟩
  case ltz => rw [condLtz, decide_eq_true_iff, hneg]
  case lez => rw [condLez, decide_eq_true_iff, ← hneg, ← hzero]; omega
  case gtz => rw [condGtz, decide_eq_true_iff, ne_eq, ← Bool.not_eq_true, ← hneg, ← hzero]; omega
  case gez => rw [condGez, decide_eq_true_iff, ← Bool.not_eq_true, ← hneg]; omega

/-- An invalid designator in either position refuses a two-register branch, whatever its condition (R202). -/
theorem branch2_invalid {rs rt : RegOp} {tok : Token} {d : RegOp}
    (h : rs = .invalid tok ∧ rt = d ∨ rs = d ∧ rt = .invalid tok) (cond : Word → Word → Bool) (target : ValOp)
    (s : State) : branch2 cond rs rt target s = .refused .invalidRegisterInControlTransfer := by
  obtain ⟨rfl, -⟩ | ⟨-, rfl⟩ := h
  · rfl
  · cases rs <;> rfl

/-- Settles O42: every two-register branch by `branch2_invalid`; the others refuse by definition. -/
theorem invalidRegisterInControlTransferIsRefused : Obligations.InvalidRegisterInControlTransferIsRefused := by
  intro tok d target s rs rt h
  exact ⟨branch2_invalid h condEq target s, branch2_invalid h condNe target s, branch2_invalid h condLt target s,
    branch2_invalid h condLe target s, branch2_invalid h condGt target s, branch2_invalid h condGe target s, rfl, rfl,
    rfl, rfl, rfl⟩

end Sys2Proof.Machine
end

section
/-! PROOFS. Reset, the host's operations and the step (10_state.md R42; 60_exceptions.md R277 to R282;
70_reset_and_hazards.md R300). -/

namespace Sys2Proof.Machine

/-! Reset. -/

/-- A byte of the reset memory (10_state.md R42). -/
theorem State.readByte_resetWith (cfg : Config) (a : Word) : (State.resetWith cfg).readByte a = 0#8 := rfl

/-- The registers after the host's reset are those of the reset state (70_reset_and_hazards.md R300). -/
theorem State.x_hostReset (s : State) (i : Fin 32) : s.hostReset.x i = if i = 29 then s.cfg.spInit else 0#32 :=
  (State.x_congr (s := State.resetWith s.cfg) rfl i).trans (State.x_resetWith s.cfg i)

/-- A running engine with nothing loaded halts at its first step (60_exceptions.md R277). -/
theorem step_of_no_slots {s : State} (heng : s.eng ≠ .halted) (hphase : s.phase ≠ .failed) (h : s.slots = []) :
    step s = .next s.noInstruction := by
  rw [step, if_neg heng, if_neg hphase, State.fetch_of_slots_nil h]

/-- Settles O1: the fields of the reset state, its idle fetch, and the one successful answer of `load`. -/
theorem resetLeavesTheTableValues : Obligations.ResetLeavesTheTableValues := by
  refine ⟨State.x_resetWith Config.default 29, fun cfg => ⟨State.x_resetWith cfg, rfl, rfl, rfl, rfl, rfl,
    State.readByte_resetWith cfg, rfl, rfl, step_of_no_slots nofun nofun rfl, rfl, fun text t n m h => ?_⟩⟩
  obtain ⟨r, hr⟩ | ⟨-, -, ⟨tok, he⟩ | ⟨l, -, hl⟩⟩ := (State.resetWith cfg).load_cases text
  · exact nomatch h.symm.trans hr
  · exact nomatch h.symm.trans he
  · obtain ⟨rfl, -, -⟩ := LoadResult.loaded.inj (h.symm.trans hl)
    exact ⟨rfl, rfl⟩

/-- Settles O2: the fields of the reset state, and the console carried over. -/
theorem hostResetReplacesAllOwnedState : Obligations.HostResetReplacesAllOwnedState :=
  fun s => ⟨s.x_hostReset, rfl, rfl, rfl, rfl, rfl, fun _ => rfl, rfl, rfl, rfl, rfl⟩

/-! The step. -/

section
variable {s : State} {toks : List Token}

/-- A slot that decodes to an instruction runs its evaluator (60_exceptions.md R281). -/
theorem step_of_instr {i : Instr} (heng : s.eng ≠ .halted) (hphase : s.phase ≠ .failed) (h : SlotAtPc s toks)
    (hdec : decode s.cfg.admitTierC toks = .instr i) : step s = exec i s := by
  simp only [step, if_neg heng, if_neg hphase, fetch_of_slotAtPc.mpr h, hdec]

/-- A slot that decodes to an unknown opcode logs it (30_encoding.md R93). -/
theorem step_of_unknown {mnemonic : Token} (heng : s.eng ≠ .halted) (hphase : s.phase ≠ .failed) (h : SlotAtPc s toks)
    (hdec : decode s.cfg.admitTierC toks = .unknown mnemonic) : step s = .next (s.unknownOpcode mnemonic) := by
  simp only [step, if_neg heng, if_neg hphase, fetch_of_slotAtPc.mpr h, hdec]

/-- An ill-formed slot refuses the step (30_encoding.md R92). -/
theorem step_of_illFormed (heng : s.eng ≠ .halted) (hphase : s.phase ≠ .failed) (h : SlotAtPc s toks)
    (hdec : decode s.cfg.admitTierC toks = .illFormed) : step s = .refused .illFormed := by
  simp only [step, if_neg heng, if_neg hphase, fetch_of_slotAtPc.mpr h, hdec]

end

/-- Without a slot at `pc` the step is E6's (60_exceptions.md R277). -/
theorem step_of_noSlot {s : State} (heng : s.eng ≠ .halted) (hphase : s.phase ≠ .failed) (h : NoSlotAtPc s) :
    step s = .next s.noInstruction := by
  rw [step, if_neg heng, if_neg hphase, fetch_of_noSlotAtPc.mpr h]

/-- Settles O3: a halted engine, an engine with no slot at `pc`, and the decoder's two answers on a slot. -/
theorem stepRunsTheDecodedInstruction : Obligations.StepRunsTheDecodedInstruction :=
  fun _ => ⟨step_of_halted, step_of_noSlot, fun _ _ heng hphase hslot hdec _ => step_of_instr heng hphase hslot hdec,
    fun _ heng hphase hslot hdec => step_of_illFormed heng hphase hslot hdec⟩

/-- Settles O4: the step is `State.noInstruction`, which halts, logs the pc and changes nothing else. -/
theorem noInstructionHaltsAndIsReportedOnce : Obligations.NoInstructionHaltsAndIsReportedOnce := by
  intro s heng hphase hnone
  exact ⟨s.noInstruction, step_of_noSlot heng hphase hnone, rfl, rfl, rfl, fun _ => rfl, ⟨rfl, rfl⟩, fun _ => rfl,
    ⟨rfl, rfl⟩, ⟨rfl, rfl⟩, ⟨rfl, rfl, rfl, rfl⟩, step_of_halted s.noInstruction_eng⟩

/-- Settles O5: dispatch finds no admitted opcode, and the step is `State.unknownOpcode`. -/
theorem unknownOpcodeLogsAndContinues : Obligations.UnknownOpcodeLogsAndContinues := by
  intro s t0 ops heng hphase hslot hout
  have hdec := decode_of_lookupKind_none (lookupKind_eq_none hout) ops
  exact ⟨s.unknownOpcode t0, step_of_unknown heng hphase hslot hdec, rfl, rfl, fun _ => rfl, ⟨rfl, rfl⟩, fun _ => rfl,
    restSame_of rfl rfl rfl rfl rfl rfl rfl rfl rfl⟩

/-- Settles O7: a load error leaves the phase `failed`, which every step refuses, and the host's reset leaves nothing
loaded. -/
theorem loadErrorRefusesStepsUntilReset : Obligations.LoadErrorRefusesStepsUntilReset := by
  intro s t text tok h
  refine ⟨?_, step_of_no_slots nofun nofun rfl⟩
  obtain ⟨r, hr⟩ | ⟨-, hready, ⟨tok', he⟩ | ⟨l, -, hl⟩⟩ := s.load_cases text
  · exact nomatch h.symm.trans hr
  · obtain ⟨rfl, -⟩ := LoadResult.error.inj (h.symm.trans he)
    rw [step, if_neg (by simp [hready]), if_pos rfl]
  · exact nomatch h.symm.trans hl

/-- Settles O10: the three parts hold of the reset state by computation. -/
theorem invariantHoldsAtReset : Obligations.InvariantHoldsAtReset :=
  fun cfg => ⟨State.resetWith_mem_wf cfg, rfl, fun _ => ⟨rfl, rfl⟩⟩

end Sys2Proof.Machine
end

section
/-! PROOFS. What the loader keeps while it fills the stores: memory in canonical form (30_encoding.md R97 to R111). -/

namespace Sys2Proof.Machine

section
variable {cfg : Config} {l l' : Loader}

theorem Loader.put_wf (h : Memory.wf l.mem = true) (bytes : List Byte) : Memory.wf (l.put bytes).mem = true :=
  memWriteBytes_wf h l.cursor bytes

theorem Loader.words_wf {toks : List Token} (h : Memory.wf l.mem = true) (hl : l.words toks = .ok l') :
    Memory.wf l'.mem = true := by
  induction toks generalizing l with
  | nil => cases hl; exact h
  | cons tok toks ih =>
    obtain ⟨n, -, hrest⟩ := Loading.andThen_ok hl
    exact ih (Loader.put_wf h _) hrest

theorem Loader.bytes_wf {toks : List Token} (h : Memory.wf l.mem = true) (hl : l.bytes toks = .ok l') :
    Memory.wf l'.mem = true := by
  induction toks generalizing l with
  | nil => cases hl; exact h
  | cons tok toks ih =>
    obtain ⟨n, -, hrest⟩ := Loading.andThen_ok hl
    exact ih (Loader.put_wf h _) hrest

theorem Loader.space_wf {toks : List Token} (h : Memory.wf l.mem = true) (hl : l.space toks = .ok l') :
    Memory.wf l'.mem = true := by
  unfold Loader.space at hl
  split at hl
  · obtain ⟨n, -, hn⟩ := Loading.andThen_ok hl
    cases hn
    exact h
  · cases hl

theorem Loader.string_wf (h : Memory.wf l.mem = true) (terminator : List Byte) (args : List Token) :
    Memory.wf (l.string terminator args).mem = true := by
  unfold Loader.string
  split
  · exact Loader.put_wf h _
  · exact h

theorem Loader.dataLine_wf {toks : List Token} (h : Memory.wf l.mem = true) (hl : l.dataLine toks = .ok l') :
    Memory.wf l'.mem = true := by
  unfold Loader.dataLine at hl
  split at hl
  · cases hl
  split at hl
  · cases hl
  split_ifs at hl
  · exact Loader.words_wf h hl
  · exact Loader.bytes_wf h hl
  · exact Loader.space_wf h hl
  · cases hl; exact Loader.string_wf h _ _
  · cases hl; exact Loader.string_wf h _ _

theorem Loader.place_wf {line : List Char} (h : Memory.wf l.mem = true) (hl : l.place cfg line = .ok l') :
    Memory.wf l'.mem = true := by
  unfold Loader.place at hl
  split at hl
  · unfold Loader.addSlot at hl
    split at hl
    · cases hl
    · cases hl; exact h
  · exact Loader.dataLine_wf h hl

theorem Loader.labelled_wf {line : List Char} (h : Memory.wf l.mem = true) (hl : l.labelled cfg line = .ok l') :
    Memory.wf l'.mem = true := by
  unfold Loader.labelled at hl
  split at hl
  · obtain ⟨m, hm, hrest⟩ := Loading.andThen_ok hl
    have hmem : Memory.wf m.mem = true := by
      rw [(Loader.addLabel_ok hm).2]
      exact h
    split at hrest
    · cases hrest; exact hmem
    · exact Loader.place_wf hmem hrest
  · exact Loader.place_wf h hl

theorem Loader.line_wf {text : List Char} (h : Memory.wf l.mem = true) (hl : l.line cfg text = .ok l') :
    Memory.wf l'.mem = true := by
  simp only [Loader.line] at hl
  split_ifs at hl
  · cases hl; exact h
  · cases hl; exact h
  · cases hl; exact h
  · split at hl
    · cases hl; exact h
    · cases hl
  · exact Loader.labelled_wf h hl

theorem Loader.pass_wf {lines : List (List Char)} (h : Memory.wf l.mem = true) (hl : l.pass cfg lines = .ok l') :
    Memory.wf l'.mem = true := by
  induction lines generalizing l with
  | nil => cases hl; exact h
  | cons line lines ih =>
    obtain ⟨m, hm, hrest⟩ := Loading.andThen_ok hl
    exact ih (Loader.line_wf h hm) hrest

end

/-- Settles O12: the host's reset is the reset state in all that the invariant speaks of; a successful load puts the
memory of its pass in place, leaves the registers and is no longer fresh. -/
theorem loadAndResetEstablishInvariant : Obligations.LoadAndResetEstablishInvariant := by
  refine ⟨fun s => invariantHoldsAtReset s.cfg, fun s t text n m hs h => ?_⟩
  obtain ⟨-, hzero, -⟩ := hs
  obtain ⟨r, hr⟩ | ⟨-, -, ⟨tok, he⟩ | ⟨l, hpass, hl⟩⟩ := s.load_cases text
  · exact nomatch h.symm.trans hr
  · exact nomatch h.symm.trans he
  · obtain ⟨rfl, -, -⟩ := LoadResult.loaded.inj (h.symm.trans hl)
    exact ⟨Loader.pass_wf rfl hpass, hzero, nofun⟩

end Sys2Proof.Machine
end

section
/-! PROOFS. The console and heap services of `syscall` (47_system.md). -/

namespace Sys2Proof.Machine

/-! Printing (R243, R244, R250). -/

/-- A decimal digit's character in ASCII (R243). -/
theorem ascii_digitChar : ∀ d < 10, BitVec.ofNat 8 (digitChar d).toNat = BitVec.ofNat 8 (48 + d) := by decide

/-- The model's numeral is `Dec(n)` of R243. -/
theorem isDecimal_decNumeral (n : Int) : IsDecimal n (asciiBytes (decNumeral n)) := by
  obtain ⟨ds, hne, hlt, hlead, hvalue, hnum⟩ := numeralDigits_spec (base := 10) (by decide) (le_refl n.natAbs)
  have hbytes : asciiBytes (natNumeral 10 n.natAbs) = ds.map fun d => BitVec.ofNat 8 (48 + d) := by
    rw [natNumeral, hnum, asciiBytes, List.map_map]
    exact List.map_congr_left fun d hd => ascii_digitChar d (hlt d hd)
  refine ⟨ds, hne, hlt, fun hlen => hlead (.inl hlen), hvalue, ?_⟩
  unfold decNumeral
  split
  · exact congrArg (0x2D#8 :: ·) hbytes
  · exact hbytes

/-- Bytes appended to the output and the pc's advance, and nothing else (R242). -/
theorem emit_advance_spec (s : State) (bs : List Byte) :
    ((s.emit bs).advance).conOut = s.conOut ++ bs ∧ ((s.emit bs).advance).conIn = s.conIn ∧
      ((s.emit bs).advance).heapPtr = s.heapPtr ∧ SameRegs s (s.emit bs).advance ∧ SameMemory s (s.emit bs).advance ∧
      ServiceFrame s (s.emit bs).advance :=
  ⟨rfl, rfl, rfl, fun _ => rfl, fun _ => rfl, rfl, rfl, rfl, ⟨rfl, rfl⟩, ⟨rfl, rfl, rfl, rfl⟩, rfl⟩

/-- The low byte of a word, by value (R250). -/
theorem setWidth_eight_eq_ofNat_mod (v : Word) : v.setWidth 8 = BitVec.ofNat 8 (v.toNat % 256) := by
  apply BitVec.eq_of_toNat_eq
  simp

/-- Settles O48: both services print, the one the numeral of `isDecimal_decNumeral`, the other the low byte. -/
theorem printIntegerAndCharacter : Obligations.PrintIntegerAndCharacter := by
  intro s
  refine ⟨fun h => ⟨_, _, exec_syscall_of_printInt h, isDecimal_decNumeral _, emit_advance_spec s _⟩,
    fun h => ⟨_, exec_syscall_of_printChar h, ?_⟩⟩
  rw [← setWidth_eight_eq_ofNat_mod]
  exact emit_advance_spec s _

/-- A run of non-zero bytes with a zero byte after it ends before the addresses come round again. -/
theorem length_lt_of_terminated {s : State} {a : Word} {bs : List Byte}
    (hb : ∀ k (h : k < bs.length), s.readByte (a + BitVec.ofNat 32 k) = bs[k] ∧ bs[k] ≠ 0#8)
    (hz : s.readByte (a + BitVec.ofNat 32 bs.length) = 0#8) : bs.length < 2 ^ 32 := by
  by_contra hc
  have hlt : bs.length % 2 ^ 32 < bs.length := by omega
  obtain ⟨hread, hne⟩ := hb _ hlt
  have hround : BitVec.ofNat 32 (bs.length % 2 ^ 32) = BitVec.ofNat 32 bs.length := BitVec.eq_of_toNat_eq (by simp)
  rw [hround] at hread
  exact hne (hread.symm.trans hz)

/-- Every byte of the run is listed, each at its own address, so the memory lists at least as many cells (R244). -/
theorem length_le_cells {s : State} {a : Word} {bs : List Byte} (hlen : bs.length < 2 ^ 32)
    (hb : ∀ k (h : k < bs.length), s.readByte (a + BitVec.ofNat 32 k) = bs[k] ∧ bs[k] ≠ 0#8) :
    bs.length ≤ s.mem.length := by
  have hnodup : ((List.range bs.length).map fun k => (a + BitVec.ofNat 32 k).toNat).Nodup := by
    refine List.Nodup.map_on (fun i hi j hj h => ?_) List.nodup_range
    rw [List.mem_range] at hi hj
    exact add_ofNat_inj a (by omega) (by omega) (BitVec.eq_of_toNat_eq h)
  have hsub : ((List.range bs.length).map fun k => (a + BitVec.ofNat 32 k).toNat) ⊆ s.mem.map fun c => c.1 := by
    intro x hx
    obtain ⟨k, hk, rfl⟩ := List.mem_map.mp hx
    obtain ⟨hread, hne⟩ := hb k (List.mem_range.mp hk)
    exact mem_of_memRead_ne fun h => hne (hread.symm.trans h)
  simpa using (List.subperm_of_subset hnodup hsub).length_le

/-- Settles O49: the scan's fuel, one more than the listed cells, reaches the zero byte. -/
theorem printStringStopsAtTheZeroByte : Obligations.PrintStringStopsAtTheZeroByte := by
  intro s bs h hb hz
  have hfuel : bs.length < s.mem.length + 1 :=
    Nat.lt_succ_of_le (length_le_cells (length_lt_of_terminated hb hz) hb)
  refine ⟨(s.emit bs).advance, ?_, emit_advance_spec s bs⟩
  rw [exec_syscall_of_printString h, servicePrintString, stringBytes_of hb hz hfuel]

/-! Services that answer in register 2 (R245, R248, R251). -/

/-- A write to register 2 and the pc's advance, after a change to console input and heap pointer alone. -/
theorem setX_v0_advance_spec {s u : State} (v : Word) {inp : ConsoleIn} {hp : Word}
    (hu : u = { s with conIn := inp, heapPtr := hp }) :
    WritesV0 v s (u.setX 2 v).advance ∧ (u.setX 2 v).advance.conIn = inp ∧ (u.setX 2 v).advance.heapPtr = hp ∧
      (u.setX 2 v).advance.conOut = s.conOut ∧ SameMemory s (u.setX 2 v).advance ∧
      ServiceFrame s (u.setX 2 v).advance := by
  subst hu
  exact ⟨fun i => State.x_writeReg_valid (by decide) _ v i, rfl, rfl, rfl, fun _ => rfl, rfl, rfl, rfl, ⟨rfl, rfl⟩,
    ⟨rfl, rfl, rfl, rfl⟩, rfl⟩

/-- Settles O50: the queue's head in register 2, the queue's tail left. -/
theorem readIntegerAndCharacter : Obligations.ReadIntegerAndCharacter := by
  intro s
  constructor
  case left =>
    intro v rest h hq
    obtain ⟨hv, hin, hheap, hout, hmem, hframe⟩ := setX_v0_advance_spec (s := s) (u := s.dropInt) v rfl
    refine ⟨_, ?_, hv, by simp [hq], by simp, by simp, hout, hheap, hmem, hframe⟩
    rw [exec_syscall_of_readInt h, serviceReadInt, hq]
  case right =>
    intro c rest h hq
    rw [BitVec.ofNat_toNat]
    obtain ⟨hv, hin, hheap, hout, hmem, hframe⟩ := setX_v0_advance_spec (s := s) (u := s.dropChar) (c.setWidth 32) rfl
    refine ⟨_, ?_, hv, by simp [hq], by simp, by simp, hout, hheap, hmem, hframe⟩
    rw [exec_syscall_of_readChar h, serviceReadChar, hq]

/-- Settles O52: the old heap pointer in register 2, and their sum modulo 2^32 after it. -/
theorem allocateBumpsTheHeapPointer : Obligations.AllocateBumpsTheHeapPointer := by
  intro s h
  obtain ⟨hv, hin, hheap, hout, hmem, hframe⟩ :=
    setX_v0_advance_spec (s := s) (u := s.setHeapPtr (s.heapPtr + s.x 4)) s.heapPtr rfl
  exact ⟨_, exec_syscall_of_allocate h, hv, hheap.trans (BitVec.add_def _ _), ⟨hout, hin⟩, hmem, hframe⟩

/-! Read string (R247). -/

/-- Read string with room for a byte and a line ready. -/
theorem exec_syscall_of_readString_line {s : State} {txt : List Byte} {rest : List LineDraw} (h : s.x 2 = 8#32)
    (hmax : 1 ≤ s32 (s.x 5)) (hq : s.conIn.lines = .value txt :: rest) :
    exec .syscall s =
      .next (s.dropLine.writeBytes (s.x 4) (txt.take (s32 (s.x 5) - 1).toNat ++ [0#8])).advance := by
  simp only [exec_syscall_of_readString h, serviceReadString, if_neg (Int.not_lt.mpr hmax), hq]

/-- The service touches memory, the line queue and the pc alone. -/
theorem readString_frame (s : State) (a : Word) (bs : List Byte) :
    SameRegs s (s.dropLine.writeBytes a bs).advance ∧ ServiceFrame s (s.dropLine.writeBytes a bs).advance :=
  ⟨fun _ => rfl, rfl, rfl, rfl, ⟨rfl, rfl⟩, ⟨rfl, rfl, rfl, rfl⟩, rfl⟩

/-- Settles O51: the stores are one run of bytes, the line's first ones and a zero byte. -/
theorem readStringStoresALine : Obligations.ReadStringStoresALine := by
  intro s txt rest hwf h hmax hq
  have hlen : (txt.take (s32 (s.x 5) - 1).toNat).length = min txt.length (s32 (s.x 5) - 1).toNat := by
    rw [List.length_take, Nat.min_comm]
  have hrun : (txt.take (s32 (s.x 5) - 1).toNat ++ [0#8]).length = min txt.length (s32 (s.x 5) - 1).toNat + 1 := by
    rw [List.length_append, hlen, List.length_singleton]
  have hbound : s32 (s.x 5) < 2 ^ 31 := BitVec.toInt_lt
  obtain ⟨written, others⟩ := memRead_memWriteBytes hwf (s.x 4) (by rw [hrun]; omega)
  refine ⟨_, exec_syscall_of_readString_line h hmax hq, fun k hk hkmax => ?text, ?terminator, fun b hb => ?others,
    by simp [hq], rfl, rfl, rfl, rfl, readString_frame s _ _⟩
  case text =>
    refine (written k (by omega)).trans ?_
    rw [List.getElem_append_left (by omega), List.getElem_take]
  case terminator =>
    refine (written _ (by omega)).trans ?_
    simp
  case others => exact others b fun k hk => hb k (by omega)

/-! The other answers (R242, R246, R247, R252). -/

/-- Settles O54: the service logs its number and goes on. -/
theorem unsupportedSyscallLogsAndContinues : Obligations.UnsupportedSyscallLogsAndContinues := by
  intro s h1 h4 h5 h8 h9 h10 h11 h12
  exact ⟨_, exec_syscall_of_unsupported h1 h4 h5 h8 h9 h10 h11 h12, rfl, rfl, fun _ => rfl, ⟨rfl, rfl⟩, fun _ => rfl,
    restSame_of rfl rfl rfl rfl rfl rfl rfl rfl rfl⟩

/-- Settles O55: each clause is one branch of its service, taken on the head of its queue. -/
theorem unansweredAndFailedReads : Obligations.UnansweredAndFailedReads := by
  intro s
  refine ⟨fun h hq => ?noInt, fun h hq => ?noChar, fun h hmax hq => ?noLine, fun rest h hq => ?endInt,
    fun rest h hq => ?malformed, fun rest h hq => ?endChar, fun rest h hmax hq => ?endLine, fun h hmax => ?noRoom⟩
  case noInt => simp only [exec_syscall_of_readInt h, serviceReadInt, hq, blocked]
  case noChar => simp only [exec_syscall_of_readChar h, serviceReadChar, hq, blocked]
  case noLine =>
    simp only [exec_syscall_of_readString h, serviceReadString, if_neg (Int.not_lt.mpr hmax), hq, blocked]
  case endInt => simp only [exec_syscall_of_readInt h, serviceReadInt, hq]
  case malformed => simp only [exec_syscall_of_readInt h, serviceReadInt, hq]
  case endChar => simp only [exec_syscall_of_readChar h, serviceReadChar, hq]
  case endLine => simp only [exec_syscall_of_readString h, serviceReadString, if_neg (Int.not_lt.mpr hmax), hq]
  case noRoom => simp only [exec_syscall_of_readString h, serviceReadString, if_pos hmax]

end Sys2Proof.Machine
end

section
/-! PROOFS. The assembler-loader (30_encoding.md R97 to R111). -/

namespace Sys2Proof.Machine

/-! `load` and its pass (R106, R107, R111). -/

theorem State.load_of_not_fresh {s : State} (h : ¬(s.phase = .fresh ∧ s.eng = .ready)) (text : List Char) :
    s.load text = .refused .notFresh := if_neg h

section
variable {s : State} {text : List Char}

/-- Where the pass succeeds, its stores are the engine's. -/
theorem State.load_of_pass_ok {l : Loader} (hf : s.phase = .fresh ∧ s.eng = .ready) (ht : text.all isSourceChar = true)
    (h : (Loader.start s.cfg).pass s.cfg (linesFrom [] text) = .ok l) :
    ∃ t, s.load text = .loaded t l.slots.length l.labels.length ∧
      t.slots = l.slots ∧ t.labels = l.labels ∧ t.mem = l.mem ∧ t.phase = .loaded := by
  simp only [State.load, if_pos hf, if_pos ht, h]
  exact ⟨_, rfl, rfl, rfl, rfl, rfl⟩

/-- Where the pass ends in an error, so does `load`. -/
theorem State.load_of_pass_error {tok : Token} (hf : s.phase = .fresh ∧ s.eng = .ready)
    (ht : text.all isSourceChar = true) (h : (Loader.start s.cfg).pass s.cfg (linesFrom [] text) = .error tok) :
    ∃ t, s.load text = .error t tok := by
  simp only [State.load, if_pos hf, if_pos ht, h]
  exact ⟨_, rfl⟩

/-- What a successful `load` leaves besides the three stores. -/
theorem State.load_frame {t : State} {n m : Nat} (h : s.load text = .loaded t n m) :
    n = t.slots.length ∧ m = t.labels.length ∧ t.pc = s.cfg.textBase ∧ t.eng = .ready ∧ t.cfg = s.cfg ∧
      SameRegs s t ∧ SameHiLo s t ∧ SameHeap s t ∧ SameConsole s t ∧ t.diags = s.diags := by
  obtain ⟨r, hr⟩ | ⟨-, -, ⟨tok, he⟩ | ⟨l, -, hl⟩⟩ := s.load_cases text
  · exact nomatch h.symm.trans hr
  · exact nomatch h.symm.trans he
  · obtain ⟨rfl, rfl, rfl⟩ := LoadResult.loaded.inj (h.symm.trans hl)
    exact ⟨rfl, rfl, rfl, rfl, rfl, fun _ => rfl, ⟨rfl, rfl⟩, ⟨rfl, rfl⟩, ⟨rfl, rfl⟩, rfl⟩

end

section
variable {cfg : Config} {l : Loader}

/-- The pass goes on from what a line leaves (R111). -/
theorem Loader.pass_cons_ok {line : List Char} {l' : Loader} (h : l.line cfg line = .ok l') (rest : List (List Char)) :
    l.pass cfg (line :: rest) = l'.pass cfg rest := by
  rw [Loader.pass, h, Loading.andThen]

/-- A line's load error ends the pass (R105). -/
theorem Loader.pass_cons_error {line : List Char} {tok : Token} (h : l.line cfg line = .error tok)
    (rest : List (List Char)) : l.pass cfg (line :: rest) = .error tok := by
  rw [Loader.pass, h, Loading.andThen]

/-- A line empty after its comment does nothing (R97). -/
theorem Loader.line_empty {line : List Char} (h : cleanLine line = []) : l.line cfg line = .ok l := by
  simp [Loader.line, h]

/-- Any other line goes by its first token (R98; log entry 30). -/
theorem Loader.line_nonempty {line : List Char} (h : cleanLine line ≠ []) :
    l.line cfg line =
      let first := (tokenize (cleanLine line)).head?
      if first = some ".text".toList then .ok { l with sect := .text }
      else if first = some ".data".toList then .ok { l with sect := .data }
      else if first = some ".globl".toList ∨ first = some ".global".toList then
        if l.sect = .text then .ok l else .refused .unknownDirective
      else l.labelled cfg (cleanLine line) := by
  have hne : (cleanLine line).isEmpty = false := by simpa using h
  simp only [Loader.line, hne, Bool.false_eq_true, if_false]
  cases hs : l.sect with
  | text => simp only [if_true]
  | data => simp only [reduceCtorEq, if_false]

end

/-- Settles O57: `load` by its three answers, the pass line by line, and each line by its first token. -/
theorem loadSetsUpTheProgram : Obligations.LoadSetsUpTheProgram := by
  intro s text
  exact ⟨fun h => State.load_of_not_fresh h text, fun t n m h => State.load_frame h,
    fun hphase heng ht => ⟨fun l h => State.load_of_pass_ok ⟨hphase, heng⟩ ht h,
      fun tok h => State.load_of_pass_error ⟨hphase, heng⟩ ht h⟩, rfl,
    fun l => ⟨rfl, fun line => ⟨fun l' rest h => Loader.pass_cons_ok h rest, Loader.line_empty, Loader.line_nonempty⟩⟩⟩

/-! Labels (R99, R100, R109). -/

/-- The running address in the text section, by value (30_encoding.md R80). -/
theorem Loader.here_text (cfg : Config) {l : Loader} (h : l.sect = .text) :
    l.here cfg = u32 (cfg.textBase.toNat + 4 * l.slots.length) := by
  have hslots : u32 ((4 * l.slots.length : Nat) : Int) = BitVec.ofNat 32 (4 * l.slots.length) :=
    BitVec.ofInt_natCast 32 _
  simp only [Loader.here, h, Fixed.value]
  rw [← hslots, add_u32]
  push_cast
  rfl

/-- A line with a label marker: the name up to the first colon, and the remainder on to step 4. -/
theorem Loader.labelled_of_colon {cfg : Config} {l l' : Loader} {name : Token} (hname : ':' ∉ name)
    (h : l.addLabel cfg name = .ok l') (remainder : List Char) :
    l.labelled cfg (name ++ ':' :: remainder) =
      if trim remainder = [] then .ok l' else l'.place cfg (trim remainder) := by
  have hne : ∀ c ∈ name, (c != ':') = true := fun c hc => bne_iff_ne.mpr fun h => hname (h ▸ hc)
  have htake : (name ++ ':' :: remainder).takeWhile (· != ':') = name := by
    rw [List.takeWhile_append_of_pos hne]
    simp
  have hdrop : (name ++ ':' :: remainder).dropWhile (· != ':') = ':' :: remainder := by
    rw [List.dropWhile_append_of_pos hne]
    simp
  have hcolon : (name ++ ':' :: remainder).contains ':' = true := by simp
  simp only [Loader.labelled, hcolon, if_true, htake, hdrop, h, Loading.andThen, List.drop_one, List.tail_cons,
    List.isEmpty_iff]

/-- Settles O59: the label by `Loader.addLabel_ok`, its line by `Loader.labelled_of_colon`, and step 4 by section. -/
theorem labelsNameTheRunningAddress : Obligations.LabelsNameTheRunningAddress := by
  intro cfg l name
  refine ⟨fun l' h => ?label, fun l' remainder hname h => Loader.labelled_of_colon hname h remainder,
    fun line => ⟨fun hline => ?bare, fun hs hroom => ?text, fun hs => ?data⟩⟩
  case label =>
    obtain ⟨hnew, rfl⟩ := Loader.addLabel_ok h
    refine ⟨rfl, rfl, rfl, rfl, ?_, fun other hother => ?_⟩
    · rw [labelLookup_append hnew, if_pos rfl]
      cases hs : l.sect with
      | data => simp only [Loader.here, hs]
      | text => rw [Loader.here_text cfg hs]
    · rw [labelLookup_append hnew, if_neg (Ne.symm hother)]
  case bare => simp [Loader.labelled, hline]
  case text =>
    simp only [Loader.place, hs, Loader.addSlot, if_neg (Nat.not_le.mpr hroom)]
  case data => simp only [Loader.place, hs]

/-! Data directives (R101 to R105): a data line of closed tokens goes by its first. -/

section
variable {l : Loader} {args : List Token}

theorem all_tokenClosed_cons {tok : Token} (htok : tokenClosed tok = true) (h : args.all tokenClosed = true) :
    (tok :: args).all tokenClosed = true := by
  rw [List.all_cons, htok, h]
  rfl

theorem Loader.dataLine_word (h : args.all tokenClosed = true) : l.dataLine (".word".toList :: args) = l.words args := by
  rw [Loader.dataLine, all_tokenClosed_cons (by decide) h]
  rfl

theorem Loader.dataLine_byte (h : args.all tokenClosed = true) : l.dataLine (".byte".toList :: args) = l.bytes args := by
  rw [Loader.dataLine, all_tokenClosed_cons (by decide) h]
  rfl

theorem Loader.dataLine_space (h : args.all tokenClosed = true) :
    l.dataLine (".space".toList :: args) = l.space args := by
  rw [Loader.dataLine, all_tokenClosed_cons (by decide) h]
  rfl

theorem Loader.dataLine_ascii (h : args.all tokenClosed = true) :
    l.dataLine (".ascii".toList :: args) = .ok (l.string [] args) := by
  rw [Loader.dataLine, all_tokenClosed_cons (by decide) h]
  rfl

theorem Loader.dataLine_asciiz (h : args.all tokenClosed = true) :
    l.dataLine (".asciiz".toList :: args) = .ok (l.string [0#8] args) := by
  rw [Loader.dataLine, all_tokenClosed_cons (by decide) h]
  rfl

/-- `.word` on values stores their bytes one value after another (R101). -/
theorem Loader.words_of_values {values : List Int} (h : List.Forall₂ (LoadsValue l) args values) :
    l.words args = .ok (l.put (values.flatMap fun n => wordBytes (u32 n))) := by
  simpa [Loader.words] using Loader.words_append [] h

/-- `.byte` on values stores the low byte of each (R102). -/
theorem Loader.bytes_of_values {values : List Int} (h : List.Forall₂ (LoadsValue l) args values) :
    l.bytes args = .ok (l.put (values.map fun n => (u32 n).setWidth 8)) := by
  simpa [Loader.bytes] using Loader.bytes_append [] h

/-- `.space` on a value moves the cursor (R104). -/
theorem Loader.space_of_value {tok : Token} {n : Int} (h : LoadsValue l tok n) :
    l.space [tok] = .ok { l with cursor := u32 (l.cursor.toNat + n) } := by
  rw [Loader.space, Loader.loadImm_of_loadsValue h, Loading.andThen, add_u32]

/-- A store leaves the label table, so a token that fails before it fails after it. -/
theorem FailsToLoad.put {tok : Token} (h : FailsToLoad l tok) (bytes : List Byte) : FailsToLoad (l.put bytes) tok := h

/-- A token that is no value after ones that are ends `.word` with its load error (R105). -/
theorem Loader.words_fail {before after : List Token} {tok : Token} {values : List Int}
    (h : List.Forall₂ (LoadsValue l) before values) (hf : FailsToLoad l tok) :
    l.words (before ++ tok :: after) = .error tok := by
  rw [Loader.words_append _ h, Loader.words, Loader.loadImm_of_failsToLoad (hf.put _), Loading.andThen]

/-- A token that is no value after ones that are ends `.byte` with its load error (R105). -/
theorem Loader.bytes_fail {before after : List Token} {tok : Token} {values : List Int}
    (h : List.Forall₂ (LoadsValue l) before values) (hf : FailsToLoad l tok) :
    l.bytes (before ++ tok :: after) = .error tok := by
  rw [Loader.bytes_append _ h, Loader.bytes, Loader.loadImm_of_failsToLoad (hf.put _), Loading.andThen]

/-- `.space` on a token that is no value (R105). -/
theorem Loader.space_fail {tok : Token} (hf : FailsToLoad l tok) : l.space [tok] = .error tok := by
  rw [Loader.space, Loader.loadImm_of_failsToLoad hf, Loading.andThen]

end

/-- Settles O58: each directive on values is one store at the cursor, and the first token that is no value ends it. -/
theorem dataDirectivesFillMemory : Obligations.DataDirectivesFillMemory := by
  intro l args hwf hc
  refine ⟨fun values hv => ⟨fun hlen => ?word, fun hlen => ?byte, fun n hn => ?space⟩,
    fun before after tok values hargs hv hf => ⟨?wordFails, ?byteFails, fun htok => ?spaceFails⟩,
    fun cfg line rest tok h => Loader.pass_cons_error h rest⟩
  case word =>
    refine ⟨_, (Loader.dataLine_word hc).trans (Loader.words_of_values hv), Loader.put_stores hwf ?_⟩
    rw [List.length_flatMap]
    simpa [Nat.mul_comm] using hlen
  case byte =>
    have hbytes : (values.map fun n => (u32 n).setWidth 8) = values.map fun n => BitVec.ofNat 8 ((u32 n).toNat % 256) :=
      List.map_congr_left fun n _ => setWidth_eight_eq_ofNat_mod (u32 n)
    rw [← hbytes]
    exact ⟨_, (Loader.dataLine_byte hc).trans (Loader.bytes_of_values hv), Loader.put_stores hwf (by simpa using hlen)⟩
  case space =>
    subst hn
    obtain _ | ⟨hn, _ | _⟩ := hv
    exact (Loader.dataLine_space hc).trans (Loader.space_of_value hn)
  case wordFails => rw [Loader.dataLine_word hc, hargs, Loader.words_fail hv hf]
  case byteFails => rw [Loader.dataLine_byte hc, hargs, Loader.bytes_fail hv hf]
  case spaceFails => rw [Loader.dataLine_space hc, htok, Loader.space_fail hf]

/-! String directives (R103). -/

/-- Settles O60: the quoted text by its first and last quote, and one store at the cursor of what it stands for. -/
theorem stringDirectivesStoreTheirText : Obligations.StringDirectivesStoreTheirText := by
  intro l args hwf
  refine ⟨fun hc => ⟨Loader.dataLine_ascii hc, Loader.dataLine_asciiz hc⟩, fun terminator => ⟨fun hcount => ?unpaired,
    fun before text after bytes hargs hbefore hafter htext hlen => ?paired⟩⟩
  case unpaired =>
    rw [Loader.string, rejoin_eq_intercalate, quoted_eq_none hcount]
  case paired =>
    have hstring : l.string terminator args = l.put (bytes ++ terminator) := by
      rw [Loader.string, rejoin_eq_intercalate, hargs, quoted_eq_some hbefore hafter, ← unescape_of_storedText htext]
    rw [hstring]
    exact Loader.put_stores hwf hlen

end Sys2Proof.Machine
end
